-- ==== Sys2Proof/Word.lean ====
section
/-! DEFINITION. The word types of the block: bytes, the 16-bit CRC and ATR fields, and 7-bit bus addresses
(00_scope.md R10, R11; 20_memory.md R80). -/

namespace Sys2Proof

/-- A byte: bit 7 is the most significant bit (00_scope.md R11). -/
abbrev Byte := BitVec 8

/-- The CRC and the 2-byte fields of the ATR (00_scope.md R10). -/
abbrev Half := BitVec 16

/-- A 7-bit bus device address (20_memory.md R80). -/
abbrev BusAddr := BitVec 7

end Sys2Proof
end

