-- ==== Sys2Proof/Config.lean ====
section
/-! DEFINITION. The parameters of 00_scope.md R8, the records they need, and the free values of the model.
An OPEN parameter and a free value are constants without a body: nothing can prove a value of one. -/

namespace Sys2Proof

/-- The historical bytes, 0 to 255 of them (10_state.md R46). -/
structure Hist where
  bytes : List Byte
  fits  : bytes.length ≤ 255
deriving DecidableEq, Repr

/-- The first 255 bytes of a string, which are all of it where a one-byte length counts it
(41_link_control.md R225). -/
def Hist.ofList (x : List Byte) : Hist := ⟨x.take 255, by simp⟩

/-- The negotiated link parameters (10_state.md R46): the record of the `atr` register. -/
structure AtrInfo where
  pver   : Byte
  vid    : Vector Byte 5
  bwt    : Half
  ifsc   : Half
  plid   : Byte
  mcf    : Half
  config : Byte
  mpot   : Byte
  segt   : Half
  wut    : Half
  hist   : Hist
deriving DecidableEq, Repr

/-- The error kinds of a bus transaction (20_memory.md R81, R82). The kind `k` of `other` is opaque. -/
inductive BusError where
  | addrNack
  | dataNack
  | other (k : Nat)
deriving DecidableEq, Repr, Inhabited

/-- One answer of the bus oracle (10_state.md R41): success, with the bytes a read delivers, or an error.
The bytes mean nothing when the transaction is a write. -/
inductive BusAnswer where
  | ok (bytes : List Byte)
  | fail (e : BusError)
deriving DecidableEq, Repr, Inhabited

/-- The parameters of 00_scope.md R8 that are arguments of the model (log 10). -/
structure Params where
  nadH2C            : Byte
  nadC2H            : Byte
  i2cAddr           : BusAddr
  writeRetries      : Nat
  atrDefault        : AtrInfo
  bwtUnitUs         : Nat
  mpotUnitUs        : Nat
  segtUnitUs        : Nat
  iMask             : Byte
  rMask             : Byte
  chainResetsBudget : Bool
  scratchCap        : Nat
deriving DecidableEq, Repr

namespace Config

/-- `MAX_DATA` (00_scope.md R8). -/
def maxData : Nat := 254

/-- `HDR_LEN` (00_scope.md R8). -/
def hdrLen : Nat := 3

/-- `CRC_LEN` (00_scope.md R8). -/
def crcLen : Nat := 2

/-- The length of an acknowledgment frame: header and CRC (20_memory.md R92). -/
def ackLen : Nat := hdrLen + crcLen

/-- `I2C_ADDR`, OPEN (00_scope.md R8, D5). -/
opaque i2cAddr : BusAddr

/-- `WRITE_RETRIES` less one. OPEN; the parameter itself is at least 1 (00_scope.md R8, D25). -/
opaque writeRetriesLessOne : Nat

/-! `ATR_DEFAULT`, OPEN (00_scope.md R8, D11; log 11): one constant for each field of the record. -/

/-- `pver` of `ATR_DEFAULT`. -/
opaque defaultPver : Byte

/-- `vid` of `ATR_DEFAULT`. -/
opaque defaultVid : Vector Byte 5

/-- `bwt` of `ATR_DEFAULT`. -/
opaque defaultBwt : Half

/-- `ifsc` of `ATR_DEFAULT`. -/
opaque defaultIfsc : Half

/-- `plid` of `ATR_DEFAULT`. -/
opaque defaultPlid : Byte

/-- `mcf` of `ATR_DEFAULT`. -/
opaque defaultMcf : Half

/-- `config` of `ATR_DEFAULT`. -/
opaque defaultConfig : Byte

/-- `mpot` of `ATR_DEFAULT`. -/
opaque defaultMpot : Byte

/-- `segt` of `ATR_DEFAULT`. -/
opaque defaultSegt : Half

/-- `wut` of `ATR_DEFAULT`. -/
opaque defaultWut : Half

/-- The string whose first 255 bytes are `hist` of `ATR_DEFAULT`. -/
opaque defaultHist : List Byte

/-- `ATR_DEFAULT`: any record of 10_state.md R46. -/
def atrDefault : AtrInfo where
  pver   := defaultPver
  vid    := defaultVid
  bwt    := defaultBwt
  ifsc   := defaultIfsc
  plid   := defaultPlid
  mcf    := defaultMcf
  config := defaultConfig
  mpot   := defaultMpot
  segt   := defaultSegt
  wut    := defaultWut
  hist   := Hist.ofList defaultHist

/-- `BWT_UNIT_US`, OPEN (00_scope.md R8, D12). -/
opaque bwtUnitUs : Nat

/-- `MPOT_UNIT_US`, OPEN (00_scope.md R8, D12). -/
opaque mpotUnitUs : Nat

/-- `SEGT_UNIT_US`, OPEN (00_scope.md R8, D12). -/
opaque segtUnitUs : Nat

/-- The free answer number `n` of the bus, used where no answer is at hand
(93_implementation_defined.md item 17; log 7). -/
opaque freeAnswer : Nat → BusAnswer

/-- Byte number `k` of the free bytes of answer number `n`, used where an answer at hand is too short for its read
(log 8). -/
opaque freeByte : Nat → Nat → Byte

/-- What a memory byte without a value reads as at address `a`, at the time of free value `n`
(93_implementation_defined.md items 13 to 15; log 5, log 18). -/
opaque unspecifiedByte : Nat → Nat → Byte

/-- The parameters with the defaults 00_scope.md R8 adopts and the OPEN constants (log 10). -/
def params : Params where
  nadH2C            := 0x5A
  nadC2H            := 0xA5
  i2cAddr           := i2cAddr
  writeRetries      := writeRetriesLessOne + 1
  atrDefault        := atrDefault
  bwtUnitUs         := bwtUnitUs
  mpotUnitUs        := mpotUnitUs
  segtUnitUs        := segtUnitUs
  iMask             := 0x80
  rMask             := 0xEC
  chainResetsBudget := false
  scratchCap        := 254

end Config
end Sys2Proof
end

