-- ==== Sys2Proof/Syntax.lean ====
section
/-! DEFINITION. PCB values, frames and commands: one constructor of `Instr` per row of spec/opcode_table.json. -/

namespace Sys2Proof

/-- The 16 Supervisory codes (30_encoding.md R119). -/
inductive SCode where
  | resyncRequest | ifsRequest | abortRequest | wtxRequest
  | endSessionRequest | chipResetRequest | getAtrRequest | interfaceSoftResetRequest
  | resyncResponse | ifsResponse | abortResponse | wtxResponse
  | endSessionResponse | chipResetResponse | getAtrResponse | interfaceSoftResetResponse
deriving DecidableEq, Repr

/-- The error code of an R-block (30_encoding.md R115, R117). -/
inductive RErr where
  | none | checksum | other
deriving DecidableEq, Repr

/-- A PCB value (30_encoding.md R115). A sequence bit 0 is `false`. -/
inductive Pcb where
  | i (seq more : Bool)
  | r (seq : Bool) (err : RErr)
  | s (code : SCode)
deriving DecidableEq, Repr

/-- A buffer operand: `capacity` bytes of the caller's memory from `base` (20_memory.md R85; log 4). -/
structure Buffer where
  base     : Nat
  capacity : Nat
deriving DecidableEq, Repr

/-- An operand as the command port carries it, in the shapes of 30_encoding.md R143 (log 3). -/
inductive Operand where
  | pcb (p : Pcb)
  | byte (b : Byte)
  | bytes (x : List Byte)
  | buffer (b : Buffer)
  | length (n : Nat)
deriving DecidableEq, Repr

/-- A command as the caller issues it: "a one-byte command code plus operands" (30_encoding.md R140). -/
structure Command where
  code     : Byte
  operands : List Operand
deriving DecidableEq, Repr

/-- The block's instructions (00_scope.md R3): the wire frames it receives, each with its data, and the
commands of its port. One constructor per row of the opcode table. -/
inductive Instr where
  | iBlock (seq more : Bool) (data : List Byte)
  | rNone (seq : Bool) (data : List Byte)
  | rChecksum (seq : Bool) (data : List Byte)
  | rOther (seq : Bool) (data : List Byte)
  | sResyncRequest (data : List Byte)
  | sIfsRequest (data : List Byte)
  | sAbortRequest (data : List Byte)
  | sWtxRequest (data : List Byte)
  | sEndSessionRequest (data : List Byte)
  | sChipResetRequest (data : List Byte)
  | sGetAtrRequest (data : List Byte)
  | sInterfaceSoftResetRequest (data : List Byte)
  | sResyncResponse (data : List Byte)
  | sIfsResponse (data : List Byte)
  | sAbortResponse (data : List Byte)
  | sWtxResponse (data : List Byte)
  | sEndSessionResponse (data : List Byte)
  | sChipResetResponse (data : List Byte)
  | sGetAtrResponse (data : List Byte)
  | sInterfaceSoftResetResponse (data : List Byte)
  | encodePcb (p : Pcb)
  | decodePcb (b : Byte)
  | checksum (header data : List Byte)
  | resync
  | resetNegotiate (buf : Buffer)
  | receive (buf : Buffer)
  | waitGuard
  | waitPoll
  | sopen (total : Nat)
  | swrite (x : List Byte)
  | sflush
deriving DecidableEq, Repr

/-- An instruction as it is fetched: a frame's bytes from the bus (30_encoding.md R110) or a command from the
port (R140). The two are separate encoding spaces (log 2). -/
inductive Encoded where
  | frame (bytes : List Byte)
  | command (c : Command)
deriving DecidableEq, Repr

end Sys2Proof
end

