-- ==== Sys2Proof/Machine/State.lean ====
section
/-! DEFINITION. The state of the block as plain data, and the state after construction (10_state.md R42;
70_reset_and_hazards.md R381). -/

namespace Sys2Proof.Machine

/-- The operations of the command port (30_encoding.md R140), as `phase` names them (10_state.md R53). -/
inductive Op where
  | encodePcb | decodePcb | checksum
  | resync | resetNegotiate | receive | waitGuard | waitPoll
  | sopen | swrite | sflush
deriving DecidableEq, Repr

/-- The control phase (10_state.md R53). -/
inductive Phase where
  | idle
  | busy (op : Op)
deriving DecidableEq, Repr

/-- The tags of the sticky internal fault (10_state.md R54; 60_exceptions.md R347). The fault is a value of the
register `fault`, written by a step that answers a next state; no step answers `Host.Outcome.fault` (log 13).
Safe: a faulted block refuses everything after it, as the spec says. -/
inductive Fault where
  /-- SWRITE overrun, SWRITE or SFLUSH on a failed sender, SFLUSH with bytes owed, a frame of more than 254 data
  bytes (43_frame_sender.md R313, R318; 40_frame_codec.md R174). Safe. -/
  | programmingError
  /-- A budget computed with `poll_us = 0` (10_state.md R48). Safe. -/
  | divZero
  /-- SWRITE or SFLUSH with no sender (43_frame_sender.md R313, R318). Safe. -/
  | senderNotOpen
deriving DecidableEq, Repr

/-- Why a step has no next state. -/
inductive Refusal where
  /-- An instruction without a meaning. No arm of `exec` answers it. Safe. -/
  | notModelled (mnemonic : String)
  /-- A command code outside 30_encoding.md R140, refused by R141 and 60_exceptions.md R348. Safe. -/
  | unknownCommand (code : Byte)
  /-- A command whose operands are not those of 30_encoding.md R140 (log 3). Safe. -/
  | operandShape (code : Byte)
  /-- A command, or a frame, after the sticky fault: "every later command is refused" (10_state.md R54). Safe. -/
  | stickyFault (tag : Fault)
  /-- A command while an operation runs: "accepted only when phase = Idle" (10_state.md R53). Also a step of an
  operation that runs and awaits no frame, a state no run reaches (log 15). Safe. -/
  | operationRunning (op : Op)
  /-- A frame that no operation awaits: the block reads the bus only inside an operation (log 15). Safe. -/
  | noFrameAwaited
deriving DecidableEq, Repr

/-- The error results (60_exceptions.md R341). -/
inductive Err where
  | bus (e : BusError)
  | badCrc
  | badPcb
  | badAddress
  | receptionBuffer
  | timeout
deriving DecidableEq, Repr

/-- The value of an operation that ends well (30_encoding.md R140; 42_receive.md R250). -/
inductive Value where
  | unit
  | byte (b : Byte)
  | pcb (p : Pcb)
  | crc (v : Half) (wire : List Byte)
  | atr (a : AtrInfo)
  | data (total : Nat)
  | sBlock (code : SCode) (acc len : Nat)
  | consumed (n : Nat)
deriving DecidableEq, Repr

/-- The result of an operation (30_encoding.md R142). -/
inductive Result where
  | ok (v : Value)
  | err (e : Err)
deriving DecidableEq, Repr

/-- The result of a bus write (20_memory.md R81). -/
inductive WriteResult where
  | ok
  | fail (e : BusError)
deriving DecidableEq, Repr

/-- The result of a bus read (20_memory.md R82). -/
inductive ReadResult where
  | ok (bytes : List Byte)
  | fail (e : BusError)
deriving DecidableEq, Repr

/-- The events of the trace (10_state.md R55). -/
inductive Event where
  | busWrite (a : BusAddr) (bytes : List Byte) (result : WriteResult)
  | busRead (a : BusAddr) (n : Nat) (result : ReadResult)
  | delay (us : Nat)
  | seqMismatch (expected got : Bool)
deriving DecidableEq, Repr

/-- A byte memory: its listed bytes, by rising address. A byte that is not listed has no value (log 5). -/
abbrev Memory := List Host.Cell

/-- The state of a sender (10_state.md R50). -/
inductive SenderStatus where
  | active | done | failed
deriving DecidableEq, Repr

/-- SenderState (10_state.md R50). The bytes of `chunk` that nothing wrote are not listed (log 18). -/
structure Sender where
  total    : Nat
  written  : Nat
  chunk    : Memory
  chunkLen : Nat
  status   : SenderStatus
deriving DecidableEq, Repr

/-- The operation a reception serves (42_receive.md, its opening; 41_link_control.md R220, R227). -/
inductive Client where
  | receive | resync | resetNegotiate
deriving DecidableEq, Repr

/-- The locals of a running reception (10_state.md R52; 42_receive.md R250), with its operands. -/
structure Rx where
  client  : Client
  buf     : Buffer
  written : Nat
  i       : Nat
  budget  : Nat
deriving DecidableEq, Repr

/-- What the running operation waits for (log 9): nothing, the next frame of a reception, or the acknowledgment
of a chunk, after which the operation returns `v` (43_frame_sender.md R307). -/
inductive Engine where
  | quiet
  | receiving (rx : Rx)
  | awaitingAck (v : Value)
deriving DecidableEq, Repr

/-- The state of the block, its memories and its inputs. INVENTORY.md names the rule of each field. -/
structure State where
  /-- The parameters of construction (00_scope.md R8; log 10). No operation writes them. -/
  param   : Params
  /-- `tx_seq` (10_state.md R44). -/
  txSeq   : Bool
  /-- `rx_seq` (10_state.md R44). -/
  rxSeq   : Bool
  /-- `atr` (10_state.md R46). -/
  atr     : AtrInfo
  /-- `snd` (10_state.md R50). -/
  snd     : Option Sender
  /-- `phase` (10_state.md R53). -/
  phase   : Phase
  /-- `fault` (10_state.md R54). -/
  fault   : Option Fault
  /-- `trace`, oldest event first (10_state.md R55). -/
  trace   : List Event
  /-- The locals of the running operation (10_state.md R52; log 9). -/
  engine  : Engine
  /-- The caller's memory, where reception buffers lie (20_memory.md R85; log 4). Between two operations it stays as
  the last one left it (log 26). -/
  mem     : Memory
  /-- RESYNC's internal reception buffer (41_link_control.md R220; log 24). -/
  scratch : Memory
  /-- The model's own: the result of the last operation (30_encoding.md R142; log 12). -/
  result  : Option Result
  /-- The model's own: the commands the caller has issued, next first (30_encoding.md R140; log 1). -/
  port    : List Command
  /-- The model's own: the bus answers at hand, next first (10_state.md R41; log 7). -/
  chip    : List BusAnswer
  /-- The model's own: the index of the next free value (log 7). -/
  fresh   : Nat
deriving DecidableEq, Repr

/-- The block right after construction with parameters `P` (70_reset_and_hazards.md R380, R381). The model's own
fields hold the values log 23 names. -/
def State.construct (P : Params) : State where
  param   := P
  txSeq   := false
  rxSeq   := false
  atr     := P.atrDefault
  snd     := none
  phase   := .idle
  fault   := none
  trace   := []
  engine  := .quiet
  mem     := []
  scratch := []
  result  := none
  port    := []
  chip    := []
  fresh   := 0

/-- The machine after reset: construction with the parameters of Config. -/
def State.reset : State := State.construct Config.params

end Sys2Proof.Machine
end

