-- ==== Sys2Proof/Machine/Flags.lean ====
section
/-! DEFINITION. The block has no flag register (10_state.md R56). Its flag-like values are computed here: the `M`
bit a sender sends, and the sequence-mismatch condition of a reception. The `M` bit of a received I-block is the
operand `more` of its instruction. -/

namespace Sys2Proof.Machine

/-- The `M` bit of the chunk a flush sends: "false only if this is the final chunk" (43_frame_sender.md R306). -/
def Sender.more (x : Sender) : Bool := x.written < x.total

/-- The sequence-mismatch condition (42_receive.md R263). -/
def seqMismatched (expected got : Bool) : Bool := expected != got

/-- What a reception logs for a received sequence bit: one event on a mismatch, else nothing
(42_receive.md R263; 10_state.md R56). -/
def mismatchEvents (expected got : Bool) : List Event :=
  if seqMismatched expected got then [.seqMismatch expected got] else []

end Sys2Proof.Machine
end

