-- ==== Sys2Proof/WellFormed.lean ====
section
/-! DEFINITION. Well-formed instructions: a frame carries at most 254 data bytes (30_encoding.md R110); every
operand value of a command is admitted (R140). -/

namespace Sys2Proof

/-- LEN is 0 to 254 (30_encoding.md R110, R112). -/
def dataFits (data : List Byte) : Bool := data.length ≤ Config.maxData

/-- The check of each constructor: the frames bound their data, the commands admit every operand. -/
def Instr.wellFormed : Instr → Bool
  | .iBlock _ _ d => dataFits d
  | .rNone _ d => dataFits d
  | .rChecksum _ d => dataFits d
  | .rOther _ d => dataFits d
  | .sResyncRequest d => dataFits d
  | .sIfsRequest d => dataFits d
  | .sAbortRequest d => dataFits d
  | .sWtxRequest d => dataFits d
  | .sEndSessionRequest d => dataFits d
  | .sChipResetRequest d => dataFits d
  | .sGetAtrRequest d => dataFits d
  | .sInterfaceSoftResetRequest d => dataFits d
  | .sResyncResponse d => dataFits d
  | .sIfsResponse d => dataFits d
  | .sAbortResponse d => dataFits d
  | .sWtxResponse d => dataFits d
  | .sEndSessionResponse d => dataFits d
  | .sChipResetResponse d => dataFits d
  | .sGetAtrResponse d => dataFits d
  | .sInterfaceSoftResetResponse d => dataFits d
  | .encodePcb _ => true
  | .decodePcb _ => true
  | .checksum _ _ => true
  | .resync => true
  | .resetNegotiate _ => true
  | .receive _ => true
  | .waitGuard => true
  | .waitPoll => true
  | .sopen _ => true
  | .swrite _ => true
  | .sflush => true

end Sys2Proof
end

