-- ==== Sys2Proof/Decode.lean ====
section
/-! DEFINITION. Byte order, CRC-16/X-25, PCB and frame encodings, the command-port decoder, and the encoder.
Decoding is total and rejects by name. -/

namespace Sys2Proof

/-! ### Byte order and the checksum -/

/-- `le16` (00_scope.md R12; 20_memory.md R88): the low byte first. -/
def le16 (v : Half) : List Byte := [v.extractLsb' 0 8, v.extractLsb' 8 8]

/-- `lo + 256 * hi`, the value of a received CRC (30_encoding.md R132; 40_frame_codec.md R173). -/
def fromLe16 (lo hi : Byte) : Half := hi ++ lo

/-- `be16` on two bytes: the first is the high byte (00_scope.md R12; 20_memory.md R89). -/
def be16 (hi lo : Byte) : Half := hi ++ lo

/-- One shift of the reflected CRC register (40_frame_codec.md R170). -/
def crcShift (crc : Half) : Half :=
  if crc.getLsbD 0 then (crc >>> 1) ^^^ 0x8408#16 else crc >>> 1

/-- One byte into the CRC register (40_frame_codec.md R170). -/
def crcByte (crc : Half) (x : Byte) : Half :=
  crcShift (crcShift (crcShift (crcShift (crcShift (crcShift (crcShift (crcShift
    (crc ^^^ x.zeroExtend 16))))))))

/-- `CRC16_X25` (40_frame_codec.md R170, R171). -/
def crc16X25 (s : List Byte) : Half := s.foldl crcByte 0xFFFF#16 ^^^ 0xFFFF#16

/-! ### The protocol control byte -/

/-- The byte of a Supervisory code (30_encoding.md R119). -/
def SCode.byte : SCode → Byte
  | .resyncRequest => 0xC0
  | .ifsRequest => 0xC1
  | .abortRequest => 0xC2
  | .wtxRequest => 0xC3
  | .endSessionRequest => 0xC5
  | .chipResetRequest => 0xC6
  | .getAtrRequest => 0xC7
  | .interfaceSoftResetRequest => 0xCF
  | .resyncResponse => 0xE0
  | .ifsResponse => 0xE1
  | .abortResponse => 0xE2
  | .wtxResponse => 0xE3
  | .endSessionResponse => 0xE5
  | .chipResetResponse => 0xE6
  | .getAtrResponse => 0xE7
  | .interfaceSoftResetResponse => 0xEF

/-- The table of 30_encoding.md R119, in its order of bytes. -/
def SCode.all : List SCode :=
  [.resyncRequest, .ifsRequest, .abortRequest, .wtxRequest,
   .endSessionRequest, .chipResetRequest, .getAtrRequest, .interfaceSoftResetRequest,
   .resyncResponse, .ifsResponse, .abortResponse, .wtxResponse,
   .endSessionResponse, .chipResetResponse, .getAtrResponse, .interfaceSoftResetResponse]

/-- "code of b": the S form decodes only to the 16 bytes of 30_encoding.md R119. -/
def SCode.ofByte (b : Byte) : Option SCode := SCode.all.find? fun c => c.byte == b

/-- `code(e)` of an R-block (30_encoding.md R117). -/
def RErr.code : RErr → Byte
  | .none => 0
  | .checksum => 1
  | .other => 2

/-- A one-bit field as a byte. -/
def bitByte (b : Bool) : Byte := if b then 1 else 0

/-- `encode` (40_frame_codec.md R160). -/
def encodePcbByte : Pcb → Byte
  | .i seq more => (bitByte seq <<< 6) ||| (bitByte more <<< 5)
  | .r seq err => 0x80 ||| (bitByte seq <<< 4) ||| err.code
  | .s code => code.byte

/-- The R arm of `decode`, by the error bits 1..0 (30_encoding.md R120). -/
def decodeReceipt (b : Byte) : Option Pcb :=
  match b.getLsbD 1, b.getLsbD 0 with
  | false, false => some (.r (b.getLsbD 4) .none)
  | false, true => some (.r (b.getLsbD 4) .checksum)
  | true, false => some (.r (b.getLsbD 4) .other)
  | true, true => none

/-- `decode` (30_encoding.md R120; 40_frame_codec.md R163): Information, then Receipt, then Supervisory, each
behind its gate; `none` is BadPcb. -/
def decodePcbByte (P : Params) (b : Byte) : Option Pcb :=
  if b &&& P.iMask = 0x00 then some (.i (b.getLsbD 6) (b.getLsbD 5))
  else if b &&& P.rMask = 0x80 then decodeReceipt b
  else (SCode.ofByte b).map .s

/-! ### Frames -/

/-- Why bytes or a command do not decode. Each is named after the check that fails. -/
inductive DecodeError where
  /-- NAD is not the chip-to-host byte (42_receive.md R258). -/
  | badAddress
  /-- The CRC differs (42_receive.md R258; 40_frame_codec.md R173). -/
  | badCrc
  /-- The PCB decodes to no value (40_frame_codec.md R164). -/
  | badPcb
  /-- LEN is 255, or the bytes are not LEN + 5 (30_encoding.md R112). -/
  | badLength
  /-- The command code is not one of 30_encoding.md R140 (R141). -/
  | unknownCommand (code : Byte)
  /-- The operands are not those 30_encoding.md R140 gives the code (log 3). -/
  | operandShape (code : Byte)
deriving DecidableEq, Repr

/-- `crc_ok` (40_frame_codec.md R173). -/
def crcOk (nad pcb len : Byte) (data : List Byte) (lo hi : Byte) : Bool :=
  crc16X25 ([nad, pcb, len] ++ data) == fromLe16 lo hi

/-- The checks of a frame whose parts are at hand, in the order of 42_receive.md R258. -/
def checkFrame (P : Params) (nad pcb len : Byte) (data : List Byte) (lo hi : Byte) :
    Except DecodeError (Pcb × List Byte) :=
  if nad ≠ P.nadC2H then .error .badAddress
  else if crcOk nad pcb len data lo hi = false then .error .badCrc
  else match decodePcbByte P pcb with
    | none => .error .badPcb
    | some p => .ok (p, data)

/-- A received frame's bytes, split as 30_encoding.md R110 lays them out and checked (R112, R258). -/
def decodeFrame (P : Params) (bytes : List Byte) : Except DecodeError (Pcb × List Byte) :=
  match bytes with
  | nad :: pcb :: len :: body =>
    if Config.maxData < len.toNat then .error .badLength
    else match body.drop len.toNat with
      | [lo, hi] => checkFrame P nad pcb len (body.take len.toNat) lo hi
      | _ => .error .badLength
  | _ => .error .badLength

/-- The instruction of a frame: its PCB value selects the row, its data are the operand (00_scope.md R3). -/
def Instr.ofFrame : Pcb → List Byte → Instr
  | .i seq more, d => .iBlock seq more d
  | .r seq .none, d => .rNone seq d
  | .r seq .checksum, d => .rChecksum seq d
  | .r seq .other, d => .rOther seq d
  | .s .resyncRequest, d => .sResyncRequest d
  | .s .ifsRequest, d => .sIfsRequest d
  | .s .abortRequest, d => .sAbortRequest d
  | .s .wtxRequest, d => .sWtxRequest d
  | .s .endSessionRequest, d => .sEndSessionRequest d
  | .s .chipResetRequest, d => .sChipResetRequest d
  | .s .getAtrRequest, d => .sGetAtrRequest d
  | .s .interfaceSoftResetRequest, d => .sInterfaceSoftResetRequest d
  | .s .resyncResponse, d => .sResyncResponse d
  | .s .ifsResponse, d => .sIfsResponse d
  | .s .abortResponse, d => .sAbortResponse d
  | .s .wtxResponse, d => .sWtxResponse d
  | .s .endSessionResponse, d => .sEndSessionResponse d
  | .s .chipResetResponse, d => .sChipResetResponse d
  | .s .getAtrResponse, d => .sGetAtrResponse d
  | .s .interfaceSoftResetResponse, d => .sInterfaceSoftResetResponse d

/-! ### The command port -/

/-- The commands of 30_encoding.md R140; any other code is refused (R141). -/
def decodeCommand (c : Command) : Except DecodeError Instr :=
  match c.code.toNat with
  | 0x01 => match c.operands with
    | [.pcb p] => .ok (.encodePcb p)
    | _ => .error (.operandShape c.code)
  | 0x02 => match c.operands with
    | [.byte b] => .ok (.decodePcb b)
    | _ => .error (.operandShape c.code)
  | 0x03 => match c.operands with
    | [.bytes h, .bytes d] => .ok (.checksum h d)
    | _ => .error (.operandShape c.code)
  | 0x10 => match c.operands with
    | [] => .ok .resync
    | _ => .error (.operandShape c.code)
  | 0x11 => match c.operands with
    | [.buffer b] => .ok (.resetNegotiate b)
    | _ => .error (.operandShape c.code)
  | 0x12 => match c.operands with
    | [.buffer b] => .ok (.receive b)
    | _ => .error (.operandShape c.code)
  | 0x13 => match c.operands with
    | [] => .ok .waitGuard
    | _ => .error (.operandShape c.code)
  | 0x14 => match c.operands with
    | [] => .ok .waitPoll
    | _ => .error (.operandShape c.code)
  | 0x20 => match c.operands with
    | [.length n] => .ok (.sopen n)
    | _ => .error (.operandShape c.code)
  | 0x21 => match c.operands with
    | [.bytes x] => .ok (.swrite x)
    | _ => .error (.operandShape c.code)
  | 0x22 => match c.operands with
    | [] => .ok .sflush
    | _ => .error (.operandShape c.code)
  | _ => .error (.unknownCommand c.code)

/-- The decoder, total on any bytes and any command. -/
def decode (P : Params) : Encoded → Except DecodeError Instr
  | .frame bytes => (decodeFrame P bytes).map fun f => Instr.ofFrame f.1 f.2
  | .command c => decodeCommand c

/-! ### The encoder -/

/-- The bytes of a frame under address byte `nad` (30_encoding.md R110, R111). -/
def frameBytes (nad : Byte) (p : Pcb) (d : List Byte) : List Byte :=
  let body := [nad, encodePcbByte p, BitVec.ofNat 8 d.length] ++ d
  body ++ le16 (crc16X25 body)

/-- The encoding of an instruction: a frame as the chip sends it, a command as the caller issues it. -/
def encode (P : Params) : Instr → Encoded
  | .iBlock seq more d => .frame (frameBytes P.nadC2H (.i seq more) d)
  | .rNone seq d => .frame (frameBytes P.nadC2H (.r seq .none) d)
  | .rChecksum seq d => .frame (frameBytes P.nadC2H (.r seq .checksum) d)
  | .rOther seq d => .frame (frameBytes P.nadC2H (.r seq .other) d)
  | .sResyncRequest d => .frame (frameBytes P.nadC2H (.s .resyncRequest) d)
  | .sIfsRequest d => .frame (frameBytes P.nadC2H (.s .ifsRequest) d)
  | .sAbortRequest d => .frame (frameBytes P.nadC2H (.s .abortRequest) d)
  | .sWtxRequest d => .frame (frameBytes P.nadC2H (.s .wtxRequest) d)
  | .sEndSessionRequest d => .frame (frameBytes P.nadC2H (.s .endSessionRequest) d)
  | .sChipResetRequest d => .frame (frameBytes P.nadC2H (.s .chipResetRequest) d)
  | .sGetAtrRequest d => .frame (frameBytes P.nadC2H (.s .getAtrRequest) d)
  | .sInterfaceSoftResetRequest d => .frame (frameBytes P.nadC2H (.s .interfaceSoftResetRequest) d)
  | .sResyncResponse d => .frame (frameBytes P.nadC2H (.s .resyncResponse) d)
  | .sIfsResponse d => .frame (frameBytes P.nadC2H (.s .ifsResponse) d)
  | .sAbortResponse d => .frame (frameBytes P.nadC2H (.s .abortResponse) d)
  | .sWtxResponse d => .frame (frameBytes P.nadC2H (.s .wtxResponse) d)
  | .sEndSessionResponse d => .frame (frameBytes P.nadC2H (.s .endSessionResponse) d)
  | .sChipResetResponse d => .frame (frameBytes P.nadC2H (.s .chipResetResponse) d)
  | .sGetAtrResponse d => .frame (frameBytes P.nadC2H (.s .getAtrResponse) d)
  | .sInterfaceSoftResetResponse d => .frame (frameBytes P.nadC2H (.s .interfaceSoftResetResponse) d)
  | .encodePcb p => .command ⟨0x01, [.pcb p]⟩
  | .decodePcb b => .command ⟨0x02, [.byte b]⟩
  | .checksum h d => .command ⟨0x03, [.bytes h, .bytes d]⟩
  | .resync => .command ⟨0x10, []⟩
  | .resetNegotiate b => .command ⟨0x11, [.buffer b]⟩
  | .receive b => .command ⟨0x12, [.buffer b]⟩
  | .waitGuard => .command ⟨0x13, []⟩
  | .waitPoll => .command ⟨0x14, []⟩
  | .sopen n => .command ⟨0x20, [.length n]⟩
  | .swrite x => .command ⟨0x21, [.bytes x]⟩
  | .sflush => .command ⟨0x22, []⟩

/-! ### The rows of the opcode table -/

/-- The operands of a command code, all zero (log 2): 0, the empty string, `I(0,0)`, an empty buffer at 0.
`none` for a code outside 30_encoding.md R140. -/
def zeroOperands (code : Byte) : Option (List Operand) :=
  match code.toNat with
  | 0x01 => some [.pcb (.i false false)]
  | 0x02 => some [.byte 0]
  | 0x03 => some [.bytes [], .bytes []]
  | 0x10 => some []
  | 0x11 => some [.buffer ⟨0, 0⟩]
  | 0x12 => some [.buffer ⟨0, 0⟩]
  | 0x13 => some []
  | 0x14 => some []
  | 0x20 => some [.length 0]
  | 0x21 => some [.bytes []]
  | 0x22 => some []
  | _ => none

/-- A frame with PCB byte `pcb` and LEN 0 as the chip sends it: the table gives a frame row its PCB byte, and
its further operands are zero (log 2). -/
def tableFrame (P : Params) (pcb : Byte) : List Byte :=
  [P.nadC2H, pcb, 0] ++ le16 (crc16X25 [P.nadC2H, pcb, 0])

/-- What a table word stands for: a command where it is a command code, else a frame's PCB byte (log 2).
Every row of the table has 8 bits. -/
def tableEncoded (P : Params) (nbits w : Nat) : Option Encoded :=
  if nbits ≠ 8 ∨ 256 ≤ w then none
  else match zeroOperands (BitVec.ofNat 8 w) with
    | some ops => some (.command ⟨BitVec.ofNat 8 w, ops⟩)
    | none => some (.frame (tableFrame P (BitVec.ofNat 8 w)))

/-- The instruction the decoder reads from a word of spec/opcode_table.json. -/
def decodeTableWord (nbits w : Nat) : Option Instr :=
  match tableEncoded Config.params nbits w with
  | none => none
  | some e => match decode Config.params e with
    | .ok i => some i
    | .error _ => none

end Sys2Proof
end

