-- ==== Sys2Proof/Machine/Operands.lean ====
section
/-! DEFINITION. Operand assembly: the intervals and budgets derived from `atr` (10_state.md R48), the ATR payload
(41_link_control.md R225), the numeric error codes (60_exceptions.md R341), and the pseudo-operations
(30_encoding.md R144). -/

namespace Sys2Proof.Machine

/-! ### Derived intervals (10_state.md R48): recomputed at each use -/

/-- `bwt_us`. -/
def State.bwtUs (s : State) : Nat := s.atr.bwt.toNat * s.param.bwtUnitUs

/-- `poll_us`. -/
def State.pollUs (s : State) : Nat := s.atr.mpot.toNat * s.param.mpotUnitUs

/-- `guard_us`. -/
def State.guardUs (s : State) : Nat := s.atr.segt.toNat * s.param.segtUnitUs

/-- `wait / poll + 1`, or `none` where the division by zero faults (10_state.md R48; D13). -/
def budgetOf (wait poll : Nat) : Option Nat := if poll = 0 then none else some (wait / poll + 1)

/-- `base_budget` (10_state.md R48). -/
def State.baseBudget (s : State) : Option Nat := budgetOf s.bwtUs s.pollUs

/-- The budget a WTX request with multiplier `m` sets (42_receive.md R260). -/
def State.wtxBudget (s : State) (m : Byte) : Option Nat := budgetOf (s.bwtUs * m.toNat) s.pollUs

/-! ### The ATR payload -/

/-- `take(k)` of 41_link_control.md R225: the next `k` bytes and the rest, `none` where the payload ends first. -/
def takeBytes (k : Nat) (s : List Byte) : Option (List Byte × List Byte) :=
  if s.length < k then none else some (s.take k, s.drop k)

/-- The DLLP field: BWT and IFSC, the rest skipped (41_link_control.md R225, R226). -/
def parseDllp : List Byte → Option (Half × Half)
  | b0 :: b1 :: i0 :: i1 :: _ => some (be16 b0 b1, be16 i0 i1)
  | _ => none

/-- What the PLP field gives (30_encoding.md R130). -/
structure Plp where
  mcf    : Half
  config : Byte
  mpot   : Byte
  segt   : Half
  wut    : Half
deriving DecidableEq, Repr

/-- The PLP field: bytes 4 to 6 and those past 10 are skipped (41_link_control.md R225; 30_encoding.md R131). -/
def parsePlp : List Byte → Option Plp
  | m0 :: m1 :: c :: p :: _ :: _ :: _ :: s0 :: s1 :: w0 :: w1 :: _ =>
    some ⟨be16 m0 m1, c, p, be16 s0 s1, be16 w0 w1⟩
  | _ => none

/-- A one-byte length and that many bytes, with the rest. -/
def takeCounted (s : List Byte) : Option (List Byte × List Byte) :=
  match s with
  | k :: rest => takeBytes k.toNat rest
  | [] => none

/-- `ParseAtr` (41_link_control.md R225); `none` is Malformed (R226). Bytes past the historical bytes are
ignored. -/
def parseAtr (s : List Byte) : Option AtrInfo :=
  match s with
  | pver :: v0 :: v1 :: v2 :: v3 :: v4 :: s1 =>
    match takeCounted s1 with
    | none => none
    | some (dllp, s2) =>
    match parseDllp dllp with
    | none => none
    | some (bwt, ifsc) =>
    match s2 with
    | [] => none
    | plid :: s3 =>
    match takeCounted s3 with
    | none => none
    | some (plp, s4) =>
    match parsePlp plp with
    | none => none
    | some q =>
    match takeCounted s4 with
    | none => none
    | some (hist, _) =>
      some { pver := pver, vid := #v[v0, v1, v2, v3, v4], bwt := bwt, ifsc := ifsc, plid := plid,
             mcf := q.mcf, config := q.config, mpot := q.mpot, segt := q.segt, wut := q.wut,
             hist := Hist.ofList hist }
  | _ => none

/-! ### Error codes -/

/-- The numeric code of an error (60_exceptions.md R341). -/
def Err.code : Err → Byte
  | .bus .addrNack => 0x01
  | .bus .dataNack => 0x02
  | .bus (.other _) => 0x03
  | .badCrc => 0x04
  | .badPcb => 0x05
  | .badAddress => 0x06
  | .receptionBuffer => 0x07
  | .timeout => 0x08

/-- The error a reception raises for a frame that does not decode (42_receive.md R255, R258). -/
def errOfDecode : DecodeError → Err
  | .badAddress => .badAddress
  | .badCrc => .badCrc
  | .badPcb => .badPcb
  | .badLength => .receptionBuffer
  | .unknownCommand _ => .badPcb
  | .operandShape _ => .badPcb

/-! ### Pseudo-operations (30_encoding.md R144) -/

/-- The SWRITE commands of SEND: each offers the unconsumed rest, and a sender that starts empty consumes
254 bytes of it (43_frame_sender.md R313, R317). The first argument bounds the number of slices. -/
def sendSlices : Nat → List Byte → List Command
  | 0, _ => []
  | k + 1, x => match x with
    | [] => []
    | _ => ⟨0x21, [.bytes x]⟩ :: sendSlices k (x.drop Config.maxData)

/-- `SEND L [bytes]` with L the length of the bytes. -/
def send (x : List Byte) : List Command :=
  ⟨0x20, [.length x.length]⟩ :: (sendSlices x.length x ++ [⟨0x22, []⟩])

/-- `TRANSACT L [bytes] buf(C)`. -/
def transact (x : List Byte) (buf : Buffer) : List Command := send x ++ [⟨0x12, [.buffer buf]⟩]

/-- `OPEN_LINK buf(C)`. -/
def openLink (buf : Buffer) : List Command := [⟨0x10, []⟩, ⟨0x11, [.buffer buf]⟩]

end Sys2Proof.Machine
end

