-- ==== Sys2Proof/Machine/Ops.lean ====
section
/-! DEFINITION. The named operations over memory, bus and registers: byte memories, bus transactions, the end of an
operation (result, raised error, sticky fault), and the acknowledged frame write. -/

namespace Sys2Proof.Machine

/-! ### Byte memories -/

/-- The byte at `a`; `none` where nothing is listed, a byte the spec leaves unspecified
(20_memory.md R86; log 5). -/
def Memory.read : Memory → Nat → Option Byte
  | [], _ => none
  | (x, y) :: m, a => if x = a then some y else Memory.read m a

/-- One byte written; the addresses stay strictly rising. -/
def Memory.write : Memory → Nat → Byte → Memory
  | [], a, b => [(a, b)]
  | (x, y) :: m, a, b =>
    if a < x then (a, b) :: (x, y) :: m
    else if a = x then (a, b) :: m
    else (x, y) :: Memory.write m a b

/-- `MemWrite` (00_scope.md R12): bytes written from `a` on. -/
def Memory.writeBytes : Memory → Nat → List Byte → Memory
  | m, _, [] => m
  | m, a, b :: bs => Memory.writeBytes (Memory.write m a b) (a + 1) bs

/-- `MemRead` (00_scope.md R12): `n` bytes from `a` on. A byte with no value reads as the free value `free` gives
its address (log 5). -/
def Memory.readBytes (m : Memory) (free : Nat → Byte) : Nat → Nat → List Byte
  | _, 0 => []
  | a, n + 1 => (Memory.read m a).getD (free a) :: Memory.readBytes m free (a + 1) n

/-- The bytes of `[lo, hi)` become unspecified (20_memory.md R86). -/
def Memory.forget (m : Memory) (lo hi : Nat) : Memory := m.filter fun c => c.1 < lo || hi ≤ c.1

/-- The canonical form: addresses strictly rising. A listed byte has a value and an unlisted one has none, so no
entry equals what an unlisted address reads as. -/
def Memory.wf : Memory → Bool
  | [] => true
  | [_] => true
  | c :: d :: m => c.1 < d.1 && Memory.wf (d :: m)

/-! ### The trace, the waits and the bus -/

/-- `Emit` (00_scope.md R12; 10_state.md R55). -/
def State.emit (s : State) (e : Event) : State := { s with trace := s.trace ++ [e] }

/-- `Delay(us)`: one event and no other change (20_memory.md R83; log 21). -/
def State.delay (s : State) (us : Nat) : State := s.emit (.delay us)

/-- The guard wait before a read (41_link_control.md R214). -/
def State.guardWait (s : State) : State := s.delay s.guardUs

/-- The poll wait after an address NACK (41_link_control.md R214). -/
def State.pollWait (s : State) : State := s.delay s.pollUs

/-- The oracle's next answer: the first at hand, or a free one (10_state.md R41; log 7). -/
def State.answer (s : State) : BusAnswer :=
  match s.chip with
  | a :: _ => a
  | [] => Config.freeAnswer s.fresh

/-- The state once its next answer is used. -/
def State.answered (s : State) : State := { s with chip := s.chip.tail, fresh := s.fresh + 1 }

/-- A read answer as exactly `n` bytes: longer ones are cut, shorter ones filled with free bytes
(20_memory.md R82; log 8). -/
def fitRead (free : Nat → Byte) : Nat → List Byte → List Byte
  | 0, _ => []
  | n + 1, b :: bs => b :: fitRead free n bs
  | n + 1, [] => free n :: fitRead free n []

/-- What an answer is to a write. -/
def writeResultOf : BusAnswer → WriteResult
  | .ok _ => .ok
  | .fail e => .fail e

/-- What an answer is to a read of `n` bytes. -/
def readResultOf (free : Nat → Byte) (n : Nat) : BusAnswer → ReadResult
  | .ok bytes => .ok (fitRead free n bytes)
  | .fail e => .fail e

/-- `BusWrite(I2C_ADDR, bytes)` (20_memory.md R81). -/
def busWrite (bytes : List Byte) (s : State) : WriteResult × State :=
  let r := writeResultOf s.answer
  (r, s.answered.emit (.busWrite s.param.i2cAddr bytes r))

/-- `BusRead(I2C_ADDR, n)` (20_memory.md R82). -/
def busRead (n : Nat) (s : State) : ReadResult × State :=
  let r := readResultOf (Config.freeByte s.fresh) n s.answer
  (r, s.answered.emit (.busRead s.param.i2cAddr n r))

/-! ### The end of an operation -/

/-- How a part of an operation ends: with a value, with a raised error, with the internal fault, or not yet,
waiting for a frame (log 9). -/
inductive Ran (α : Type) where
  | ok (a : α) (s : State)
  | raised (e : Err) (s : State)
  | stuck (t : Fault) (s : State)
  | waiting (s : State)
deriving DecidableEq, Repr

/-- The operation ends with a result: `phase <- Idle`, its locals are discarded (10_state.md R52, R53). -/
def State.complete (s : State) (r : Result) : State :=
  { s with phase := .idle, engine := .quiet, scratch := [], result := some r }

/-- `raise E`: the operation ends with `Err(E)` and keeps every change made (60_exceptions.md R340). There is no
other entry and no return (R349, R351). -/
def State.raise (s : State) (e : Err) : State := s.complete (.err e)

/-- `fault Internal(tag)`: the register is set, the operation does not complete, `phase` stays
(60_exceptions.md R347). -/
def State.stick (s : State) (t : Fault) : State := { s with fault := some t }

/-- The state in which an operation leaves the block. -/
def finish : Ran Value → State
  | .ok v s => s.complete (.ok v)
  | .raised e s => s.raise e
  | .stuck t s => s.stick t
  | .waiting s => s

/-- The accepted operation sets `phase <- Busy(op)` (10_state.md R53). It has no result yet (log 12). -/
def State.accept (s : State) (op : Op) : State := { s with phase := .busy op, result := none }

/-- A command: refused after a fault or while an operation runs, else accepted and run
(10_state.md R53; 60_exceptions.md R348). -/
def command (op : Op) (body : State → Ran Value) (s : State) : Host.Outcome State Fault Refusal :=
  match s.fault with
  | some t => .refused (.stickyFault t)
  | none => match s.phase with
    | .busy running => .refused (.operationRunning running)
    | .idle => .next (finish (body (s.accept op)))

/-! ### Sequence counters -/

/-- `SeqReset()` (41_link_control.md R200). -/
def State.seqReset (s : State) : State := { s with txSeq := false, rxSeq := false }

/-! ### The acknowledged frame write -/

/-- `BuildFrame(p, d)`; `none` is the fault of more than 254 data bytes (40_frame_codec.md R174). -/
def buildFrame (P : Params) (p : Pcb) (d : List Byte) : Option (List Byte) :=
  if Config.maxData < d.length then none else some (frameBytes P.nadH2C p d)

/-- The loop of WriteFrame with `k` attempts left after this one (43_frame_sender.md R300; log 22). -/
def writeAttempts : Nat → List Byte → State → Ran Unit
  | 0, f, s => match busWrite f s with
    | (.ok, s1) => .ok () s1
    | (.fail .addrNack, s1) => .raised .timeout s1
    | (.fail e, s1) => .raised (.bus e) s1
  | k + 1, f, s => match busWrite f s with
    | (.ok, s1) => .ok () s1
    | (.fail .addrNack, s1) => writeAttempts k f s1.pollWait
    | (.fail e, s1) => .raised (.bus e) s1

/-- `WriteFrame(p, d)` (43_frame_sender.md R300): at most `WRITE_RETRIES` attempts. -/
def writeFrame (p : Pcb) (d : List Byte) (s : State) : Ran Unit :=
  match buildFrame s.param p d with
  | none => .stuck .programmingError s
  | some f => writeAttempts (s.param.writeRetries - 1) f s

/-! ### A frame fetched from the bus -/

/-- What one wait for a frame gives: an address NACK, so the operation waits on; a raised error; or a frame that
passes its checks. -/
inductive Fetched where
  | notReady (s : State)
  | raised (e : Err) (s : State)
  | frame (p : Pcb) (d : List Byte) (s : State)
deriving DecidableEq, Repr

end Sys2Proof.Machine
end

