-- ==== Sys2Proof/Machine/Codec.lean ====
section
/-! DEFINITION. The codec commands (40_frame_codec.md): pure, with no bus action (R175). -/

namespace Sys2Proof.Machine

/-- ENCODE_PCB, command 0x01 (40_frame_codec.md R160). -/
def execEncodePcb (p : Pcb) (s : State) : Host.Outcome State Fault Refusal :=
  command .encodePcb (fun s1 => .ok (.byte (encodePcbByte p)) s1) s

/-- DECODE_PCB of a byte (40_frame_codec.md R163, R164). -/
def decodePcbOp (b : Byte) (s : State) : Ran Value :=
  match decodePcbByte s.param b with
  | some p => .ok (.pcb p) s
  | none => .raised .badPcb s

/-- DECODE_PCB, command 0x02. -/
def execDecodePcb (b : Byte) (s : State) : Host.Outcome State Fault Refusal :=
  command .decodePcb (decodePcbOp b) s

/-- `checksum(h, d)`: the value and its wire form (40_frame_codec.md R170, R172; 30_encoding.md R140). -/
def checksumValue (h d : List Byte) : Value := .crc (crc16X25 (h ++ d)) (le16 (crc16X25 (h ++ d)))

/-- CHECKSUM, command 0x03. -/
def execChecksum (h d : List Byte) (s : State) : Host.Outcome State Fault Refusal :=
  command .checksum (fun s1 => .ok (checksumValue h d) s1) s

end Sys2Proof.Machine
end

