-- ==== Sys2Proof/Machine/Receive.lean ====
section
/-! DEFINITION. The reception engine, the chaining reassembler and the WTX handler (42_receive.md), as RECEIVE,
RESYNC and RESET_NEGOTIATE use it. -/

namespace Sys2Proof.Machine

/-- The frame fits: not (`len > MAX_DATA or written + len > C`) (42_receive.md R255). -/
def Rx.fits (rx : Rx) (len : Nat) : Bool := len ≤ Config.maxData && rx.written + len ≤ rx.buf.capacity

/-- The data of every frame goes to offset `written` of the reception's buffer (42_receive.md R257). RESYNC's
buffer is its own (41_link_control.md R220). -/
def placeData (rx : Rx) (d : List Byte) (s : State) : State :=
  match rx.client with
  | .resync => { s with scratch := Memory.writeBytes s.scratch rx.written d }
  | .receive => { s with mem := Memory.writeBytes s.mem (rx.buf.base + rx.written) d }
  | .resetNegotiate => { s with mem := Memory.writeBytes s.mem (rx.buf.base + rx.written) d }

/-- After an error, the buffer's bytes from the error frame's offset on are unspecified
(20_memory.md R86; log 6). -/
def forgetRest (rx : Rx) (s : State) : State :=
  match rx.client with
  | .resync => s
  | .receive => { s with mem := Memory.forget s.mem (rx.buf.base + rx.written) (rx.buf.base + rx.buf.capacity) }
  | .resetNegotiate =>
    { s with mem := Memory.forget s.mem (rx.buf.base + rx.written) (rx.buf.base + rx.buf.capacity) }

/-- An error raised by a reception. -/
def failReception (e : Err) (rx : Rx) (s : State) : Ran Value := .raised e (forgetRest rx s)

/-- What the caller of `Receive` does with its outcome: RECEIVE returns it (42_receive.md R250), RESYNC accepts
only an empty resync response (41_link_control.md R220), RESET_NEGOTIATE only an interface-soft-reset response, of
which it parses the data and writes `atr` (R227 to R231). `rx.written` is the accumulated length. -/
def conclude (rx : Rx) (out : Value) (s : State) : Ran Value :=
  match rx.client with
  | .receive => .ok out s
  | .resync => match out with
    | .sBlock .resyncResponse _ 0 => .ok .unit s.seqReset
    | _ => failReception .badPcb rx s
  | .resetNegotiate => match out with
    | .sBlock .interfaceSoftResetResponse w n =>
      let payload := Memory.readBytes s.mem (Config.unspecifiedByte s.fresh) (rx.buf.base + w) n
      let a := (parseAtr payload).getD s.param.atrDefault
      .ok (.atr a) (State.seqReset { s with atr := a })
    | _ => failReception .badPcb rx s

/-- The WTX request (42_receive.md R259 to R261). -/
def receiveWtx (rx : Rx) (d : List Byte) (s : State) : Ran Value :=
  match d with
  | [m] => match writeFrame (.s .wtxResponse) [m] s with
    | .ok _ s1 => match s1.wtxBudget m with
      | some b => .waiting { s1 with engine := .receiving { rx with budget := b, i := 0 } }
      | none => .stuck .divZero s1
    | .raised e s1 => failReception e rx s1
    | .stuck t s1 => .stuck t s1
    | .waiting s1 => .waiting s1
  | _ => failReception .badPcb rx s

/-- `rx_seq` complemented, a mismatch logged (42_receive.md R263). -/
def acceptSeq (seq : Bool) (s : State) : State :=
  { s with trace := s.trace ++ mismatchEvents s.rxSeq seq, rxSeq := !s.rxSeq }

/-- The locals after a chained I-block: the loop counter is kept unless `CHAIN_RESETS_BUDGET`
(42_receive.md R264; D17). -/
def Rx.chained (rx : Rx) (P : Params) : Rx := if P.chainResetsBudget then { rx with i := 0 } else rx

/-- The I-block (42_receive.md R263 to R265). -/
def receiveI (rx : Rx) (seq more : Bool) (d : List Byte) (s : State) : Ran Value :=
  let rx1 := { rx with written := rx.written + d.length }
  let s1 := acceptSeq seq s
  if more = false then conclude rx1 (.data rx1.written) s1
  else match writeFrame (.r s1.rxSeq .none) [] s1 with
    | .ok _ s2 => .waiting { s2 with engine := .receiving (rx1.chained s2.param) }
    | .raised e s2 => failReception e rx1 s2
    | .stuck t s2 => .stuck t s2
    | .waiting s2 => .waiting s2

/-- One frame handed to a reception: the length check, the data placed, then the case of its PCB value
(42_receive.md R250, R255, R257; log 16). -/
def receiveFrame (rx : Rx) (p : Pcb) (d : List Byte) (s : State) : Ran Value :=
  if rx.fits d.length = false then failReception .receptionBuffer rx s
  else match p with
    | .s .wtxRequest => receiveWtx rx d (placeData rx d s)
    | .s code => conclude rx (.sBlock code rx.written d.length) (placeData rx d s)
    | .r _ _ => failReception .badPcb rx (placeData rx d s)
    | .i seq more => receiveI rx seq more d (placeData rx d s)

/-- The locals of an iteration that has taken its unit of the budget (42_receive.md R251). -/
def Rx.counted (rx : Rx) : Rx := { rx with i := rx.i + 1 }

/-- The reads of one iteration, from the budget check to the checked frame (42_receive.md R250 to R258; the order
of checks is 60_exceptions.md R345). -/
def fetchFrame (rx : Rx) (s : State) : Fetched :=
  if rx.budget ≤ rx.i then .raised .timeout s
  else match busRead Config.hdrLen (State.guardWait { s with engine := .receiving rx.counted }) with
    | (.fail .addrNack, s1) => .notReady s1.pollWait
    | (.fail e, s1) => .raised (.bus e) s1
    | (.ok h, s1) =>
      let len := (h.getD 2 0).toNat
      if rx.fits len = false then .raised .receptionBuffer s1
      else match busRead (len + Config.crcLen) s1.guardWait with
        | (.fail e, s2) => .raised (.bus e) s2
        | (.ok t, s2) => match decodeFrame s.param (h ++ t) with
          | .error e => .raised (errOfDecode e) s2
          | .ok f => .frame f.1 f.2 s2

/-- One iteration of the loop of `Receive` (42_receive.md R250). -/
def receiveOnce (rx : Rx) (s : State) : Ran Value :=
  match fetchFrame rx s with
  | .notReady s1 => .waiting s1
  | .raised e s1 => failReception e rx s1
  | .frame p d s1 => receiveFrame rx.counted p d s1

/-- The loop of `Receive`, run on while answers are at hand; where none is, the operation waits (log 9). An
iteration with budget left uses at least one answer, so the number of answers bounds the loop. -/
def driveReception : Nat → State → Ran Value
  | 0, s => match s.engine with
    | .receiving rx => if rx.budget ≤ rx.i then receiveOnce rx s else .waiting s
    | _ => .waiting s
  | k + 1, s => match s.engine with
    | .receiving rx =>
      if rx.budget ≤ rx.i then receiveOnce rx s
      else if s.chip = [] then .waiting s
      else match receiveOnce rx s with
        | .waiting s1 => driveReception k s1
        | r => r
    | _ => .waiting s

/-- `Receive(buf, C)` from its start: `written <- 0`, `budget <- base_budget`, `i <- 0` (42_receive.md R250). -/
def beginReception (client : Client) (buf : Buffer) (s : State) : Ran Value :=
  match s.baseBudget with
  | none => .stuck .divZero s
  | some b => driveReception s.chip.length
      { s with engine := .receiving { client := client, buf := buf, written := 0, i := 0, budget := b } }

end Sys2Proof.Machine
end

