-- ==== Sys2Proof/Machine/Sender.lean ====
section
/-! DEFINITION. The frame sender (43_frame_sender.md): Flush, ReadAck, and SOPEN, SWRITE, SFLUSH. -/

namespace Sys2Proof.Machine

/-- `snd` with a change made to the sender, if one is open. -/
def State.mapSnd (s : State) (f : Sender → Sender) : State := { s with snd := s.snd.map f }

/-- An error of a flush: "snd.state <- Failed; propagate the error" (43_frame_sender.md R306, R320). -/
def failFlush (e : Err) (s : State) : Ran Value :=
  .raised e (s.mapSnd fun x => { x with status := .failed })

/-- `snd.chunk_len <- 0` (43_frame_sender.md R306). -/
def emptyChunk (s : State) : State := s.mapSnd fun x => { x with chunkLen := 0 }

/-- `snd.chunk_len <- 0` and `snd.state <- Done` after the final chunk (43_frame_sender.md R306). -/
def doneChunk (s : State) : State := s.mapSnd fun x => { x with chunkLen := 0, status := .done }

/-- The checks of `ReadAck` on the 5 bytes read, in its order: address, PCB decode, PCB shape, length, CRC
(43_frame_sender.md R307; 60_exceptions.md R346). `expected` is `R(tx_seq, None)`. -/
def checkAck (P : Params) (expected : Pcb) (nad pcb len lo hi : Byte) : Option Err :=
  if nad ≠ P.nadC2H then some .badAddress
  else match decodePcbByte P pcb with
    | none => some .badPcb
    | some p =>
      if p ≠ expected then some .badPcb
      else if len ≠ 0 then some .badPcb
      else if crcOk nad pcb 0 [] lo hi = false then some .badCrc
      else none

/-- The read of `ReadAck`: guard wait, 5 bytes, no NACK retry, the checks (43_frame_sender.md R307). -/
def fetchAck (s : State) : Fetched :=
  match busRead Config.ackLen s.guardWait with
  | (.fail e, s1) => .raised (.bus e) s1
  | (.ok h, s1) =>
    match checkAck s.param (.r s.txSeq .none) (h.getD 0 0) (h.getD 1 0) (h.getD 2 0) (h.getD 3 0) (h.getD 4 0) with
    | some e => .raised e s1
    | none => .frame (.r s.txSeq .none) [] s1

/-- A frame handed to a flush that awaits its acknowledgment: only an empty `R(tx_seq, None)` is accepted, and the
flush then empties the chunk (43_frame_sender.md R306, R307, R309). -/
def receiveAck (v : Value) (p : Pcb) (d : List Byte) (s : State) : Ran Value :=
  if p = .r s.txSeq .none ∧ d = [] then .ok v (emptyChunk s) else failFlush .badPcb s

/-- `ReadAck()` and the end of the flush it belongs to (43_frame_sender.md R306, R307). -/
def readAck (v : Value) (s : State) : Ran Value :=
  match fetchAck s with
  | .notReady s1 => .waiting s1
  | .raised e s1 => failFlush e s1
  | .frame p d s1 => receiveAck v p d s1

/-- The flush reaches `ReadAck`: it reads at once if an answer is at hand, else the operation waits (log 9). -/
def awaitAck (v : Value) (s : State) : Ran Value :=
  if s.chip = [] then .waiting { s with engine := .awaitingAck v }
  else readAck v { s with engine := .awaitingAck v }

/-- The bytes of the current chunk, `snd.chunk[0 .. chunk_len)` (43_frame_sender.md R306). -/
def chunkBytes (x : Sender) (s : State) : List Byte :=
  Memory.readBytes x.chunk (Config.unspecifiedByte s.fresh) 0 x.chunkLen

/-- `Flush()` of sender `x`, ending the operation with `v` (43_frame_sender.md R306). `tx_seq` is complemented
before the write. -/
def flush (x : Sender) (v : Value) (s : State) : Ran Value :=
  match writeFrame (.i s.txSeq x.more) (chunkBytes x s) { s with txSeq := !s.txSeq } with
  | .ok _ s1 => if x.more then awaitAck v s1 else .ok v (doneChunk s1)
  | .raised e s1 => failFlush e s1
  | .stuck t s1 => .stuck t s1
  | .waiting s1 => .waiting s1

/-- The sender with the first `n` bytes of `x` taken in (43_frame_sender.md R313). -/
def Sender.take (y : Sender) (x : List Byte) (n : Nat) : Sender :=
  { y with chunk := Memory.writeBytes y.chunk y.chunkLen (x.take n), chunkLen := y.chunkLen + n,
           written := y.written + n }

/-- The bytes an SWRITE of `x` consumes: `min(|x|, 254 - chunk_len)` (43_frame_sender.md R313). -/
def Sender.room (y : Sender) (x : List Byte) : Nat := min x.length (Config.maxData - y.chunkLen)

/-- The chunk is flushed once it is full or the message is complete (43_frame_sender.md R313, R316). -/
def Sender.due (y : Sender) (n : Nat) : Bool :=
  0 < n && (y.chunkLen == Config.maxData || y.written == y.total)

/-- SOPEN (43_frame_sender.md R310). -/
def sopenOp (total : Nat) (s : State) : Ran Value :=
  .ok .unit { s with snd := some { total := total, written := 0, chunk := [], chunkLen := 0, status := .active } }

/-- SWRITE (43_frame_sender.md R313). -/
def swriteOp (x : List Byte) (s : State) : Ran Value :=
  match s.snd with
  | none => .stuck .senderNotOpen s
  | some y =>
    if y.status = .failed then .stuck .programmingError s
    else if y.total < y.written + y.room x then .stuck .programmingError s
    else
      let z := y.take x (y.room x)
      let s1 := { s with snd := some z }
      if z.due (y.room x) then flush z (.consumed (y.room x)) s1 else .ok (.consumed (y.room x)) s1

/-- SFLUSH (43_frame_sender.md R318). -/
def sflushOp (s : State) : Ran Value :=
  match s.snd with
  | none => .stuck .senderNotOpen s
  | some y => match y.status with
    | .failed => .stuck .programmingError s
    | .done => .ok .unit s
    | .active => if y.written < y.total then .stuck .programmingError s else flush y .unit s

/-- SOPEN, command 0x20. -/
def execSopen (total : Nat) (s : State) : Host.Outcome State Fault Refusal :=
  command .sopen (sopenOp total) s

/-- SWRITE, command 0x21. -/
def execSwrite (x : List Byte) (s : State) : Host.Outcome State Fault Refusal :=
  command .swrite (swriteOp x) s

/-- SFLUSH, command 0x22. -/
def execSflush (s : State) : Host.Outcome State Fault Refusal := command .sflush sflushOp s

end Sys2Proof.Machine
end

