-- ==== Sys2Proof/Machine/Frames.lean ====
section
/-! DEFINITION. The meanings of the wire frames (00_scope.md R3): what a checked frame does in the operation that
awaits it, a reception (42_receive.md R259 to R266) or the acknowledgment wait of a flush
(43_frame_sender.md R307, R309). -/

namespace Sys2Proof.Machine

/-- A frame with PCB value `p` and data `d` reaches the block. It is refused after a fault (60_exceptions.md R348)
and where no operation awaits a frame (log 15). -/
def frameArrives (p : Pcb) (d : List Byte) (s : State) : Host.Outcome State Fault Refusal :=
  match s.fault with
  | some t => .refused (.stickyFault t)
  | none => match s.engine with
    | .quiet => .refused .noFrameAwaited
    | .receiving rx => .next (finish (receiveFrame rx p d s))
    | .awaitingAck v => .next (finish (receiveAck v p d s))

/-- I: appended, acknowledged when chained (42_receive.md R263 to R265). -/
def execIBlock (seq more : Bool) (d : List Byte) (s : State) : Host.Outcome State Fault Refusal :=
  frameArrives (.i seq more) d s

/-- R_NONE: the acknowledgment of a chunk (43_frame_sender.md R309); BadPcb in a reception (42_receive.md R266). -/
def execRNone (seq : Bool) (d : List Byte) (s : State) : Host.Outcome State Fault Refusal :=
  frameArrives (.r seq .none) d s

/-- R_CHECKSUM: BadPcb wherever it arrives (42_receive.md R266; 43_frame_sender.md R309). -/
def execRChecksum (seq : Bool) (d : List Byte) (s : State) : Host.Outcome State Fault Refusal :=
  frameArrives (.r seq .checksum) d s

/-- R_OTHER: BadPcb wherever it arrives (42_receive.md R266; 43_frame_sender.md R309). -/
def execROther (seq : Bool) (d : List Byte) (s : State) : Host.Outcome State Fault Refusal :=
  frameArrives (.r seq .other) d s

/-- S_ResyncRequest (0xC0): an other S-block, which ends a reception (42_receive.md R262). -/
def execSResyncRequest (d : List Byte) (s : State) : Host.Outcome State Fault Refusal :=
  frameArrives (.s .resyncRequest) d s

/-- S_IfsRequest (0xC1): an other S-block, which ends a reception (42_receive.md R262). -/
def execSIfsRequest (d : List Byte) (s : State) : Host.Outcome State Fault Refusal :=
  frameArrives (.s .ifsRequest) d s

/-- S_AbortRequest (0xC2): an other S-block, which ends a reception (42_receive.md R262). -/
def execSAbortRequest (d : List Byte) (s : State) : Host.Outcome State Fault Refusal :=
  frameArrives (.s .abortRequest) d s

/-- S_WtxRequest (0xC3): echoed, the budget rescaled, the reception goes on (42_receive.md R259 to R261). -/
def execSWtxRequest (d : List Byte) (s : State) : Host.Outcome State Fault Refusal :=
  frameArrives (.s .wtxRequest) d s

/-- S_EndSessionRequest (0xC5): an other S-block, which ends a reception (42_receive.md R262). -/
def execSEndSessionRequest (d : List Byte) (s : State) : Host.Outcome State Fault Refusal :=
  frameArrives (.s .endSessionRequest) d s

/-- S_ChipResetRequest (0xC6): an other S-block, which ends a reception (42_receive.md R262). -/
def execSChipResetRequest (d : List Byte) (s : State) : Host.Outcome State Fault Refusal :=
  frameArrives (.s .chipResetRequest) d s

/-- S_GetAtrRequest (0xC7): an other S-block, which ends a reception (42_receive.md R262). -/
def execSGetAtrRequest (d : List Byte) (s : State) : Host.Outcome State Fault Refusal :=
  frameArrives (.s .getAtrRequest) d s

/-- S_InterfaceSoftResetRequest (0xCF): an other S-block, which ends a reception (42_receive.md R262). -/
def execSInterfaceSoftResetRequest (d : List Byte) (s : State) : Host.Outcome State Fault Refusal :=
  frameArrives (.s .interfaceSoftResetRequest) d s

/-- S_ResyncResponse (0xE0): ends a reception (42_receive.md R262), and RESYNC well if empty (41_link_control.md R220). -/
def execSResyncResponse (d : List Byte) (s : State) : Host.Outcome State Fault Refusal :=
  frameArrives (.s .resyncResponse) d s

/-- S_IfsResponse (0xE1): an other S-block, which ends a reception (42_receive.md R262). -/
def execSIfsResponse (d : List Byte) (s : State) : Host.Outcome State Fault Refusal :=
  frameArrives (.s .ifsResponse) d s

/-- S_AbortResponse (0xE2): an other S-block, which ends a reception (42_receive.md R262). -/
def execSAbortResponse (d : List Byte) (s : State) : Host.Outcome State Fault Refusal :=
  frameArrives (.s .abortResponse) d s

/-- S_WtxResponse (0xE3): an other S-block where it is received, which ends a reception (42_receive.md R262). -/
def execSWtxResponse (d : List Byte) (s : State) : Host.Outcome State Fault Refusal :=
  frameArrives (.s .wtxResponse) d s

/-- S_EndSessionResponse (0xE5): an other S-block, which ends a reception (42_receive.md R262). -/
def execSEndSessionResponse (d : List Byte) (s : State) : Host.Outcome State Fault Refusal :=
  frameArrives (.s .endSessionResponse) d s

/-- S_ChipResetResponse (0xE6): an other S-block, which ends a reception (42_receive.md R262). -/
def execSChipResetResponse (d : List Byte) (s : State) : Host.Outcome State Fault Refusal :=
  frameArrives (.s .chipResetResponse) d s

/-- S_GetAtrResponse (0xE7): an other S-block, which ends a reception (42_receive.md R262). -/
def execSGetAtrResponse (d : List Byte) (s : State) : Host.Outcome State Fault Refusal :=
  frameArrives (.s .getAtrResponse) d s

/-- S_InterfaceSoftResetResponse (0xEF): ends a reception (42_receive.md R262); its data is the ATR of
RESET_NEGOTIATE (41_link_control.md R227, R228). -/
def execSInterfaceSoftResetResponse (d : List Byte) (s : State) : Host.Outcome State Fault Refusal :=
  frameArrives (.s .interfaceSoftResetResponse) d s

end Sys2Proof.Machine
end

