-- ==== Sys2Proof/Machine/Link.lean ====
section
/-! DEFINITION. The link commands (41_link_control.md; 42_receive.md R250): waits, RESYNC, RESET_NEGOTIATE and
RECEIVE. -/

namespace Sys2Proof.Machine

/-- WAIT_GUARD, command 0x13 (41_link_control.md R212). -/
def execWaitGuard (s : State) : Host.Outcome State Fault Refusal :=
  command .waitGuard (fun s1 => .ok .unit s1.guardWait) s

/-- WAIT_POLL, command 0x14 (41_link_control.md R213). -/
def execWaitPoll (s : State) : Host.Outcome State Fault Refusal :=
  command .waitPoll (fun s1 => .ok .unit s1.pollWait) s

/-- A request frame with no data, then the reception of its answer (41_link_control.md R220, R227). -/
def exchange (request : SCode) (client : Client) (buf : Buffer) (s : State) : Ran Value :=
  match writeFrame (.s request) [] s with
  | .ok _ s1 => beginReception client buf s1
  | .raised e s1 => .raised e s1
  | .stuck t s1 => .stuck t s1
  | .waiting s1 => .waiting s1

/-- RESYNC (41_link_control.md R220), received into a scratch buffer of capacity `SCRATCH_CAP`. -/
def resyncOp (s : State) : Ran Value :=
  exchange .resyncRequest .resync { base := 0, capacity := s.param.scratchCap } { s with scratch := [] }

/-- RESET_NEGOTIATE (41_link_control.md R227). -/
def resetNegotiateOp (buf : Buffer) (s : State) : Ran Value :=
  exchange .interfaceSoftResetRequest .resetNegotiate buf s

/-- RESYNC, command 0x10. -/
def execResync (s : State) : Host.Outcome State Fault Refusal := command .resync resyncOp s

/-- RESET_NEGOTIATE, command 0x11. -/
def execResetNegotiate (buf : Buffer) (s : State) : Host.Outcome State Fault Refusal :=
  command .resetNegotiate (resetNegotiateOp buf) s

/-- RECEIVE, command 0x12 (42_receive.md R250). -/
def execReceive (buf : Buffer) (s : State) : Host.Outcome State Fault Refusal :=
  command .receive (beginReception .receive buf) s

end Sys2Proof.Machine
end

