-- ==== Sys2Proof/Machine/Dispatch.lean ====
section
/-! DEFINITION. One arm per constructor of `Instr`, each the direct call of its meaning. -/

namespace Sys2Proof.Machine

/-- The meaning of every instruction. -/
def exec (i : Instr) (s : State) : Host.Outcome State Fault Refusal :=
  match i with
  | .iBlock seq more data => Sys2Proof.Machine.execIBlock seq more data s
  | .rNone seq data => Sys2Proof.Machine.execRNone seq data s
  | .rChecksum seq data => Sys2Proof.Machine.execRChecksum seq data s
  | .rOther seq data => Sys2Proof.Machine.execROther seq data s
  | .sResyncRequest data => Sys2Proof.Machine.execSResyncRequest data s
  | .sIfsRequest data => Sys2Proof.Machine.execSIfsRequest data s
  | .sAbortRequest data => Sys2Proof.Machine.execSAbortRequest data s
  | .sWtxRequest data => Sys2Proof.Machine.execSWtxRequest data s
  | .sEndSessionRequest data => Sys2Proof.Machine.execSEndSessionRequest data s
  | .sChipResetRequest data => Sys2Proof.Machine.execSChipResetRequest data s
  | .sGetAtrRequest data => Sys2Proof.Machine.execSGetAtrRequest data s
  | .sInterfaceSoftResetRequest data => Sys2Proof.Machine.execSInterfaceSoftResetRequest data s
  | .sResyncResponse data => Sys2Proof.Machine.execSResyncResponse data s
  | .sIfsResponse data => Sys2Proof.Machine.execSIfsResponse data s
  | .sAbortResponse data => Sys2Proof.Machine.execSAbortResponse data s
  | .sWtxResponse data => Sys2Proof.Machine.execSWtxResponse data s
  | .sEndSessionResponse data => Sys2Proof.Machine.execSEndSessionResponse data s
  | .sChipResetResponse data => Sys2Proof.Machine.execSChipResetResponse data s
  | .sGetAtrResponse data => Sys2Proof.Machine.execSGetAtrResponse data s
  | .sInterfaceSoftResetResponse data => Sys2Proof.Machine.execSInterfaceSoftResetResponse data s
  | .encodePcb p => Sys2Proof.Machine.execEncodePcb p s
  | .decodePcb b => Sys2Proof.Machine.execDecodePcb b s
  | .checksum header data => Sys2Proof.Machine.execChecksum header data s
  | .resync => Sys2Proof.Machine.execResync s
  | .resetNegotiate buf => Sys2Proof.Machine.execResetNegotiate buf s
  | .receive buf => Sys2Proof.Machine.execReceive buf s
  | .waitGuard => Sys2Proof.Machine.execWaitGuard s
  | .waitPoll => Sys2Proof.Machine.execWaitPoll s
  | .sopen total => Sys2Proof.Machine.execSopen total s
  | .swrite x => Sys2Proof.Machine.execSwrite x s
  | .sflush => Sys2Proof.Machine.execSflush s

end Sys2Proof.Machine
end

