-- ==== Sys2Proof/Machine/Fetch.lean ====
section
/-! DEFINITION. What the next step runs: the next command of the port when the block is idle, the next frame from
the bus when an operation awaits one (10_state.md R53; log 1, log 9). -/

namespace Sys2Proof.Machine

/-- What a fetch gives. -/
inductive Fetch where
  /-- An instruction to run, in the state after the fetch. -/
  | run (i : Instr) (s : State)
  /-- No instruction: the next state is this one. -/
  | settled (s : State)
  /-- Nothing may run. -/
  | refused (r : Refusal)
deriving DecidableEq, Repr

/-- The refusal of a command that does not decode (30_encoding.md R141). Only the last two errors arise. -/
def refusalOf : DecodeError → Refusal
  | .unknownCommand code => .unknownCommand code
  | .operandShape code => .operandShape code
  | .badAddress => .noFrameAwaited
  | .badCrc => .noFrameAwaited
  | .badPcb => .noFrameAwaited
  | .badLength => .noFrameAwaited

/-- The next command; with none issued, the block waits in Idle (70_reset_and_hazards.md R382; log 14). DESIGN
CHOICE: the caller's memory is as the last operation left it, though the caller may write its buffers between two
operations (10_state.md R58; log 26). -/
def fetchCommand (s : State) : Fetch :=
  match s.port with
  | [] => .settled s
  | c :: rest => match decodeCommand c with
    | .ok i => .run i { s with port := rest }
    | .error e => .refused (refusalOf e)

/-- The next frame of a reception: one iteration of the loop of `Receive` up to its case (42_receive.md R250). -/
def fetchReceived (rx : Rx) (s : State) : Fetch :=
  match fetchFrame rx s with
  | .notReady s1 => .settled s1
  | .raised e s1 => .settled (finish (failReception e rx s1))
  | .frame p d s1 => .run (Instr.ofFrame p d) s1

/-- The acknowledgment a flush awaits (43_frame_sender.md R307). -/
def fetchAcknowledged (s : State) : Fetch :=
  match fetchAck s with
  | .notReady s1 => .settled s1
  | .raised e s1 => .settled (finish (failFlush e s1))
  | .frame p d s1 => .run (Instr.ofFrame p d) s1

/-- The fetch of one step. A faulted block refuses everything (10_state.md R54). -/
def fetch (s : State) : Fetch :=
  match s.fault with
  | some t => .refused (.stickyFault t)
  | none => match s.phase with
    | .idle => fetchCommand s
    | .busy op => match s.engine with
      | .quiet => .refused (.operationRunning op)
      | .receiving rx => fetchReceived rx s
      | .awaitingAck _ => fetchAcknowledged s

/-- `s` with the command `c` next on an idle, unfaulted block. -/
def withCommand (c : Command) (s : State) : State :=
  { s with phase := .idle, fault := none, engine := .quiet, port := c :: s.port }

/-- `s` with a RECEIVE running that has just begun, and a frame's header and body as the next bus answers. -/
def withFrame (bytes : List Byte) (s : State) : State :=
  { s with
    phase := .busy .receive
    fault := none
    engine := .receiving
      { client := .receive, buf := { base := 0, capacity := Config.maxData }, written := 0, i := 0, budget := 1 }
    chip := .ok (bytes.take Config.hdrLen) :: .ok (bytes.drop Config.hdrLen) :: s.chip }

/-- `s` with the instruction of a table word where the fetch takes it (log 1, log 2); `s` where the word is none. -/
def placeTableWord (s : State) (nbits w : Nat) : State :=
  match tableEncoded s.param nbits w with
  | some (.command c) => withCommand c s
  | some (.frame bytes) => withFrame bytes s
  | none => s

end Sys2Proof.Machine
end

