-- ==== Sys2Proof/Safety.lean ====
section
/-! DEFINITION. The terms of the statements: when a command is accepted, how an operation's end looks, what the
block's frames look like on the bus, the invariant of every step, and the end of a run (70_reset_and_hazards.md
R398). -/

namespace Sys2Proof

/-- The PCB gate masks the spec adopts (00_scope.md R8; 30_encoding.md R116, R117). -/
def Params.AdoptedMasks (P : Params) : Prop := P.iMask = 0x80 ∧ P.rMask = 0xEC

end Sys2Proof

namespace Sys2Proof.Machine

/-- A command is accepted: "only when `phase = Idle` and `fault = None`" (10_state.md R53). -/
def State.Ready (s : State) : Prop := s.phase = .idle ∧ s.fault = none

/-- A run that ends here has ended well (70_reset_and_hazards.md R398). -/
def State.EndedWell (s : State) : Prop := s.phase = .idle ∧ s.fault = none ∧ s.port = []

/-- The block with its operation ended by result `r`: idle, its locals discarded (10_state.md R52, R53). -/
def endState (s : State) (r : Result) : State :=
  { s with phase := .idle, engine := .quiet, scratch := [], result := some r }

/-- The block stopped by the sticky fault `t` inside operation `op` (60_exceptions.md R347). -/
def stuckState (s : State) (op : Op) (t : Fault) : State :=
  { s with phase := .busy op, result := none, fault := some t }

/-- `h` and `t` are the two reads of a frame of the chip: its 3-byte header and its body (30_encoding.md R112). -/
def ReadsFrame (P : Params) (p : Pcb) (d h t : List Byte) : Prop :=
  h.length = 3 ∧ h ++ t = frameBytes P.nadC2H p d

/-- The events of one frame read: two guarded reads (42_receive.md R253, R256). -/
def frameReadEvents (s : State) (h t : List Byte) : List Event :=
  [.delay s.guardUs, .busRead s.param.i2cAddr 3 (.ok h),
   .delay s.guardUs, .busRead s.param.i2cAddr t.length (.ok t)]

/-- The event of one frame write (43_frame_sender.md R300). -/
def writeEvent (s : State) (p : Pcb) (d : List Byte) (r : WriteResult) : Event :=
  .busWrite s.param.i2cAddr (frameBytes s.param.nadH2C p d) r

/-- The events of one header read that is not acknowledged (42_receive.md R254). -/
def headerNackEvents (s : State) : List Event :=
  [.delay s.guardUs, .busRead s.param.i2cAddr 3 (.fail .addrNack), .delay s.pollUs]

/-- The events of one frame write that is not acknowledged and tried again (43_frame_sender.md R300). -/
def writeNackEvents (s : State) (p : Pcb) (d : List Byte) : List Event :=
  [writeEvent s p d (.fail .addrNack), .delay s.pollUs]

/-- A bus answer list of `k` address NACKs. -/
def nacks (k : Nat) : List BusAnswer := List.replicate k (.fail .addrNack)

/-- All a frame write can meet (43_frame_sender.md R300, R301): the bus answers it uses, how it ends, with no error or
with the error raised, and the events it appends. Every attempt but the last is an address NACK. -/
inductive WriteRun (s : State) (p : Pcb) (d : List Byte) : List BusAnswer → Option Err → List Event → Prop where
  /-- The bus takes the frame after `k` address NACKs. -/
  | sent (k : Nat) (b : List Byte) (h : k < s.param.writeRetries) :
      WriteRun s p d (nacks k ++ [.ok b]) none
        ((List.replicate k (writeNackEvents s p d)).flatten ++ [writeEvent s p d .ok])
  /-- Another error follows `k` address NACKs. -/
  | refused (k : Nat) (e : BusError) (h : k < s.param.writeRetries) (he : e ≠ .addrNack) :
      WriteRun s p d (nacks k ++ [.fail e]) (some (.bus e))
        ((List.replicate k (writeNackEvents s p d)).flatten ++ [writeEvent s p d (.fail e)])
  /-- Every attempt meets an address NACK. -/
  | silent (h : 1 ≤ s.param.writeRetries) :
      WriteRun s p d (nacks s.param.writeRetries) (some .timeout)
        ((List.replicate (s.param.writeRetries - 1) (writeNackEvents s p d)).flatten ++
          [writeEvent s p d (.fail .addrNack)])

/-- What `ReadAck` refuses, with `expected` as the current `tx_seq`, and the error of each, in the order of its checks
(43_frame_sender.md R307; 60_exceptions.md R346). The cases exclude each other. -/
inductive AckRefused (P : Params) (expected : Bool) : BusAnswer → Err → Prop where
  /-- The read fails. -/
  | bus (e : BusError) : AckRefused P expected (.fail e) (.bus e)
  /-- The address is not the chip's. -/
  | address {nad : Byte} (pcb len lo hi : Byte) (h : nad ≠ P.nadC2H) :
      AckRefused P expected (.ok [nad, pcb, len, lo, hi]) .badAddress
  /-- The PCB is not that of the R-block awaited. -/
  | pcb {pcb : Byte} (len lo hi : Byte) (h : decodePcbByte P pcb ≠ some (.r expected .none)) :
      AckRefused P expected (.ok [P.nadC2H, pcb, len, lo, hi]) .badPcb
  /-- The length is not 0. -/
  | length {pcb len : Byte} (lo hi : Byte) (h : decodePcbByte P pcb = some (.r expected .none)) (hl : len ≠ 0) :
      AckRefused P expected (.ok [P.nadC2H, pcb, len, lo, hi]) .badPcb
  /-- The checksum is wrong. -/
  | crc {pcb lo hi : Byte} (h : decodePcbByte P pcb = some (.r expected .none))
      (hc : crc16X25 [P.nadC2H, pcb, 0] ≠ fromLe16 lo hi) :
      AckRefused P expected (.ok [P.nadC2H, pcb, 0, lo, hi]) .badCrc

/-- What a read of exactly the answer's length gives (20_memory.md R82). -/
def readResult : BusAnswer → ReadResult
  | .ok bytes => .ok bytes
  | .fail e => .fail e

/-- The events of the read of an acknowledgment (43_frame_sender.md R307). -/
def ackReadEvents (s : State) (a : BusAnswer) : List Event :=
  [.delay s.guardUs, .busRead s.param.i2cAddr 5 (readResult a)]

/-- The block in operation `op`, at the start of the reception of `client` into `buf` (42_receive.md R250). -/
def beganReception (op : Op) (client : Client) (buf : Buffer) (s : State) : State :=
  { s with phase := .busy op, result := none,
           engine := .receiving { client := client, buf := buf, written := 0, i := 0,
                                  budget := s.bwtUs / s.pollUs + 1 } }

/-- The current chunk of sender `y` is the bytes `held` (10_state.md R50). -/
def Sender.Holds (y : Sender) (held : List Byte) : Prop :=
  y.chunkLen = held.length ∧ ∀ k, (h : k < held.length) → Memory.read y.chunk k = some held[k]

/-- Memory `m'` is `m` with the bytes `d` stored from address `a` on, and every other byte as before. -/
def Stored (m m' : Memory) (a : Nat) (d : List Byte) : Prop :=
  (∀ k, (h : k < d.length) → Memory.read m' (a + k) = some d[k]) ∧
  ∀ x, x < a ∨ a + d.length ≤ x → Memory.read m' x = Memory.read m x

/-- Memory `m'` is `m` with the bytes of `[lo, hi)` unspecified, and every other byte as before
(20_memory.md R86). -/
def Forgotten (m m' : Memory) (lo hi : Nat) : Prop :=
  (∀ x, lo ≤ x → x < hi → Memory.read m' x = none) ∧
  ∀ x, x < lo ∨ hi ≤ x → Memory.read m' x = Memory.read m x

/-- The event of an accepted I-block whose sequence bit is not the expected one, else nothing
(42_receive.md R263). -/
def mismatchEvent (expected got : Bool) : List Event :=
  if got = expected then [] else [.seqMismatch expected got]

/-- The memory reception `rx` writes: RESYNC's own buffer or the caller's memory (41_link_control.md R220;
20_memory.md R85). -/
def Rx.memory (rx : Rx) (s : State) : Memory :=
  match rx.client with
  | .resync => s.scratch
  | .receive => s.mem
  | .resetNegotiate => s.mem

/-- Where the next frame's data goes in that memory: the offset `written` of the buffer (42_receive.md R257). -/
def Rx.address (rx : Rx) : Nat :=
  match rx.client with
  | .resync => rx.written
  | .receive => rx.buf.base + rx.written
  | .resetNegotiate => rx.buf.base + rx.written

/-- `s` with `m` as the memory reception `rx` writes. -/
def Rx.withMemory (rx : Rx) (m : Memory) (s : State) : State :=
  match rx.client with
  | .resync => { s with scratch := m }
  | .receive => { s with mem := m }
  | .resetNegotiate => { s with mem := m }

/-- The caller's memory after reception `rx` ends in error: the buffer's bytes from the error frame's offset on are
unspecified, every other byte is as before (20_memory.md R86). RESYNC has no caller buffer. -/
def Rx.Failed (rx : Rx) (m m' : Memory) : Prop :=
  match rx.client with
  | .resync => m' = m
  | .receive => Forgotten m m' (rx.buf.base + rx.written) (rx.buf.base + rx.buf.capacity)
  | .resetNegotiate => Forgotten m m' (rx.buf.base + rx.written) (rx.buf.base + rx.buf.capacity)

/-- Every byte of the caller's memory but those of the buffer that reception `rx` has not accumulated is as before
(20_memory.md R85, R86). -/
def Rx.Kept (rx : Rx) (m m' : Memory) : Prop :=
  ∀ a, rx.client = .resync ∨ a < rx.buf.base + rx.written ∨ rx.buf.base + rx.buf.capacity ≤ a →
    Memory.read m' a = Memory.read m a

/-- A chained I-block of the chip as the bus gives it: its header read, its body read, and the answers to the write of
its acknowledgment, which succeeds after `nacked` address NACKs. -/
structure ChipBlock where
  seq    : Bool
  data   : List Byte
  header : List Byte
  body   : List Byte
  nacked : Nat
  ack    : List Byte
deriving DecidableEq, Repr

/-- The block's reads are those of its frame, with M = 1, and the bus takes its acknowledgment within the retries. -/
def ChipBlock.Sent (P : Params) (x : ChipBlock) : Prop :=
  x.data.length ≤ Config.maxData ∧ ReadsFrame P (.i x.seq true) x.data x.header x.body ∧ x.nacked < P.writeRetries

/-- The bus answers of a chain of acknowledged blocks. -/
def chainAnswers (xs : List ChipBlock) : List BusAnswer :=
  xs.flatMap fun x => .ok x.header :: .ok x.body :: (nacks x.nacked ++ [.ok x.ack])

/-- The data of a chain. -/
def chainData (xs : List ChipBlock) : List Byte := xs.flatMap fun x => x.data

/-- The events of a chain, from expected sequence bit `r` on (42_receive.md R269): each block's two guarded reads, its
mismatch if any, and the attempts of its acknowledgment, which carries the new expected bit. -/
def chainEvents (s : State) : Bool → List ChipBlock → List Event
  | _, [] => []
  | r, x :: xs =>
    frameReadEvents s x.header x.body ++ mismatchEvent r x.seq ++
      (List.replicate x.nacked (writeNackEvents s (.r (!r) .none) [])).flatten ++
      [writeEvent s (.r (!r) .none) [] .ok] ++ chainEvents s (!r) xs

/-- An ATR payload laid out as 30_encoding.md R130: the record's fields, big-endian where they have two bytes, with
the DLLP's and the PLP's reserved bytes and whatever follows the historical bytes. -/
def atrBytes (a : AtrInfo) (dllpRest : List Byte) (r0 r1 r2 : Byte) (plpRest tail : List Byte) : List Byte :=
  let be (v : Half) : List Byte := [v.extractLsb' 8 8, v.extractLsb' 0 8]
  a.pver :: a.vid.toList ++ [BitVec.ofNat 8 (4 + dllpRest.length)] ++ be a.bwt ++ be a.ifsc ++ dllpRest ++
    [a.plid, BitVec.ofNat 8 (11 + plpRest.length)] ++ be a.mcf ++ [a.config, a.mpot, r0, r1, r2] ++
    be a.segt ++ be a.wut ++ plpRest ++ [BitVec.ofNat 8 a.hist.bytes.length] ++ a.hist.bytes ++ tail

/-- SenderState's invariants (10_state.md R51), and a chunk of 254 bytes (R50) of which every byte held has been written:
a chunk byte is "never read before being written" (70_reset_and_hazards.md R381; log 5). -/
structure Sender.Ok (y : Sender) : Prop where
  chunkLen_le : y.chunkLen ≤ Config.maxData
  written_le  : y.written ≤ y.total
  len_written : y.chunkLen ≤ y.written
  sorted      : Memory.wf y.chunk = true
  inChunk     : ∀ c ∈ y.chunk, c.1 < Config.maxData
  listed      : ∀ k, k < y.chunkLen → (Memory.read y.chunk k).isSome = true

/-- An event of the block on bus address `a`: transaction sizes, and reads of exactly their length
(20_memory.md R82, R92, R95). -/
def Event.ok (a : BusAddr) : Event → Bool
  | .busWrite x bytes _ => x == a && 5 ≤ bytes.length && bytes.length ≤ 259
  | .busRead x n (.ok bytes) => x == a && 2 ≤ n && n ≤ 256 && bytes.length == n
  | .busRead x n (.fail _) => x == a && 2 ≤ n && n ≤ 256
  | .delay _ => true
  | .seqMismatch expected got => expected != got

/-- The invariant every step keeps. -/
structure State.Inv (s : State) : Prop where
  /-- The caller's memory keeps its canonical form. -/
  memSorted : Memory.wf s.mem = true
  /-- The scratch buffer keeps its canonical form. -/
  scratchSorted : Memory.wf s.scratch = true
  /-- The sender keeps the invariants of 10_state.md R51. -/
  senderOk : ∀ y, s.snd = some y → y.Ok
  /-- Unless a flush awaits its acknowledgment, an open sender that has not failed has room in its chunk
  (10_state.md R51, second sentence). -/
  senderRoom : s.fault = none → (∀ v, s.engine ≠ .awaitingAck v) →
    ∀ y, s.snd = some y → y.status ≠ .failed → y.chunkLen < Config.maxData
  /-- A reception never accumulates more than its capacity (20_memory.md R85). -/
  rxFits : s.fault = none → ∀ rx, s.engine = .receiving rx → rx.written ≤ rx.buf.capacity
  /-- An idle block has no locals and no fault (10_state.md R52; 60_exceptions.md R347). -/
  idleQuiet : s.phase = .idle → s.engine = .quiet ∧ s.fault = none
  /-- A running operation between two steps awaits a frame, unless it faulted (log 9). -/
  busyAwaits : ∀ op, s.phase = .busy op → s.fault = none → s.engine ≠ .quiet
  /-- Every event of the trace has the form of 20_memory.md R92. -/
  traceOk : ∀ e ∈ s.trace, Event.ok s.param.i2cAddr e = true

/-- Every read among events `es` directly follows a wait of `us` microseconds: "the guard-time wait before every
read" (20_memory.md R96; 41_link_control.md R214). The first argument says whether such a wait has just ended. -/
def guarded (us : Nat) : Bool → List Event → Bool
  | _, [] => true
  | now, .busRead _ _ _ :: es => now && guarded us false es
  | _, .delay t :: es => guarded us (t == us) es
  | _, .busWrite _ _ _ :: es => guarded us false es
  | _, .seqMismatch _ _ :: es => guarded us false es

end Sys2Proof.Machine
end

