-- ==== Sys2Proof/Certificates/Slice0/Obligations.lean ====
section
/-! DEFINITION. The statements for the provers. An equation `exec i s = .next t` with `t` written out is the whole
frame of the instruction: every field not named is as before. A memory is described by `Stored` or `Forgotten`, which
speak of every byte through `Memory.read`. -/

open Sys2Proof Sys2Proof.Machine

/-! ### The codec -/

/-- 40_frame_codec.md R160. -/
def Obligations.EncodePcbReturnsItsByte : Prop :=
  ∀ s : State, s.Ready →
    (∀ seq more, exec (.encodePcb (.i seq more)) s =
      .next (endState s (.ok (.byte ((if seq then 0x40 else 0) ||| (if more then 0x20 else 0)))))) ∧
    (∀ seq, exec (.encodePcb (.r seq .none)) s =
      .next (endState s (.ok (.byte (0x80 ||| (if seq then 0x10 else 0)))))) ∧
    (∀ seq, exec (.encodePcb (.r seq .checksum)) s =
      .next (endState s (.ok (.byte (0x81 ||| (if seq then 0x10 else 0)))))) ∧
    (∀ seq, exec (.encodePcb (.r seq .other)) s =
      .next (endState s (.ok (.byte (0x82 ||| (if seq then 0x10 else 0)))))) ∧
    (∀ code, exec (.encodePcb (.s code)) s = .next (endState s (.ok (.byte code.byte))))

/-- The table of 30_encoding.md R119, whose values the spec takes from general knowledge (log 17). -/
def Obligations.SupervisoryBytesFollowTable : Prop :=
  ∀ P : Params, P.AdoptedMasks →
    ∀ e ∈ [(SCode.resyncRequest, 0xC0#8), (.ifsRequest, 0xC1#8), (.abortRequest, 0xC2#8), (.wtxRequest, 0xC3#8),
      (.endSessionRequest, 0xC5#8), (.chipResetRequest, 0xC6#8), (.getAtrRequest, 0xC7#8),
      (.interfaceSoftResetRequest, 0xCF#8), (.resyncResponse, 0xE0#8), (.ifsResponse, 0xE1#8),
      (.abortResponse, 0xE2#8), (.wtxResponse, 0xE3#8), (.endSessionResponse, 0xE5#8),
      (.chipResetResponse, 0xE6#8), (.getAtrResponse, 0xE7#8), (.interfaceSoftResetResponse, 0xEF#8)],
      e.1.byte = e.2 ∧ decodePcbByte P e.2 = some (.s e.1)

/-- 30_encoding.md R120 with 40_frame_codec.md R164, for any masks: the clauses exclude each other. -/
def Obligations.DecodePcbFollowsGates : Prop :=
  ∀ (s : State) (b : Byte), s.Ready →
    (b &&& s.param.iMask = 0 →
      exec (.decodePcb b) s = .next (endState s (.ok (.pcb (.i (b.getLsbD 6) (b.getLsbD 5)))))) ∧
    (b &&& s.param.iMask ≠ 0 → b &&& s.param.rMask = 0x80 →
      (b.extractLsb' 0 2 = 0#2 → exec (.decodePcb b) s = .next (endState s (.ok (.pcb (.r (b.getLsbD 4) .none))))) ∧
      (b.extractLsb' 0 2 = 1#2 →
        exec (.decodePcb b) s = .next (endState s (.ok (.pcb (.r (b.getLsbD 4) .checksum))))) ∧
      (b.extractLsb' 0 2 = 2#2 →
        exec (.decodePcb b) s = .next (endState s (.ok (.pcb (.r (b.getLsbD 4) .other))))) ∧
      (b.extractLsb' 0 2 = 3#2 → exec (.decodePcb b) s = .next (endState s (.err .badPcb)))) ∧
    (b &&& s.param.iMask ≠ 0 → b &&& s.param.rMask ≠ 0x80 →
      (∀ code : SCode, code.byte = b → exec (.decodePcb b) s = .next (endState s (.ok (.pcb (.s code))))) ∧
      ((∀ code : SCode, code.byte ≠ b) → exec (.decodePcb b) s = .next (endState s (.err .badPcb))))

/-- 30_encoding.md R122, under the masks the spec adopts. -/
def Obligations.PcbRoundTrip : Prop :=
  ∀ (P : Params) (p : Pcb), P.AdoptedMasks → decodePcbByte P (encodePcbByte p) = some p

/-- 30_encoding.md section 2 (R121): the illegal PCB bytes under the masks the spec adopts. -/
def Obligations.IllegalPcbBytes : Prop :=
  ∀ (P : Params) (b : Byte), P.AdoptedMasks →
    (decodePcbByte P b = none ↔
      b = 0x83 ∨ b = 0x93 ∨ (0x80 ≤ b.toNat ∧ b.toNat ≤ 0xBF ∧ b &&& 0x2C ≠ 0) ∨
      b = 0xC4 ∨ (0xC8 ≤ b.toNat ∧ b.toNat ≤ 0xCE) ∨ (0xD0 ≤ b.toNat ∧ b.toNat ≤ 0xDF) ∨ b = 0xE4 ∨
      (0xE8 ≤ b.toNat ∧ b.toNat ≤ 0xEE) ∨ 0xF0 ≤ b.toNat)

/-- 40_frame_codec.md R170: the loop of the CRC written out, and the rule's values. -/
def Obligations.ChecksumReturnsCrc : Prop :=
  (∀ (s : State) (h d : List Byte), s.Ready →
    let shift := fun c : BitVec 16 => if c.getLsbD 0 then (c >>> 1) ^^^ 0x8408#16 else c >>> 1
    let v := (h ++ d).foldl (fun crc x => shift^[8] (crc ^^^ x.setWidth 16)) 0xFFFF#16 ^^^ 0xFFFF#16
    exec (.checksum h d) s =
      .next (endState s (.ok (.crc v [BitVec.ofNat 8 v.toNat, BitVec.ofNat 8 (v.toNat / 256)])))) ∧
  crc16X25 [] = 0x0000 ∧ crc16X25 [0x5A, 0x00, 0x00] = 0x3655 ∧ le16 0x3655 = [0x55, 0x36]

/-- A consequence of 40_frame_codec.md section 3: no change of one byte goes undetected. -/
def Obligations.CrcDetectsEveryByteChange : Prop :=
  ∀ (xs ys : List Byte) (a b : Byte), a ≠ b → crc16X25 (xs ++ a :: ys) ≠ crc16X25 (xs ++ b :: ys)

/-- 40_frame_codec.md R174: the frame's bytes, and the fault of a frame that is too long. -/
def Obligations.BuildFrameLaysOutTheFrame : Prop :=
  (∀ (P : Params) (p : Pcb) (d : List Byte), d.length ≤ 254 →
    let head := [P.nadH2C, encodePcbByte p, BitVec.ofNat 8 d.length] ++ d
    let v := crc16X25 head
    buildFrame P p d = some (head ++ [BitVec.ofNat 8 v.toNat, BitVec.ofNat 8 (v.toNat / 256)])) ∧
  (∀ (s : State) (p : Pcb) (d : List Byte), 254 < d.length → writeFrame p d s = .stuck .programmingError s) ∧
  (∀ P : Params, P.nadH2C = 0x5A → buildFrame P (.s .resyncRequest) [] = some [0x5A, 0xC0, 0x00, 0xFF, 0xFC])

/-! ### Acceptance and refusal -/

/-- 60_exceptions.md R348; 30_encoding.md R141: a refusal is no next state. -/
def Obligations.RefusedCommandsHaveNoStep : Prop :=
  (∀ (s : State) (c : Command) (rest : List Command), s.Ready → s.port = c :: rest →
    c.code ∉ [0x01#8, 0x02#8, 0x03#8, 0x10#8, 0x11#8, 0x12#8, 0x13#8, 0x14#8, 0x20#8, 0x21#8, 0x22#8] →
    step s = .refused (.unknownCommand c.code)) ∧
  (∀ (s : State) (t : Fault), s.fault = some t →
    step s = .refused (.stickyFault t) ∧ ∀ i : Instr, exec i s = .refused (.stickyFault t))

/-- 10_state.md section 6 (R53): a busy block accepts no command, and no step of it takes one from the port. -/
def Obligations.BusyBlockAcceptsNoCommand : Prop :=
  ∀ (s : State) (op : Op), s.phase = .busy op → s.fault = none →
    (∀ (c : Command) (i : Instr), decodeCommand c = .ok i → exec i s = .refused (.operationRunning op)) ∧
    (∀ t, step s = .next t → t.port = s.port)

/-- The model's choices of log 14 and log 15: an idle block without a command waits, and a frame that no operation
awaits is refused. -/
def Obligations.IdleWaitsAndUnawaitedFrameIsRefused : Prop :=
  (∀ s : State, s.Ready → s.port = [] → step s = .next s) ∧
  (∀ (s : State) (p : Pcb) (d : List Byte), s.fault = none → s.engine = .quiet →
    exec (Instr.ofFrame p d) s = .refused .noFrameAwaited)

/-! ### Waits and budgets -/

/-- 41_link_control.md R212, R213. -/
def Obligations.WaitsAppendOneDelay : Prop :=
  ∀ s : State, s.Ready →
    exec .waitGuard s =
      .next (endState { s with trace := s.trace ++ [.delay (s.atr.segt.toNat * s.param.segtUnitUs)] } (.ok .unit)) ∧
    exec .waitPoll s =
      .next (endState { s with trace := s.trace ++ [.delay (s.atr.mpot.toNat * s.param.mpotUnitUs)] } (.ok .unit))

/-- 10_state.md R48: the intervals, the budget, and the fault of every operation that computes it from a zero poll
interval. -/
def Obligations.BudgetFollowsAtr : Prop :=
  ∀ s : State,
    s.bwtUs = s.atr.bwt.toNat * s.param.bwtUnitUs ∧ s.pollUs = s.atr.mpot.toNat * s.param.mpotUnitUs ∧
    s.guardUs = s.atr.segt.toNat * s.param.segtUnitUs ∧
    (s.pollUs ≠ 0 → s.baseBudget = some (s.bwtUs / s.pollUs + 1)) ∧
    (s.pollUs = 0 → s.Ready → (∀ buf, exec (.receive buf) s = .next (stuckState s .receive .divZero)) ∧
      ∀ used rest evs, s.chip = used ++ rest →
        (WriteRun s (.s .resyncRequest) [] used none evs →
          exec .resync s = .next (stuckState
            { s with scratch := [], chip := rest, fresh := s.fresh + used.length, trace := s.trace ++ evs }
            .resync .divZero)) ∧
        (WriteRun s (.s .interfaceSoftResetRequest) [] used none evs →
          ∀ buf, exec (.resetNegotiate buf) s = .next (stuckState
            { s with chip := rest, fresh := s.fresh + used.length, trace := s.trace ++ evs }
            .resetNegotiate .divZero)))

/-! ### The acknowledged frame write -/

/-- 43_frame_sender.md R300, R301: the outcome after `k` address NACKs, whatever the answer that follows them. -/
def Obligations.WriteFrameRetriesAddressNacks : Prop :=
  ∀ (s : State) (p : Pcb) (d : List Byte) (k : Nat) (rest : List BusAnswer),
    d.length ≤ 254 → 1 ≤ s.param.writeRetries →
    (∀ b, k < s.param.writeRetries → s.chip = nacks k ++ .ok b :: rest →
      writeFrame p d s = .ok ()
        { s with chip := rest, fresh := s.fresh + (k + 1),
                 trace := s.trace ++ (List.replicate k (writeNackEvents s p d)).flatten ++
                   [writeEvent s p d .ok] }) ∧
    (∀ e, e ≠ .addrNack → k < s.param.writeRetries → s.chip = nacks k ++ .fail e :: rest →
      writeFrame p d s = .raised (.bus e)
        { s with chip := rest, fresh := s.fresh + (k + 1),
                 trace := s.trace ++ (List.replicate k (writeNackEvents s p d)).flatten ++
                   [writeEvent s p d (.fail e)] }) ∧
    (s.chip = nacks s.param.writeRetries ++ rest →
      writeFrame p d s = .raised .timeout
        { s with chip := rest, fresh := s.fresh + s.param.writeRetries,
                 trace := s.trace ++
                   (List.replicate (s.param.writeRetries - 1) (writeNackEvents s p d)).flatten ++
                   [writeEvent s p d (.fail .addrNack)] })

/-! ### RESYNC and RESET_NEGOTIATE -/

/-- 41_link_control.md section 3 (R220, R221) with 60_exceptions.md R350: the request of RESYNC is written, after any
number of address NACKs, and answered by the empty resync response; or its write fails, by an error at any attempt or by a
timeout, and RESYNC ends with that error. -/
def Obligations.ResyncSucceeds : Prop :=
  ∀ (s : State) (used rest : List BusAnswer) (evs : List Event), s.Ready → s.chip = used ++ rest →
    (∀ (h t : List Byte) (left : List BusAnswer), s.param.AdoptedMasks → s.pollUs ≠ 0 →
      WriteRun s (.s .resyncRequest) [] used none evs → ReadsFrame s.param (.s .resyncResponse) [] h t →
      rest = .ok h :: .ok t :: left →
      exec .resync s = .next (endState
        { s with txSeq := false, rxSeq := false, chip := left, fresh := s.fresh + used.length + 2,
                 trace := s.trace ++ evs ++ frameReadEvents s h t }
        (.ok .unit))) ∧
    (∀ e, WriteRun s (.s .resyncRequest) [] used (some e) evs →
      exec .resync s = .next (endState
        { s with chip := rest, fresh := s.fresh + used.length, trace := s.trace ++ evs } (.err e)))

/-- 41_link_control.md section 3 (R220, R222): the frames that end the reception of a RESYNC. Only the empty resync
response resets the counters. -/
def Obligations.ResyncAcceptsOnlyEmptyResponse : Prop :=
  ∀ (s : State) (rx : Rx) (d : List Byte), s.fault = none → s.engine = .receiving rx → rx.client = .resync →
    d.length ≤ 254 → rx.written + d.length ≤ rx.buf.capacity →
    exec (.sResyncResponse []) s = .next (endState { s with txSeq := false, rxSeq := false } (.ok .unit)) ∧
    (d ≠ [] → exec (.sResyncResponse d) s = .next (endState s (.err .badPcb))) ∧
    (∀ code, code ≠ .resyncResponse → code ≠ .wtxRequest →
      exec (Instr.ofFrame (.s code) d) s = .next (endState s (.err .badPcb))) ∧
    (∀ seq, exec (.iBlock seq false d) s = .next (endState
      { s with rxSeq := !s.rxSeq, trace := s.trace ++ mismatchEvent s.rxSeq seq } (.err .badPcb)))

/-- 41_link_control.md section 5 (R227 to R231, with the errors of R221) and 60_exceptions.md R350: the request of
RESET_NEGOTIATE is written, after any number of address NACKs, and answered by a reset response whose data fits the buffer;
or its write fails, by an error at any attempt or by a timeout, and RESET_NEGOTIATE ends with that error. -/
def Obligations.ResetNegotiateWritesAtr : Prop :=
  ∀ (s : State) (buf : Buffer) (used rest : List BusAnswer) (evs : List Event), s.Ready → s.chip = used ++ rest →
    (∀ (d h t : List Byte) (left : List BusAnswer), s.param.AdoptedMasks → s.pollUs ≠ 0 →
      d.length ≤ 254 → d.length ≤ buf.capacity →
      WriteRun s (.s .interfaceSoftResetRequest) [] used none evs →
      ReadsFrame s.param (.s .interfaceSoftResetResponse) d h t → rest = .ok h :: .ok t :: left →
      ∃ m, Stored s.mem m buf.base d ∧
        exec (.resetNegotiate buf) s = .next (endState
          { s with mem := m, atr := (parseAtr d).getD s.param.atrDefault, txSeq := false, rxSeq := false,
                   chip := left, fresh := s.fresh + used.length + 2,
                   trace := s.trace ++ evs ++ frameReadEvents s h t }
          (.ok (.atr ((parseAtr d).getD s.param.atrDefault))))) ∧
    (∀ e, WriteRun s (.s .interfaceSoftResetRequest) [] used (some e) evs →
      exec (.resetNegotiate buf) s = .next (endState
        { s with chip := rest, fresh := s.fresh + used.length, trace := s.trace ++ evs } (.err e)))

/-- 41_link_control.md section 5 (R227, R228): the frames that end the reception of a RESET_NEGOTIATE. The ATR lies
after the I-block bytes already accumulated, and only the reset response is accepted. Which bytes of
the buffer an error of this outcome check leaves unspecified, those from a rejected Supervisory block's offset on, and after
a rejected final I-block those behind its data, which stay, is the model's reading of 20_memory.md R86 (log 6, DEDUCED). -/
def Obligations.ResetNegotiateAcceptsOnlyItsResponse : Prop :=
  ∀ (s : State) (rx : Rx) (d : List Byte), s.fault = none → s.engine = .receiving rx →
    rx.client = .resetNegotiate → d.length ≤ 254 → rx.written + d.length ≤ rx.buf.capacity →
    (∃ m, Stored s.mem m (rx.buf.base + rx.written) d ∧
      exec (.sInterfaceSoftResetResponse d) s = .next (endState
        { s with mem := m, atr := (parseAtr d).getD s.param.atrDefault, txSeq := false, rxSeq := false }
        (.ok (.atr ((parseAtr d).getD s.param.atrDefault))))) ∧
    (∀ code, code ≠ .interfaceSoftResetResponse → code ≠ .wtxRequest →
      ∃ m, Forgotten s.mem m (rx.buf.base + rx.written) (rx.buf.base + rx.buf.capacity) ∧
        exec (Instr.ofFrame (.s code) d) s = .next (endState { s with mem := m } (.err .badPcb))) ∧
    (∀ seq, ∃ m,
      Stored s.mem m (rx.buf.base + rx.written) d ∧
        (∃ m', Forgotten m m' (rx.buf.base + rx.written + d.length) (rx.buf.base + rx.buf.capacity) ∧
          exec (.iBlock seq false d) s = .next (endState
            { s with mem := m', rxSeq := !s.rxSeq, trace := s.trace ++ mismatchEvent s.rxSeq seq }
            (.err .badPcb))))

/-- 41_link_control.md R225: a payload parses exactly when it is laid out as 30_encoding.md R130, and then to the
fields of that layout. -/
def Obligations.ParseAtrReadsTheLayout : Prop :=
  ∀ (x : List Byte) (a : AtrInfo), parseAtr x = some a ↔
    ∃ dllpRest r0 r1 r2 plpRest tail,
      dllpRest.length ≤ 251 ∧ plpRest.length ≤ 244 ∧ x = atrBytes a dllpRest r0 r1 r2 plpRest tail

/-! ### Reception -/

/-- 42_receive.md section 1 (R250): RECEIVE of one final I-block. -/
def Obligations.ReceiveReturnsAFinalBlock : Prop :=
  ∀ (s : State) (buf : Buffer) (seq : Bool) (d h t : List Byte) (rest : List BusAnswer),
    s.Ready → s.param.AdoptedMasks → s.pollUs ≠ 0 → d.length ≤ 254 → d.length ≤ buf.capacity →
    ReadsFrame s.param (.i seq false) d h t → s.chip = .ok h :: .ok t :: rest →
    ∃ m, Stored s.mem m buf.base d ∧
      exec (.receive buf) s = .next (endState
        { s with rxSeq := !s.rxSeq, mem := m, chip := rest, fresh := s.fresh + 2,
                 trace := s.trace ++ frameReadEvents s h t ++ mismatchEvent s.rxSeq seq }
        (.ok (.data d.length)))

/-- 42_receive.md R252: a RECEIVE whose every header read is not acknowledged makes exactly as many as its budget
allows, and a reception whose budget is used up reads nothing more. -/
def Obligations.ReceiveTimesOutAfterItsBudget : Prop :=
  (∀ (s : State) (buf : Buffer) (rest : List BusAnswer), s.Ready → s.pollUs ≠ 0 →
    s.chip = nacks (s.bwtUs / s.pollUs + 1) ++ rest →
    ∃ m, (∀ a, a < buf.base ∨ buf.base + buf.capacity ≤ a → Memory.read m a = Memory.read s.mem a) ∧
      exec (.receive buf) s = .next (endState
        { s with mem := m, chip := rest, fresh := s.fresh + (s.bwtUs / s.pollUs + 1),
                 trace := s.trace ++ (List.replicate (s.bwtUs / s.pollUs + 1) (headerNackEvents s)).flatten }
        (.err .timeout))) ∧
  (∀ (s : State) (op : Op) (rx : Rx), s.fault = none → s.phase = .busy op → s.engine = .receiving rx →
    rx.budget ≤ rx.i →
    ∃ m, rx.Kept s.mem m ∧ step s = .next (endState { s with mem := m } (.err .timeout)))

/-- 42_receive.md R265: a final I-block ends the reception of a RECEIVE with the total, unacknowledged. -/
def Obligations.FinalBlockEndsReception : Prop :=
  ∀ (s : State) (rx : Rx) (seq : Bool) (d : List Byte), s.fault = none → s.engine = .receiving rx →
    rx.client = .receive → d.length ≤ 254 → rx.written + d.length ≤ rx.buf.capacity →
    ∃ m, Stored s.mem m (rx.buf.base + rx.written) d ∧
      exec (.iBlock seq false d) s = .next (endState
        { s with mem := m, rxSeq := !s.rxSeq, trace := s.trace ++ mismatchEvent s.rxSeq seq }
        (.ok (.data (rx.written + d.length))))

/-- 42_receive.md section 6 (R263, R264) with 70_reset_and_hazards.md R392: a chained I-block is taken in, acknowledged
with the new expected bit, and the reception goes on; if the write of the acknowledgment fails or times out, the data
taken in and the complement of the bit are kept. That the buffer's bytes after the accepted ones are then unspecified,
and none before them, is the model's reading of 20_memory.md R86 (log 6, DEDUCED). -/
def Obligations.ChainedBlockIsAcknowledged : Prop :=
  ∀ (s : State) (rx : Rx) (seq : Bool) (d : List Byte) (used rest : List BusAnswer) (evs : List Event),
    s.fault = none → s.engine = .receiving rx → d.length ≤ 254 → rx.written + d.length ≤ rx.buf.capacity →
    s.chip = used ++ rest →
    (WriteRun s (.r (!s.rxSeq) .none) [] used none evs →
      ∃ m, Stored (rx.memory s) m rx.address d ∧
        exec (.iBlock seq true d) s = .next (rx.withMemory m
          { s with rxSeq := !s.rxSeq, chip := rest, fresh := s.fresh + used.length,
                   engine := .receiving
                     { rx with written := rx.written + d.length
                               i := if s.param.chainResetsBudget then 0 else rx.i },
                   trace := s.trace ++ mismatchEvent s.rxSeq seq ++ evs })) ∧
    (∀ e, WriteRun s (.r (!s.rxSeq) .none) [] used (some e) evs →
      ∃ m m', Stored (rx.memory s) m rx.address d ∧
        Rx.Failed { rx with written := rx.written + d.length } (rx.withMemory m s).mem m' ∧
        exec (.iBlock seq true d) s = .next (endState
          { s with mem := m', rxSeq := !s.rxSeq, chip := rest, fresh := s.fresh + used.length,
                   trace := s.trace ++ mismatchEvent s.rxSeq seq ++ evs } (.err e)))

/-- 42_receive.md section 4 (R259 to R261): a WTX request with its one byte is echoed, the budget rescaled and the loop
counter reset; an error or a timeout of the echo ends the operation; a request of another length is BadPcb. That the
multiplier byte is stored in the buffer like any frame's data is the model's reading of section 3's R257 (log 19,
DEDUCED), and where the bytes that an error leaves unspecified begin is log 6 (DEDUCED). -/
def Obligations.WtxRequestIsEchoed : Prop :=
  ∀ (s : State) (rx : Rx), s.fault = none → s.engine = .receiving rx → s.pollUs ≠ 0 →
    (∀ (w : Byte) (used rest : List BusAnswer) (evs : List Event), rx.written + 1 ≤ rx.buf.capacity →
      s.chip = used ++ rest →
      (WriteRun s (.s .wtxResponse) [w] used none evs →
        ∃ m, Stored (rx.memory s) m rx.address [w] ∧
          exec (.sWtxRequest [w]) s = .next (rx.withMemory m
            { s with chip := rest, fresh := s.fresh + used.length,
                     engine := .receiving { rx with budget := s.bwtUs * w.toNat / s.pollUs + 1, i := 0 },
                     trace := s.trace ++ evs })) ∧
      (∀ e, WriteRun s (.s .wtxResponse) [w] used (some e) evs →
        ∃ m, rx.Failed s.mem m ∧
          exec (.sWtxRequest [w]) s = .next (endState
            { s with mem := m, chip := rest, fresh := s.fresh + used.length, trace := s.trace ++ evs }
            (.err e)))) ∧
    (∀ d : List Byte, d.length ≤ 254 → rx.written + d.length ≤ rx.buf.capacity → d.length ≠ 1 →
      ∃ m, rx.Failed s.mem m ∧
        exec (.sWtxRequest d) s = .next (endState { s with mem := m } (.err .badPcb)))

/-- 42_receive.md R262: each of the 15 other Supervisory blocks ends a RECEIVE with its code, the bytes accumulated
before it and its own length. -/
def Obligations.OtherSupervisoryBlockEndsReception : Prop :=
  ∀ (s : State) (rx : Rx) (d : List Byte), s.fault = none → s.engine = .receiving rx → rx.client = .receive →
    d.length ≤ 254 → rx.written + d.length ≤ rx.buf.capacity →
    ∀ e ∈ [(Instr.sResyncRequest d, SCode.resyncRequest), (.sIfsRequest d, .ifsRequest),
      (.sAbortRequest d, .abortRequest), (.sEndSessionRequest d, .endSessionRequest),
      (.sChipResetRequest d, .chipResetRequest), (.sGetAtrRequest d, .getAtrRequest),
      (.sInterfaceSoftResetRequest d, .interfaceSoftResetRequest), (.sResyncResponse d, .resyncResponse),
      (.sIfsResponse d, .ifsResponse), (.sAbortResponse d, .abortResponse), (.sWtxResponse d, .wtxResponse),
      (.sEndSessionResponse d, .endSessionResponse), (.sChipResetResponse d, .chipResetResponse),
      (.sGetAtrResponse d, .getAtrResponse),
      (.sInterfaceSoftResetResponse d, .interfaceSoftResetResponse)],
      ∃ m, Stored s.mem m (rx.buf.base + rx.written) d ∧
        exec e.1 s = .next (endState { s with mem := m } (.ok (.sBlock e.2 rx.written d.length)))

/-- 42_receive.md R266: an R-block, of any error code, ends a reception with BadPcb. The buffer's bytes from its offset
on are unspecified (20_memory.md R86). -/
def Obligations.ReceiptBlockInReceptionIsBadPcb : Prop :=
  ∀ (s : State) (rx : Rx) (seq : Bool) (d : List Byte), s.fault = none → s.engine = .receiving rx →
    d.length ≤ 254 → rx.written + d.length ≤ rx.buf.capacity →
    ∀ i ∈ [Instr.rNone seq d, .rChecksum seq d, .rOther seq d],
      ∃ m, rx.Failed s.mem m ∧ exec i s = .next (endState { s with mem := m } (.err .badPcb))

/-- 42_receive.md R255: a header whose length does not fit ends the reception before the body is read and before the
address is checked, whatever its other bytes. The buffer's bytes from its offset on are unspecified (20_memory.md
R86). -/
def Obligations.UnfittingHeaderIsReceptionBuffer : Prop :=
  ∀ (s : State) (op : Op) (rx : Rx) (nad pcb len : Byte) (rest : List BusAnswer), s.fault = none →
    s.phase = .busy op → s.engine = .receiving rx → rx.i < rx.budget →
    254 < len.toNat ∨ rx.buf.capacity < rx.written + len.toNat → s.chip = .ok [nad, pcb, len] :: rest →
    ∃ m, rx.Failed s.mem m ∧
      step s = .next (endState
        { s with mem := m, chip := rest, fresh := s.fresh + 1,
                 trace := s.trace ++
                   [.delay s.guardUs, .busRead s.param.i2cAddr 3 (.ok [nad, pcb, len])] }
        (.err .receptionBuffer))

/-- 42_receive.md R254: an address NACK of the header read costs one unit of the budget and a poll wait; any other
error of it ends the reception. -/
def Obligations.HeaderNackWaitsForTheNextPoll : Prop :=
  ∀ (s : State) (op : Op) (rx : Rx) (rest : List BusAnswer), s.fault = none → s.phase = .busy op →
    s.engine = .receiving rx → rx.i < rx.budget →
    (s.chip = .fail .addrNack :: rest →
      step s = .next
        { s with engine := .receiving { rx with i := rx.i + 1 }, chip := rest, fresh := s.fresh + 1,
                 trace := s.trace ++ headerNackEvents s }) ∧
    (∀ e, e ≠ .addrNack → s.chip = .fail e :: rest →
      ∃ m, rx.Kept s.mem m ∧
        step s = .next (endState
          { s with mem := m, chip := rest, fresh := s.fresh + 1,
                   trace := s.trace ++ [.delay s.guardUs, .busRead s.param.i2cAddr 3 (.fail e)] }
          (.err (.bus e))))

/-- 42_receive.md R256, R258: the checks of a frame that fits, in order: the body read, the address, the checksum, the
PCB. The clauses exclude each other. The buffer's bytes from the frame's offset on are unspecified (20_memory.md R86). -/
def Obligations.FrameChecksRunInOrder : Prop :=
  ∀ (s : State) (op : Op) (rx : Rx) (nad pcb len : Byte) (rest : List BusAnswer), s.fault = none →
    s.phase = .busy op → s.engine = .receiving rx → rx.i < rx.budget →
    len.toNat ≤ 254 → rx.written + len.toNat ≤ rx.buf.capacity →
    (∀ e, s.chip = .ok [nad, pcb, len] :: .fail e :: rest →
      ∃ m, rx.Failed s.mem m ∧
        step s = .next (endState
          { s with mem := m, chip := rest, fresh := s.fresh + 2,
                   trace := s.trace ++
                     [.delay s.guardUs, .busRead s.param.i2cAddr 3 (.ok [nad, pcb, len]),
                      .delay s.guardUs, .busRead s.param.i2cAddr (len.toNat + 2) (.fail e)] }
          (.err (.bus e)))) ∧
    (∀ (d : List Byte) (lo hi : Byte), d.length = len.toNat →
      s.chip = .ok [nad, pcb, len] :: .ok (d ++ [lo, hi]) :: rest →
      ∃ m, rx.Failed s.mem m ∧ ∀ e,
        (nad ≠ s.param.nadC2H ∧ e = .badAddress) ∨
        (nad = s.param.nadC2H ∧ crc16X25 (nad :: pcb :: len :: d) ≠ fromLe16 lo hi ∧ e = .badCrc) ∨
        (nad = s.param.nadC2H ∧ crc16X25 (nad :: pcb :: len :: d) = fromLe16 lo hi ∧
          decodePcbByte s.param pcb = none ∧ e = .badPcb) →
        step s = .next (endState
          { s with mem := m, chip := rest, fresh := s.fresh + 2,
                   trace := s.trace ++ frameReadEvents s [nad, pcb, len] (d ++ [lo, hi]) } (.err e)))

/-- 42_receive.md section 7 (R269): a chain of acknowledged I-blocks reassembles into the concatenation of its data. Each
acknowledgment may meet address NACKs before the bus takes it. -/
def Obligations.ChainReassembles : Prop :=
  ∀ (s : State) (buf : Buffer) (xs : List ChipBlock) (seq : Bool) (d h t : List Byte) (rest : List BusAnswer),
    s.Ready → s.param.AdoptedMasks → s.pollUs ≠ 0 →
    (s.param.chainResetsBudget = true ∨ xs.length ≤ s.bwtUs / s.pollUs) →
    (∀ x ∈ xs, x.Sent s.param) → d.length ≤ 254 → ReadsFrame s.param (.i seq false) d h t →
    (chainData xs).length + d.length ≤ buf.capacity →
    s.chip = chainAnswers xs ++ .ok h :: .ok t :: rest →
    ∃ m, Stored s.mem m buf.base (chainData xs ++ d) ∧
      exec (.receive buf) s = .next (endState
        { s with rxSeq := s.rxSeq ^^ decide ((xs.length + 1) % 2 = 1), mem := m, chip := rest,
                 fresh := s.fresh + ((chainAnswers xs).length + 2),
                 trace := s.trace ++ chainEvents s s.rxSeq xs ++ frameReadEvents s h t ++
                   mismatchEvent (s.rxSeq ^^ decide (xs.length % 2 = 1)) seq }
        (.ok (.data ((chainData xs).length + d.length))))

/-- 42_receive.md section 7 (R270): `a` NACKs, a WTX request with multiplier `w`, whose echo may itself meet address NACKs
of its write, `n` NACKs and a final I-block succeed exactly when `n + 1` is within the rescaled budget; otherwise the operation times out after that budget. The multiplier
byte lies in the buffer until the I-block's data overwrite it (log 19, DEDUCED). -/
def Obligations.WtxRescalesTheBudget : Prop :=
  ∀ (s : State) (buf : Buffer) (a n : Nat) (w : Byte) (seq : Bool) (d h1 t1 h2 t2 : List Byte)
    (used rest : List BusAnswer) (evs : List Event),
    s.Ready → s.param.AdoptedMasks → s.pollUs ≠ 0 → WriteRun s (.s .wtxResponse) [w] used none evs →
    1 ≤ buf.capacity → d.length ≤ 254 → d.length ≤ buf.capacity → a ≤ s.bwtUs / s.pollUs →
    ReadsFrame s.param (.s .wtxRequest) [w] h1 t1 → ReadsFrame s.param (.i seq false) d h2 t2 →
    s.chip = nacks a ++ .ok h1 :: .ok t1 :: (used ++ (nacks n ++ .ok h2 :: .ok t2 :: rest)) →
    let budget := s.bwtUs * w.toNat / s.pollUs + 1
    let before := s.trace ++ (List.replicate a (headerNackEvents s)).flatten ++ frameReadEvents s h1 t1 ++ evs
    (n + 1 ≤ budget →
      ∃ m1 m, Stored s.mem m1 buf.base [w] ∧ Stored m1 m buf.base d ∧
        exec (.receive buf) s = .next (endState
          { s with rxSeq := !s.rxSeq, mem := m, chip := rest, fresh := s.fresh + (a + used.length + n + 4),
                   trace := before ++ (List.replicate n (headerNackEvents s)).flatten ++
                     frameReadEvents s h2 t2 ++ mismatchEvent s.rxSeq seq }
          (.ok (.data d.length)))) ∧
    (budget ≤ n →
      ∃ m, (∀ x, x < buf.base ∨ buf.base + buf.capacity ≤ x → Memory.read m x = Memory.read s.mem x) ∧
        exec (.receive buf) s = .next (endState
          { s with mem := m, chip := nacks (n - budget) ++ .ok h2 :: .ok t2 :: rest,
                   fresh := s.fresh + (a + used.length + budget + 2),
                   trace := before ++ (List.replicate budget (headerNackEvents s)).flatten }
          (.err .timeout)))

/-- The model's choice of log 9, held against D1 of 92_eei_decisions.md: running a reception to its end inside its
command gives what the machine reaches frame by frame. So RECEIVE, and RESYNC and RESET_NEGOTIATE once their request is
written, leave the block where a run of the machine's steps from the reception's start leaves it. -/
def Obligations.ReceptionIsItsFrameSteps : Prop :=
  (∀ (s : State) (op : Op) (rx : Rx), s.fault = none → s.phase = .busy op → s.engine = .receiving rx →
    ∃ n, Sys2Proof.core.run n s = .next (finish (driveReception s.chip.length s))) ∧
  ∀ s : State, s.Ready → s.pollUs ≠ 0 → ∀ buf,
    (∃ n, exec (.receive buf) s = Sys2Proof.core.run n (beganReception .receive .receive buf s)) ∧
    ∀ used rest evs, s.chip = used ++ rest →
      (WriteRun s (.s .resyncRequest) [] used none evs →
        ∃ n, exec .resync s = Sys2Proof.core.run n (beganReception .resync .resync ⟨0, s.param.scratchCap⟩
          { s with scratch := [], chip := rest, fresh := s.fresh + used.length, trace := s.trace ++ evs })) ∧
      (WriteRun s (.s .interfaceSoftResetRequest) [] used none evs →
        ∃ n, exec (.resetNegotiate buf) s = Sys2Proof.core.run n
          (beganReception .resetNegotiate .resetNegotiate buf
            { s with chip := rest, fresh := s.fresh + used.length, trace := s.trace ++ evs }))

/-! ### The sender -/

/-- 43_frame_sender.md R310. -/
def Obligations.SopenOpensASender : Prop :=
  ∀ (s : State) (total : Nat), s.Ready →
    ∃ y : Sender, y.total = total ∧ y.written = 0 ∧ y.chunkLen = 0 ∧ y.status = .active ∧
      exec (.sopen total) s = .next (endState { s with snd := some y } (.ok .unit))

/-- 43_frame_sender.md section 3 (R313, R314): an SWRITE that neither fills the chunk nor completes the message buffers
what fits and does nothing on the bus. -/
def Obligations.SwriteBuffersWithoutBusActivity : Prop :=
  ∀ (s : State) (y : Sender) (x held : List Byte), s.Ready → s.snd = some y → y.Holds held →
    y.status ≠ .failed →
    let n := min x.length (254 - held.length)
    y.written + n ≤ y.total → (n = 0 ∨ (held.length + n ≠ 254 ∧ y.written + n ≠ y.total)) →
    ∃ z : Sender, z.Holds (held ++ x.take n) ∧ z.total = y.total ∧ z.written = y.written + n ∧
      z.status = y.status ∧
      exec (.swrite x) s = .next (endState { s with snd := some z } (.ok (.consumed n)))

/-- 43_frame_sender.md section 2 (R306, R308): the SWRITE that completes the message sends its last chunk with M = 0,
after any number of address NACKs of the write, and awaits no acknowledgment. -/
def Obligations.SwriteSendsTheFinalChunk : Prop :=
  ∀ (s : State) (y : Sender) (x held : List Byte) (used rest : List BusAnswer) (evs : List Event), s.Ready →
    s.snd = some y → y.Holds held → y.status ≠ .failed →
    let n := min x.length (254 - held.length)
    0 < n → y.written + n = y.total → s.chip = used ++ rest →
    WriteRun s (.i s.txSeq false) (held ++ x.take n) used none evs →
    ∃ z : Sender, z.total = y.total ∧ z.written = y.total ∧ z.chunkLen = 0 ∧ z.status = .done ∧
      exec (.swrite x) s = .next (endState
        { s with txSeq := !s.txSeq, snd := some z, chip := rest, fresh := s.fresh + used.length,
                 trace := s.trace ++ evs }
        (.ok (.consumed n)))

/-- 43_frame_sender.md sections 2 and 3 (R306, R307, R320): the SWRITE that fills the chunk of an unfinished message sends
it with M = 1, after any number of address NACKs of the write, and reads the acknowledgment that carries the complemented
sequence bit. The right one ends the chunk. Any answer that is refused, a read error or the first check that fails, ends
the operation with its error: the sender is failed, the bytes count as written and `tx_seq` stays complemented. With no
answer at hand after the write, the operation waits for the acknowledgment, phase Busy, the chunk still held: the model's
choice of log 9. -/
def Obligations.SwriteSendsAFullChunk : Prop :=
  ∀ (s : State) (y : Sender) (x held : List Byte) (used : List BusAnswer) (evs : List Event), s.Ready →
    s.snd = some y → y.Holds held → y.status ≠ .failed →
    let n := min x.length (254 - held.length)
    0 < n → held.length + n = 254 → y.written + n < y.total →
    WriteRun s (.i s.txSeq true) (held ++ x.take n) used none evs →
    (∀ (ack : List Byte) (rest : List BusAnswer), s.param.AdoptedMasks →
      ack = frameBytes s.param.nadC2H (.r (!s.txSeq) .none) [] → s.chip = used ++ .ok ack :: rest →
      ∃ z : Sender, z.total = y.total ∧ z.written = y.written + n ∧ z.chunkLen = 0 ∧ z.status = y.status ∧
        exec (.swrite x) s = .next (endState
          { s with txSeq := !s.txSeq, snd := some z, chip := rest, fresh := s.fresh + used.length + 1,
                   trace := s.trace ++ evs ++ ackReadEvents s (.ok ack) }
          (.ok (.consumed n)))) ∧
    (∀ (a : BusAnswer) (e : Err) (rest : List BusAnswer), AckRefused s.param (!s.txSeq) a e →
      s.chip = used ++ a :: rest →
      ∃ z : Sender, z.Holds (held ++ x.take n) ∧ z.total = y.total ∧ z.written = y.written + n ∧
        z.status = .failed ∧
        exec (.swrite x) s = .next (endState
          { s with txSeq := !s.txSeq, snd := some z, chip := rest, fresh := s.fresh + used.length + 1,
                   trace := s.trace ++ evs ++ ackReadEvents s a } (.err e))) ∧
    (s.chip = used →
      ∃ z : Sender, z.Holds (held ++ x.take n) ∧ z.total = y.total ∧ z.written = y.written + n ∧
        z.status = y.status ∧
        exec (.swrite x) s = .next
          { s with phase := .busy .swrite, result := none, engine := .awaitingAck (.consumed n),
                   txSeq := !s.txSeq, snd := some z, chip := [], fresh := s.fresh + used.length,
                   trace := s.trace ++ evs })

/-- 43_frame_sender.md R307, with the order of 60_exceptions.md R346: the read of an acknowledgment and its checks, in
their order. The clauses exclude each other. The expected bit is the complemented `tx_seq`. -/
def Obligations.AcknowledgmentChecksRunInOrder : Prop :=
  ∀ (s : State) (op : Op) (v : Value) (rest : List BusAnswer), s.fault = none → s.phase = .busy op →
    s.engine = .awaitingAck v →
    (∀ e, s.chip = .fail e :: rest →
      step s = .next (endState
        { s with snd := s.snd.map (fun y => { y with status := .failed }), chip := rest, fresh := s.fresh + 1,
                 trace := s.trace ++ [.delay s.guardUs, .busRead s.param.i2cAddr 5 (.fail e)] }
        (.err (.bus e)))) ∧
    (∀ nad pcb len lo hi : Byte, s.chip = .ok [nad, pcb, len, lo, hi] :: rest →
      (∀ e,
        (nad ≠ s.param.nadC2H ∧ e = .badAddress) ∨
        (nad = s.param.nadC2H ∧ decodePcbByte s.param pcb ≠ some (.r s.txSeq .none) ∧ e = .badPcb) ∨
        (nad = s.param.nadC2H ∧ decodePcbByte s.param pcb = some (.r s.txSeq .none) ∧ len ≠ 0 ∧ e = .badPcb) ∨
        (nad = s.param.nadC2H ∧ decodePcbByte s.param pcb = some (.r s.txSeq .none) ∧ len = 0 ∧
          crc16X25 [nad, pcb, 0] ≠ fromLe16 lo hi ∧ e = .badCrc) →
        step s = .next (endState
          { s with snd := s.snd.map (fun y => { y with status := .failed }), chip := rest, fresh := s.fresh + 1,
                   trace := s.trace ++
                     [.delay s.guardUs, .busRead s.param.i2cAddr 5 (.ok [nad, pcb, len, lo, hi])] }
          (.err e))) ∧
      (nad = s.param.nadC2H → decodePcbByte s.param pcb = some (.r s.txSeq .none) → len = 0 →
        crc16X25 [nad, pcb, 0] = fromLe16 lo hi →
        step s = .next (endState
          { s with snd := s.snd.map (fun y => { y with chunkLen := 0 }), chip := rest, fresh := s.fresh + 1,
                   trace := s.trace ++
                     [.delay s.guardUs, .busRead s.param.i2cAddr 5 (.ok [nad, pcb, len, lo, hi])] }
          (.ok v))))

/-- 43_frame_sender.md section 3 (R313, R318, R320) with R300, R306 and 70_reset_and_hazards.md R392: when the write of a
flush fails, at whatever attempt and also by a timeout, SWRITE or SFLUSH returns the error, the bytes of the SWRITE count
as written, the sender is failed, and `tx_seq` stays complemented. -/
def Obligations.FailedFlushFailsTheSender : Prop :=
  ∀ (s : State) (y : Sender) (held : List Byte) (used rest : List BusAnswer) (e : Err) (evs : List Event), s.Ready →
    s.snd = some y → y.Holds held → s.chip = used ++ rest →
    (∀ x : List Byte,
      let n := min x.length (254 - held.length)
      y.status ≠ .failed → 0 < n → y.written + n ≤ y.total →
      (held.length + n = 254 ∨ y.written + n = y.total) →
      WriteRun s (.i s.txSeq (decide (y.written + n < y.total))) (held ++ x.take n) used (some e) evs →
      ∃ z : Sender, z.Holds (held ++ x.take n) ∧ z.total = y.total ∧ z.written = y.written + n ∧
        z.status = .failed ∧
        exec (.swrite x) s = .next (endState
          { s with txSeq := !s.txSeq, snd := some z, chip := rest, fresh := s.fresh + used.length,
                   trace := s.trace ++ evs } (.err e))) ∧
    (y.status = .active → y.total ≤ y.written → held.length ≤ 254 →
      WriteRun s (.i s.txSeq false) held used (some e) evs →
      exec .sflush s = .next (endState
        { s with txSeq := !s.txSeq, snd := some { y with status := .failed }, chip := rest,
                 fresh := s.fresh + used.length, trace := s.trace ++ evs } (.err e)))

/-- 43_frame_sender.md section 3 (R313, R315): the faults of SWRITE. -/
def Obligations.SwriteFaults : Prop :=
  ∀ (s : State) (x : List Byte), s.Ready →
    (s.snd = none → exec (.swrite x) s = .next (stuckState s .swrite .senderNotOpen)) ∧
    (∀ y, s.snd = some y → y.status = .failed →
      exec (.swrite x) s = .next (stuckState s .swrite .programmingError)) ∧
    (∀ y, s.snd = some y → y.status ≠ .failed → y.total < y.written + min x.length (254 - y.chunkLen) →
      exec (.swrite x) s = .next (stuckState s .swrite .programmingError))

/-- 43_frame_sender.md R318, with any run of the write that succeeds. The clauses exclude each other; the write that fails
is FailedFlushFailsTheSender. -/
def Obligations.SflushOutcomes : Prop :=
  ∀ s : State, s.Ready →
    (s.snd = none → exec .sflush s = .next (stuckState s .sflush .senderNotOpen)) ∧
    (∀ y, s.snd = some y → y.status = .failed →
      exec .sflush s = .next (stuckState s .sflush .programmingError)) ∧
    (∀ y, s.snd = some y → y.status = .done → exec .sflush s = .next (endState s (.ok .unit))) ∧
    (∀ y, s.snd = some y → y.status = .active → y.written < y.total →
      exec .sflush s = .next (stuckState s .sflush .programmingError)) ∧
    (∀ y held used rest evs, s.snd = some y → y.status = .active → y.total ≤ y.written → y.Holds held →
      held.length ≤ 254 → s.chip = used ++ rest → WriteRun s (.i s.txSeq false) held used none evs →
      exec .sflush s = .next (endState
        { s with txSeq := !s.txSeq, snd := some { y with chunkLen := 0, status := .done }, chip := rest,
                 fresh := s.fresh + used.length, trace := s.trace ++ evs }
        (.ok .unit)))

/-- 43_frame_sender.md section 2 (R309): where an acknowledgment is awaited, the empty R-block with the current `tx_seq`
ends the chunk, and every other frame fails the sender with BadPcb. -/
def Obligations.OnlyTheAcknowledgmentIsAccepted : Prop :=
  ∀ (s : State) (v : Value), s.fault = none → s.engine = .awaitingAck v →
    exec (.rNone s.txSeq []) s = .next (endState
      { s with snd := s.snd.map (fun y => { y with chunkLen := 0 }) } (.ok v)) ∧
    ∀ (p : Pcb) (d : List Byte), (p, d) ≠ (.r s.txSeq .none, []) →
      exec (Instr.ofFrame p d) s = .next (endState
        { s with snd := s.snd.map (fun y => { y with status := .failed }) } (.err .badPcb))

/-- 60_exceptions.md section 1 (R344): the errors each operation can raise. -/
def Obligations.ErrorsOfEachOperation : Prop :=
  ∀ (s t : State) (e : Err), t.result = some (.err e) →
    (∀ p, exec (.encodePcb p) s ≠ .next t) ∧ (∀ h d, exec (.checksum h d) s ≠ .next t) ∧
    exec .waitGuard s ≠ .next t ∧ exec .waitPoll s ≠ .next t ∧ (∀ n, exec (.sopen n) s ≠ .next t) ∧
    (∀ b, exec (.decodePcb b) s = .next t → e = .badPcb) ∧
    (∀ x, exec (.swrite x) s = .next t → e ≠ .receptionBuffer) ∧
    (exec .sflush s = .next t → e ≠ .receptionBuffer)

/-! ### The step -/

/-- A step of an idle block runs the next command of its port (log 1). -/
def Obligations.StepRunsTheNextCommand : Prop :=
  ∀ (s : State) (c : Command) (rest : List Command) (i : Instr), s.Ready → s.port = c :: rest →
    decode s.param (.command c) = .ok i → step s = exec i { s with port := rest }

/-- The model's choice of log 9, with log 16: where a reception goes on step by step, a step reads the next frame from
the bus and runs it as an instruction. The header and the body are the next two answers, and the reads add their events
and one iteration of the loop, as 42_receive.md sections 1 and 3 give them. -/
def Obligations.StepRunsTheReceivedFrame : Prop :=
  ∀ (s : State) (op : Op) (rx : Rx) (h t : List Byte) (i : Instr) (rest : List BusAnswer), s.fault = none →
    s.phase = .busy op → s.engine = .receiving rx → rx.i < rx.budget → h.length = 3 →
    (h.getD 2 0).toNat ≤ 254 → rx.written + (h.getD 2 0).toNat ≤ rx.buf.capacity →
    t.length = (h.getD 2 0).toNat + 2 → s.chip = .ok h :: .ok t :: rest →
    decode s.param (.frame (h ++ t)) = .ok i →
    step s = exec i
      { s with engine := .receiving { rx with i := rx.i + 1 }, chip := rest, fresh := s.fresh + 2,
               trace := s.trace ++ frameReadEvents s h t }

/-- The model's choice of log 9, with log 20: where a flush waits for its acknowledgment, a step reads it and, if it is
the one 43_frame_sender.md R307 accepts, runs it as an instruction. -/
def Obligations.StepRunsTheAcknowledgment : Prop :=
  ∀ (s : State) (op : Op) (v : Value) (rest : List BusAnswer), s.fault = none → s.phase = .busy op →
    s.engine = .awaitingAck v → s.param.AdoptedMasks →
    s.chip = .ok (frameBytes s.param.nadC2H (.r s.txSeq .none) []) :: rest →
    step s = exec (.rNone s.txSeq [])
      { s with chip := rest, fresh := s.fresh + 1,
               trace := s.trace ++
                 [.delay s.guardUs,
                  .busRead s.param.i2cAddr 5 (.ok (frameBytes s.param.nadC2H (.r s.txSeq .none) []))] }

/-! ### Encoding -/

/-- Frames and commands written out from 95_test_vectors.md and 30_encoding.md R140. -/
def Obligations.WrittenOutWordsDecode : Prop :=
  ∀ P : Params, P.AdoptedMasks → P.nadC2H = 0xA5 →
    decode P (.frame [0xA5, 0x20, 0x02, 0x11, 0x22, 0x55, 0xB7]) = .ok (.iBlock false true [0x11, 0x22]) ∧
    decode P (.frame [0xA5, 0x90, 0x00, 0xFB, 0xE9]) = .ok (.rNone true []) ∧
    decode P (.frame [0xA5, 0xC3, 0x01, 0x02, 0x80, 0xEF]) = .ok (.sWtxRequest [0x02]) ∧
    decode P (.frame [0xA5, 0xE0, 0x00, 0x3F, 0x19]) = .ok (.sResyncResponse []) ∧
    decode P (.command ⟨0x10, []⟩) = .ok .resync ∧
    decode P (.command ⟨0x12, [.buffer ⟨0, 64⟩]⟩) = .ok (.receive ⟨0, 64⟩) ∧
    decode P (.command ⟨0x21, [.bytes [0x01]]⟩) = .ok (.swrite [0x01])

/-- Decoding the encoding of a well-formed instruction gives it back. -/
def Obligations.DecodeInvertsEncode : Prop :=
  ∀ (P : Params) (i : Instr), P.AdoptedMasks → i.wellFormed = true → decode P (encode P i) = .ok i

/-- The decoder gives well-formed instructions alone. A command it accepts is the encoding of its instruction
(30_encoding.md section 5), and so is a frame, but for the low five bits of an I-block's PCB, which the decoder ignores
(R116). -/
def Obligations.DecodeGivesWellFormed : Prop :=
  ∀ (P : Params) (e : Encoded) (i : Instr), P.AdoptedMasks → decode P e = .ok i →
    i.wellFormed = true ∧
    (∀ c, e = .command c → encode P i = e) ∧
    (∀ bytes, e = .frame bytes → 0x80 ≤ (bytes.getD 1 0).toNat ∨ bytes.getD 1 0 &&& 0x1F = 0 → encode P i = e)

/-! ### Reset, invariants and whole-machine rules -/

/-- 70_reset_and_hazards.md R381. -/
def Obligations.ResetValues : Prop :=
  (∀ P : Params,
    (State.construct P).txSeq = false ∧ (State.construct P).rxSeq = false ∧
    (State.construct P).atr = P.atrDefault ∧ (State.construct P).snd = none ∧
    (State.construct P).phase = .idle ∧ (State.construct P).fault = none ∧
    (State.construct P).trace = [] ∧ (State.construct P).engine = .quiet) ∧
  State.reset = State.construct Config.params ∧
  ∀ (s t : State) (n : Nat), exec (.sopen n) s = .next t →
    ∃ y, t.snd = some y ∧ ∀ a, Memory.read y.chunk a = none

/-- The invariant holds right after construction. -/
def Obligations.InvHoldsAtReset : Prop :=
  (∀ P : Params, (State.construct P).Inv) ∧ State.reset.Inv

/-- The invariant is kept by every step, from any state that meets it. Its part for the sender (10_state.md R50, R51) makes
every chunk hold known bytes, so that the hypothesis `y.Holds held` of the sender's statements holds in every state of a
run, for some `held` of at most 254 bytes. -/
def Obligations.StepKeepsInv : Prop :=
  ∀ s t : State, s.Inv → step s = .next t → t.Inv

/-- 10_state.md section 7 (R55): the trace only grows. -/
def Obligations.TraceIsAppendOnly : Prop :=
  ∀ s t : State, step s = .next t → ∃ evs, t.trace = s.trace ++ evs

/-- 10_state.md section 2 (R42): no step writes a parameter. -/
def Obligations.ParametersAreNeverWritten : Prop :=
  ∀ s t : State, step s = .next t → t.param = s.param

/-- 20_memory.md section 3 (R85): the block writes the caller's memory only inside the buffer of a RECEIVE or a
RESET_NEGOTIATE. -/
def Obligations.BlockWritesOnlyInsideTheBuffer : Prop :=
  (∀ (s t : State) (buf : Buffer) (a : Nat), a < buf.base ∨ buf.base + buf.capacity ≤ a →
    (exec (.receive buf) s = .next t → Memory.read t.mem a = Memory.read s.mem a) ∧
    (exec (.resetNegotiate buf) s = .next t → Memory.read t.mem a = Memory.read s.mem a)) ∧
  (∀ (s t : State) (op : Op) (rx : Rx) (a : Nat), s.Inv → s.phase = .busy op → s.engine = .receiving rx →
    rx.client = .resync ∨ a < rx.buf.base ∨ rx.buf.base + rx.buf.capacity ≤ a →
    step s = .next t → Memory.read t.mem a = Memory.read s.mem a) ∧
  (∀ (s t : State) (c : Command) (i : Instr), decodeCommand c = .ok i →
    (∀ buf, i ≠ .receive buf ∧ i ≠ .resetNegotiate buf) → exec i s = .next t → t.mem = s.mem)

/-- 10_state.md section 3 (R44, R45): a RECEIVE keeps the send side, a sender operation keeps the receive side, and the
codec and the waits keep both. -/
def Obligations.DirectionsAreIndependent : Prop :=
  ∀ s t : State,
    (∀ buf, exec (.receive buf) s = .next t → t.txSeq = s.txSeq ∧ t.snd = s.snd ∧ t.atr = s.atr) ∧
    (∀ i, i = .sflush ∨ (∃ n, i = .sopen n) ∨ (∃ x, i = .swrite x) → exec i s = .next t →
      t.rxSeq = s.rxSeq ∧ t.atr = s.atr ∧ t.mem = s.mem) ∧
    (∀ i, i = .waitGuard ∨ i = .waitPoll ∨ (∃ p, i = .encodePcb p) ∨ (∃ b, i = .decodePcb b) ∨
        (∃ h d, i = .checksum h d) → exec i s = .next t →
      t.txSeq = s.txSeq ∧ t.rxSeq = s.rxSeq ∧ t.snd = s.snd ∧ t.atr = s.atr ∧ t.mem = s.mem) ∧
    (∀ i, i = .resync ∨ (∃ buf, i = .resetNegotiate buf) → exec i s = .next t → t.snd = s.snd)

/-- 41_link_control.md R222, R229: `atr` changes, and either counter of an operation of the link is reset, only when
RESYNC or RESET_NEGOTIATE succeeds. -/
def Obligations.LinkParametersChangeOnlyOnSuccess : Prop :=
  (∀ s t : State, step s = .next t → t.atr ≠ s.atr →
    t.phase = .idle ∧ t.fault = none ∧ t.result = some (.ok (.atr t.atr)) ∧ t.txSeq = false ∧ t.rxSeq = false) ∧
  (∀ (s t : State) (buf : Buffer) (i : Instr), i = .resync ∨ i = .resetNegotiate buf → exec i s = .next t →
    (∀ e, t.result = some (.err e) → t.txSeq = s.txSeq ∧ t.atr = s.atr) ∧
    (∀ v, t.result = some (.ok v) → t.txSeq = false ∧ t.rxSeq = false))

/-- 20_memory.md section 7 (R96) and 41_link_control.md section 2 (R214): every read directly follows a guard wait. -/
def Obligations.GuardWaitBeforeEveryRead : Prop :=
  ∀ (s t : State) (evs : List Event), step s = .next t → t.trace = s.trace ++ evs →
    guarded s.guardUs false evs = true
end

