-- ==== Sys2Proof/Laws/Codec.lean ====
section
/-! SUPPORT. Small facts of the byte order, the CRC register and the PCB tables. -/

namespace Sys2Proof

/-- The CRC's two wire bytes give it back (20_memory.md R88; 30_encoding.md R132). -/
theorem fromLe16_le16 (v : Half) : fromLe16 (v.extractLsb' 0 8) (v.extractLsb' 8 8) = v := by
  apply BitVec.eq_of_getLsbD_eq
  intro i hi
  simp only [fromLe16, BitVec.getLsbD_append, BitVec.getLsbD_extractLsb']
  by_cases h : i < 8
  · simp [h]
  · have h8 : i - 8 < 8 := by omega
    simp [h, h8, show 8 + (i - 8) = i by omega]

theorem crc16X25_append (xs ys : List Byte) :
    crc16X25 (xs ++ ys) = ys.foldl crcByte (xs.foldl crcByte 0xFFFF#16) ^^^ 0xFFFF#16 := by
  simp [crc16X25, List.foldl_append]

/-- A string of at most 255 bytes is all of its historical bytes (10_state.md R46). -/
@[simp] theorem Hist.ofList_bytes {x : List Byte} (h : x.length ≤ 255) : (Hist.ofList x).bytes = x :=
  List.take_of_length_le h

@[simp] theorem Hist.ofList_self (x : Hist) : Hist.ofList x.bytes = x := by
  obtain ⟨b, h⟩ := x
  simp [Hist.ofList, List.take_of_length_le h]

/-- The 16 bytes of 30_encoding.md R119 give their codes back. -/
theorem SCode.ofByte_byte (c : SCode) : SCode.ofByte c.byte = some c := by
  cases c <;> decide

/-- A byte of the S form is one of the 16. -/
theorem SCode.byte_of_ofByte {b : Byte} {c : SCode} (h : SCode.ofByte b = some c) : c.byte = b := by
  have := List.find?_some h
  simpa using this

/-- Bit 7 is clear in the I form alone (30_encoding.md R116 to R118). -/
theorem encodePcbByte_bit7 (p : Pcb) :
    (encodePcbByte p).getLsbD 7 = false ↔ ∃ seq more, p = .i seq more := by
  cases p with
  | i seq more => cases seq <;> cases more <;> simp [encodePcbByte, bitByte]
  | r seq err => cases seq <;> cases err <;> simp [encodePcbByte, bitByte, RErr.code]
  | s code => cases code <;> simp [encodePcbByte, SCode.byte]

end Sys2Proof
end

