-- ==== Sys2Proof/Laws/Memory.lean ====
section
/-! SUPPORT. The laws of byte memories: every operation keeps the canonical form, a read after a write gives the
byte written, and a write leaves every other byte alone. -/

namespace Sys2Proof.Machine.Memory

theorem read_write_same (m : Memory) (a : Nat) (b : Byte) : read (write m a b) a = some b := by
  induction m with
  | nil => simp [write, read]
  | cons c m ih =>
    obtain ⟨x, y⟩ := c
    simp only [write]
    split
    · simp [read]
    · split
      · simp [read]
      · next h => simp [read, Ne.symm h, ih]

theorem read_write_other {a a' : Nat} (h : a' ≠ a) (m : Memory) (b : Byte) :
    read (write m a b) a' = read m a' := by
  induction m with
  | nil => simp [write, read, h.symm]
  | cons c m ih =>
    obtain ⟨x, y⟩ := c
    simp only [write]
    split
    · simp [read, h.symm]
    · split
      · next h1 => subst h1; simp [read, h.symm]
      · simp [read, ih]

theorem read_writeBytes_outside {a a' : Nat} (bs : List Byte) (m : Memory)
    (h : a' < a ∨ a + bs.length ≤ a') : read (writeBytes m a bs) a' = read m a' := by
  induction bs generalizing m a with
  | nil => rfl
  | cons b bs ih =>
    simp only [writeBytes, List.length_cons] at *
    rw [ih _ (by omega), read_write_other (by omega)]

theorem read_writeBytes_inside (bs : List Byte) (m : Memory) (a k : Nat) (h : k < bs.length) :
    read (writeBytes m a bs) (a + k) = some bs[k] := by
  induction bs generalizing m a k with
  | nil => simp at h
  | cons b bs ih =>
    cases k with
    | zero => rw [writeBytes, read_writeBytes_outside _ _ (by omega)]; exact read_write_same ..
    | succ k =>
      have := ih (write m a b) (a + 1) k (by simpa using h)
      rw [writeBytes, show a + (k + 1) = a + 1 + k by omega, this]; simp

/-- Reading back what was just written gives it, whatever the free values are. -/
theorem readBytes_eq_of_reads (m : Memory) (free : Nat → Byte) (bs : List Byte) (a : Nat)
    (h : ∀ k, (hk : k < bs.length) → read m (a + k) = some bs[k]) : readBytes m free a bs.length = bs := by
  induction bs generalizing a with
  | nil => rfl
  | cons b bs ih =>
    have h0 := h 0 (by simp)
    simp only [List.length_cons, readBytes]
    rw [show read m a = some b by simpa using h0, ih]
    · rfl
    · intro k hk
      have := h (k + 1) (by simpa using hk)
      rw [show a + 1 + k = a + (k + 1) by omega, this]; simp

theorem readBytes_writeBytes (m : Memory) (free : Nat → Byte) (bs : List Byte) (a : Nat) :
    readBytes (writeBytes m a bs) free a bs.length = bs :=
  readBytes_eq_of_reads _ _ _ _ fun k hk => read_writeBytes_inside bs m a k hk

@[simp] theorem readBytes_length (m : Memory) (free : Nat → Byte) (a n : Nat) :
    (readBytes m free a n).length = n := by
  induction n generalizing a with
  | zero => rfl
  | succ n ih => simp [readBytes, ih]

theorem writeBytes_append (m : Memory) (a : Nat) (xs ys : List Byte) :
    writeBytes m a (xs ++ ys) = writeBytes (writeBytes m a xs) (a + xs.length) ys := by
  induction xs generalizing m a with
  | nil => rfl
  | cons x xs ih => simp [writeBytes, ih, Nat.add_assoc, Nat.add_comm 1]

theorem forget_cons (c : Host.Cell) (m : Memory) (lo hi : Nat) :
    forget (c :: m) lo hi = if c.1 < lo ∨ hi ≤ c.1 then c :: forget m lo hi else forget m lo hi := by
  simp [forget, List.filter_cons]

theorem read_forget_outside {lo hi a : Nat} (m : Memory) (h : a < lo ∨ hi ≤ a) :
    read (forget m lo hi) a = read m a := by
  induction m with
  | nil => rfl
  | cons c m ih =>
    obtain ⟨x, y⟩ := c
    rw [forget_cons]
    split
    · simp [read, ih]
    · next hx =>
      have hne : x ≠ a := by simp only at hx; omega
      simp [read, hne, ih]

theorem read_forget_inside {lo hi a : Nat} (m : Memory) (h : lo ≤ a ∧ a < hi) :
    read (forget m lo hi) a = none := by
  induction m with
  | nil => rfl
  | cons c m ih =>
    obtain ⟨x, y⟩ := c
    rw [forget_cons]
    split
    · next hx =>
      have hne : x ≠ a := by simp only at hx; omega
      simp [read, hne, ih]
    · exact ih

/-! ### The canonical form -/

theorem wf_iff (m : Memory) : wf m = true ↔ m.Pairwise fun c d => c.1 < d.1 := by
  induction m with
  | nil => simp [wf]
  | cons c m ih =>
    cases m with
    | nil => simp [wf]
    | cons d m =>
      rw [wf, Bool.and_eq_true, ih]
      constructor
      · rintro ⟨h, hp⟩
        refine .cons ?_ hp
        intro e he
        have hcd : c.1 < d.1 := by simpa using h
        rcases List.mem_cons.mp he with rfl | he
        · exact hcd
        · exact Nat.lt_trans hcd ((List.pairwise_cons.mp hp).1 e he)
      · intro h
        obtain ⟨h, hp⟩ := List.pairwise_cons.mp h
        exact ⟨by simpa using h d (by simp), hp⟩

theorem mem_write {m : Memory} {a : Nat} {b : Byte} {c : Host.Cell} (h : c ∈ write m a b) :
    c = (a, b) ∨ c ∈ m := by
  induction m with
  | nil => simpa [write] using h
  | cons d m ih =>
    obtain ⟨x, y⟩ := d
    simp only [write] at h
    split at h
    · simpa using h
    · split at h
      · rcases List.mem_cons.mp h with h | h
        · exact .inl h
        · exact .inr (List.mem_cons_of_mem _ h)
      · rcases List.mem_cons.mp h with h | h
        · exact .inr (by simp [h])
        · exact (ih h).imp id (List.mem_cons_of_mem _)

theorem wf_write {m : Memory} (h : wf m = true) (a : Nat) (b : Byte) : wf (write m a b) = true := by
  rw [wf_iff] at *
  induction m with
  | nil => simp [write]
  | cons c m ih =>
    obtain ⟨x, y⟩ := c
    obtain ⟨h1, h2⟩ := List.pairwise_cons.mp h
    simp only [write]
    split
    · next hlt =>
      refine List.pairwise_cons.mpr ⟨fun e he => ?_, h⟩
      rcases List.mem_cons.mp he with rfl | he
      · exact hlt
      · exact Nat.lt_trans hlt (h1 e he)
    · split
      · next heq => subst heq; exact List.pairwise_cons.mpr ⟨h1, h2⟩
      · next hlt hne =>
        refine List.pairwise_cons.mpr ⟨fun e he => ?_, ih h2⟩
        rcases mem_write he with rfl | he
        · simp only at hlt ⊢; omega
        · exact h1 e he

theorem wf_writeBytes {m : Memory} (h : wf m = true) (a : Nat) (bs : List Byte) :
    wf (writeBytes m a bs) = true := by
  induction bs generalizing m a with
  | nil => exact h
  | cons b bs ih => exact ih (wf_write h a b) (a + 1)

theorem wf_forget {m : Memory} (h : wf m = true) (lo hi : Nat) : wf (forget m lo hi) = true := by
  rw [wf_iff] at *
  exact List.Pairwise.filter _ h

/-- The addresses of a written memory are those of before and those written. -/
theorem mem_writeBytes {m : Memory} {a : Nat} {bs : List Byte} {c : Host.Cell}
    (h : c ∈ writeBytes m a bs) : c ∈ m ∨ (a ≤ c.1 ∧ c.1 < a + bs.length) := by
  induction bs generalizing m a with
  | nil => exact .inl h
  | cons b bs ih =>
    rcases ih h with h | h
    · rcases mem_write h with rfl | h
      · right; simp
      · exact .inl h
    · right; simp only [List.length_cons]; omega

end Sys2Proof.Machine.Memory

namespace Sys2Proof.Machine

/-- Bytes written are stored. -/
theorem stored_writeBytes (m : Memory) (a : Nat) (d : List Byte) : Stored m (Memory.writeBytes m a d) a d :=
  ⟨fun k h => Memory.read_writeBytes_inside d m a k h, fun _ h => Memory.read_writeBytes_outside d m h⟩

/-- Bytes forgotten are forgotten. -/
theorem forgotten_forget (m : Memory) (lo hi : Nat) : Forgotten m (Memory.forget m lo hi) lo hi :=
  ⟨fun _ h h' => Memory.read_forget_inside m ⟨h, h'⟩, fun _ h => Memory.read_forget_outside m h⟩

/-- The memories of a constructed block have the canonical form. -/
theorem construct_memories_wf (P : Params) :
    Memory.wf (State.construct P).mem = true ∧ Memory.wf (State.construct P).scratch = true := ⟨rfl, rfl⟩

end Sys2Proof.Machine
end

