-- ==== Sys2Proof/Laws/State.lean ====
section
/-! SUPPORT. One lemma per field of the state for every named update of it, and the intervals under each update. -/

namespace Sys2Proof.Machine

variable (s : State)

/-! ### `emit` -/

@[simp] theorem State.emit_param (e : Event) : (s.emit e).param = s.param := rfl
@[simp] theorem State.emit_txSeq (e : Event) : (s.emit e).txSeq = s.txSeq := rfl
@[simp] theorem State.emit_rxSeq (e : Event) : (s.emit e).rxSeq = s.rxSeq := rfl
@[simp] theorem State.emit_atr (e : Event) : (s.emit e).atr = s.atr := rfl
@[simp] theorem State.emit_snd (e : Event) : (s.emit e).snd = s.snd := rfl
@[simp] theorem State.emit_phase (e : Event) : (s.emit e).phase = s.phase := rfl
@[simp] theorem State.emit_fault (e : Event) : (s.emit e).fault = s.fault := rfl
@[simp] theorem State.emit_trace (e : Event) : (s.emit e).trace = s.trace ++ [e] := rfl
@[simp] theorem State.emit_engine (e : Event) : (s.emit e).engine = s.engine := rfl
@[simp] theorem State.emit_mem (e : Event) : (s.emit e).mem = s.mem := rfl
@[simp] theorem State.emit_scratch (e : Event) : (s.emit e).scratch = s.scratch := rfl
@[simp] theorem State.emit_result (e : Event) : (s.emit e).result = s.result := rfl
@[simp] theorem State.emit_port (e : Event) : (s.emit e).port = s.port := rfl
@[simp] theorem State.emit_chip (e : Event) : (s.emit e).chip = s.chip := rfl
@[simp] theorem State.emit_fresh (e : Event) : (s.emit e).fresh = s.fresh := rfl
@[simp] theorem State.emit_bwtUs (e : Event) : (s.emit e).bwtUs = s.bwtUs := rfl
@[simp] theorem State.emit_pollUs (e : Event) : (s.emit e).pollUs = s.pollUs := rfl
@[simp] theorem State.emit_guardUs (e : Event) : (s.emit e).guardUs = s.guardUs := rfl

/-! ### `delay` -/

@[simp] theorem State.delay_param (us : Nat) : (s.delay us).param = s.param := rfl
@[simp] theorem State.delay_txSeq (us : Nat) : (s.delay us).txSeq = s.txSeq := rfl
@[simp] theorem State.delay_rxSeq (us : Nat) : (s.delay us).rxSeq = s.rxSeq := rfl
@[simp] theorem State.delay_atr (us : Nat) : (s.delay us).atr = s.atr := rfl
@[simp] theorem State.delay_snd (us : Nat) : (s.delay us).snd = s.snd := rfl
@[simp] theorem State.delay_phase (us : Nat) : (s.delay us).phase = s.phase := rfl
@[simp] theorem State.delay_fault (us : Nat) : (s.delay us).fault = s.fault := rfl
@[simp] theorem State.delay_trace (us : Nat) : (s.delay us).trace = s.trace ++ [.delay us] := rfl
@[simp] theorem State.delay_engine (us : Nat) : (s.delay us).engine = s.engine := rfl
@[simp] theorem State.delay_mem (us : Nat) : (s.delay us).mem = s.mem := rfl
@[simp] theorem State.delay_scratch (us : Nat) : (s.delay us).scratch = s.scratch := rfl
@[simp] theorem State.delay_result (us : Nat) : (s.delay us).result = s.result := rfl
@[simp] theorem State.delay_port (us : Nat) : (s.delay us).port = s.port := rfl
@[simp] theorem State.delay_chip (us : Nat) : (s.delay us).chip = s.chip := rfl
@[simp] theorem State.delay_fresh (us : Nat) : (s.delay us).fresh = s.fresh := rfl
@[simp] theorem State.delay_bwtUs (us : Nat) : (s.delay us).bwtUs = s.bwtUs := rfl
@[simp] theorem State.delay_pollUs (us : Nat) : (s.delay us).pollUs = s.pollUs := rfl
@[simp] theorem State.delay_guardUs (us : Nat) : (s.delay us).guardUs = s.guardUs := rfl

/-! ### `guardWait` -/

@[simp] theorem State.guardWait_param : (s.guardWait).param = s.param := rfl
@[simp] theorem State.guardWait_txSeq : (s.guardWait).txSeq = s.txSeq := rfl
@[simp] theorem State.guardWait_rxSeq : (s.guardWait).rxSeq = s.rxSeq := rfl
@[simp] theorem State.guardWait_atr : (s.guardWait).atr = s.atr := rfl
@[simp] theorem State.guardWait_snd : (s.guardWait).snd = s.snd := rfl
@[simp] theorem State.guardWait_phase : (s.guardWait).phase = s.phase := rfl
@[simp] theorem State.guardWait_fault : (s.guardWait).fault = s.fault := rfl
@[simp] theorem State.guardWait_trace : (s.guardWait).trace = s.trace ++ [.delay s.guardUs] := rfl
@[simp] theorem State.guardWait_engine : (s.guardWait).engine = s.engine := rfl
@[simp] theorem State.guardWait_mem : (s.guardWait).mem = s.mem := rfl
@[simp] theorem State.guardWait_scratch : (s.guardWait).scratch = s.scratch := rfl
@[simp] theorem State.guardWait_result : (s.guardWait).result = s.result := rfl
@[simp] theorem State.guardWait_port : (s.guardWait).port = s.port := rfl
@[simp] theorem State.guardWait_chip : (s.guardWait).chip = s.chip := rfl
@[simp] theorem State.guardWait_fresh : (s.guardWait).fresh = s.fresh := rfl
@[simp] theorem State.guardWait_bwtUs : (s.guardWait).bwtUs = s.bwtUs := rfl
@[simp] theorem State.guardWait_pollUs : (s.guardWait).pollUs = s.pollUs := rfl
@[simp] theorem State.guardWait_guardUs : (s.guardWait).guardUs = s.guardUs := rfl

/-! ### `pollWait` -/

@[simp] theorem State.pollWait_param : (s.pollWait).param = s.param := rfl
@[simp] theorem State.pollWait_txSeq : (s.pollWait).txSeq = s.txSeq := rfl
@[simp] theorem State.pollWait_rxSeq : (s.pollWait).rxSeq = s.rxSeq := rfl
@[simp] theorem State.pollWait_atr : (s.pollWait).atr = s.atr := rfl
@[simp] theorem State.pollWait_snd : (s.pollWait).snd = s.snd := rfl
@[simp] theorem State.pollWait_phase : (s.pollWait).phase = s.phase := rfl
@[simp] theorem State.pollWait_fault : (s.pollWait).fault = s.fault := rfl
@[simp] theorem State.pollWait_trace : (s.pollWait).trace = s.trace ++ [.delay s.pollUs] := rfl
@[simp] theorem State.pollWait_engine : (s.pollWait).engine = s.engine := rfl
@[simp] theorem State.pollWait_mem : (s.pollWait).mem = s.mem := rfl
@[simp] theorem State.pollWait_scratch : (s.pollWait).scratch = s.scratch := rfl
@[simp] theorem State.pollWait_result : (s.pollWait).result = s.result := rfl
@[simp] theorem State.pollWait_port : (s.pollWait).port = s.port := rfl
@[simp] theorem State.pollWait_chip : (s.pollWait).chip = s.chip := rfl
@[simp] theorem State.pollWait_fresh : (s.pollWait).fresh = s.fresh := rfl
@[simp] theorem State.pollWait_bwtUs : (s.pollWait).bwtUs = s.bwtUs := rfl
@[simp] theorem State.pollWait_pollUs : (s.pollWait).pollUs = s.pollUs := rfl
@[simp] theorem State.pollWait_guardUs : (s.pollWait).guardUs = s.guardUs := rfl

/-! ### `answered` -/

@[simp] theorem State.answered_param : (s.answered).param = s.param := rfl
@[simp] theorem State.answered_txSeq : (s.answered).txSeq = s.txSeq := rfl
@[simp] theorem State.answered_rxSeq : (s.answered).rxSeq = s.rxSeq := rfl
@[simp] theorem State.answered_atr : (s.answered).atr = s.atr := rfl
@[simp] theorem State.answered_snd : (s.answered).snd = s.snd := rfl
@[simp] theorem State.answered_phase : (s.answered).phase = s.phase := rfl
@[simp] theorem State.answered_fault : (s.answered).fault = s.fault := rfl
@[simp] theorem State.answered_trace : (s.answered).trace = s.trace := rfl
@[simp] theorem State.answered_engine : (s.answered).engine = s.engine := rfl
@[simp] theorem State.answered_mem : (s.answered).mem = s.mem := rfl
@[simp] theorem State.answered_scratch : (s.answered).scratch = s.scratch := rfl
@[simp] theorem State.answered_result : (s.answered).result = s.result := rfl
@[simp] theorem State.answered_port : (s.answered).port = s.port := rfl
@[simp] theorem State.answered_chip : (s.answered).chip = s.chip.tail := rfl
@[simp] theorem State.answered_fresh : (s.answered).fresh = s.fresh + 1 := rfl
@[simp] theorem State.answered_bwtUs : (s.answered).bwtUs = s.bwtUs := rfl
@[simp] theorem State.answered_pollUs : (s.answered).pollUs = s.pollUs := rfl
@[simp] theorem State.answered_guardUs : (s.answered).guardUs = s.guardUs := rfl

/-! ### `accept` -/

@[simp] theorem State.accept_param (op : Op) : (s.accept op).param = s.param := rfl
@[simp] theorem State.accept_txSeq (op : Op) : (s.accept op).txSeq = s.txSeq := rfl
@[simp] theorem State.accept_rxSeq (op : Op) : (s.accept op).rxSeq = s.rxSeq := rfl
@[simp] theorem State.accept_atr (op : Op) : (s.accept op).atr = s.atr := rfl
@[simp] theorem State.accept_snd (op : Op) : (s.accept op).snd = s.snd := rfl
@[simp] theorem State.accept_phase (op : Op) : (s.accept op).phase = .busy op := rfl
@[simp] theorem State.accept_fault (op : Op) : (s.accept op).fault = s.fault := rfl
@[simp] theorem State.accept_trace (op : Op) : (s.accept op).trace = s.trace := rfl
@[simp] theorem State.accept_engine (op : Op) : (s.accept op).engine = s.engine := rfl
@[simp] theorem State.accept_mem (op : Op) : (s.accept op).mem = s.mem := rfl
@[simp] theorem State.accept_scratch (op : Op) : (s.accept op).scratch = s.scratch := rfl
@[simp] theorem State.accept_result (op : Op) : (s.accept op).result = none := rfl
@[simp] theorem State.accept_port (op : Op) : (s.accept op).port = s.port := rfl
@[simp] theorem State.accept_chip (op : Op) : (s.accept op).chip = s.chip := rfl
@[simp] theorem State.accept_fresh (op : Op) : (s.accept op).fresh = s.fresh := rfl
@[simp] theorem State.accept_bwtUs (op : Op) : (s.accept op).bwtUs = s.bwtUs := rfl
@[simp] theorem State.accept_pollUs (op : Op) : (s.accept op).pollUs = s.pollUs := rfl
@[simp] theorem State.accept_guardUs (op : Op) : (s.accept op).guardUs = s.guardUs := rfl

/-! ### `complete` -/

@[simp] theorem State.complete_param (r : Result) : (s.complete r).param = s.param := rfl
@[simp] theorem State.complete_txSeq (r : Result) : (s.complete r).txSeq = s.txSeq := rfl
@[simp] theorem State.complete_rxSeq (r : Result) : (s.complete r).rxSeq = s.rxSeq := rfl
@[simp] theorem State.complete_atr (r : Result) : (s.complete r).atr = s.atr := rfl
@[simp] theorem State.complete_snd (r : Result) : (s.complete r).snd = s.snd := rfl
@[simp] theorem State.complete_phase (r : Result) : (s.complete r).phase = .idle := rfl
@[simp] theorem State.complete_fault (r : Result) : (s.complete r).fault = s.fault := rfl
@[simp] theorem State.complete_trace (r : Result) : (s.complete r).trace = s.trace := rfl
@[simp] theorem State.complete_engine (r : Result) : (s.complete r).engine = .quiet := rfl
@[simp] theorem State.complete_mem (r : Result) : (s.complete r).mem = s.mem := rfl
@[simp] theorem State.complete_scratch (r : Result) : (s.complete r).scratch = [] := rfl
@[simp] theorem State.complete_result (r : Result) : (s.complete r).result = some r := rfl
@[simp] theorem State.complete_port (r : Result) : (s.complete r).port = s.port := rfl
@[simp] theorem State.complete_chip (r : Result) : (s.complete r).chip = s.chip := rfl
@[simp] theorem State.complete_fresh (r : Result) : (s.complete r).fresh = s.fresh := rfl
@[simp] theorem State.complete_bwtUs (r : Result) : (s.complete r).bwtUs = s.bwtUs := rfl
@[simp] theorem State.complete_pollUs (r : Result) : (s.complete r).pollUs = s.pollUs := rfl
@[simp] theorem State.complete_guardUs (r : Result) : (s.complete r).guardUs = s.guardUs := rfl

/-! ### `raise` -/

@[simp] theorem State.raise_param (e : Err) : (s.raise e).param = s.param := rfl
@[simp] theorem State.raise_txSeq (e : Err) : (s.raise e).txSeq = s.txSeq := rfl
@[simp] theorem State.raise_rxSeq (e : Err) : (s.raise e).rxSeq = s.rxSeq := rfl
@[simp] theorem State.raise_atr (e : Err) : (s.raise e).atr = s.atr := rfl
@[simp] theorem State.raise_snd (e : Err) : (s.raise e).snd = s.snd := rfl
@[simp] theorem State.raise_phase (e : Err) : (s.raise e).phase = .idle := rfl
@[simp] theorem State.raise_fault (e : Err) : (s.raise e).fault = s.fault := rfl
@[simp] theorem State.raise_trace (e : Err) : (s.raise e).trace = s.trace := rfl
@[simp] theorem State.raise_engine (e : Err) : (s.raise e).engine = .quiet := rfl
@[simp] theorem State.raise_mem (e : Err) : (s.raise e).mem = s.mem := rfl
@[simp] theorem State.raise_scratch (e : Err) : (s.raise e).scratch = [] := rfl
@[simp] theorem State.raise_result (e : Err) : (s.raise e).result = some (.err e) := rfl
@[simp] theorem State.raise_port (e : Err) : (s.raise e).port = s.port := rfl
@[simp] theorem State.raise_chip (e : Err) : (s.raise e).chip = s.chip := rfl
@[simp] theorem State.raise_fresh (e : Err) : (s.raise e).fresh = s.fresh := rfl
@[simp] theorem State.raise_bwtUs (e : Err) : (s.raise e).bwtUs = s.bwtUs := rfl
@[simp] theorem State.raise_pollUs (e : Err) : (s.raise e).pollUs = s.pollUs := rfl
@[simp] theorem State.raise_guardUs (e : Err) : (s.raise e).guardUs = s.guardUs := rfl

/-! ### `stick` -/

@[simp] theorem State.stick_param (t : Fault) : (s.stick t).param = s.param := rfl
@[simp] theorem State.stick_txSeq (t : Fault) : (s.stick t).txSeq = s.txSeq := rfl
@[simp] theorem State.stick_rxSeq (t : Fault) : (s.stick t).rxSeq = s.rxSeq := rfl
@[simp] theorem State.stick_atr (t : Fault) : (s.stick t).atr = s.atr := rfl
@[simp] theorem State.stick_snd (t : Fault) : (s.stick t).snd = s.snd := rfl
@[simp] theorem State.stick_phase (t : Fault) : (s.stick t).phase = s.phase := rfl
@[simp] theorem State.stick_fault (t : Fault) : (s.stick t).fault = some t := rfl
@[simp] theorem State.stick_trace (t : Fault) : (s.stick t).trace = s.trace := rfl
@[simp] theorem State.stick_engine (t : Fault) : (s.stick t).engine = s.engine := rfl
@[simp] theorem State.stick_mem (t : Fault) : (s.stick t).mem = s.mem := rfl
@[simp] theorem State.stick_scratch (t : Fault) : (s.stick t).scratch = s.scratch := rfl
@[simp] theorem State.stick_result (t : Fault) : (s.stick t).result = s.result := rfl
@[simp] theorem State.stick_port (t : Fault) : (s.stick t).port = s.port := rfl
@[simp] theorem State.stick_chip (t : Fault) : (s.stick t).chip = s.chip := rfl
@[simp] theorem State.stick_fresh (t : Fault) : (s.stick t).fresh = s.fresh := rfl
@[simp] theorem State.stick_bwtUs (t : Fault) : (s.stick t).bwtUs = s.bwtUs := rfl
@[simp] theorem State.stick_pollUs (t : Fault) : (s.stick t).pollUs = s.pollUs := rfl
@[simp] theorem State.stick_guardUs (t : Fault) : (s.stick t).guardUs = s.guardUs := rfl

/-! ### `seqReset` -/

@[simp] theorem State.seqReset_param : (s.seqReset).param = s.param := rfl
@[simp] theorem State.seqReset_txSeq : (s.seqReset).txSeq = false := rfl
@[simp] theorem State.seqReset_rxSeq : (s.seqReset).rxSeq = false := rfl
@[simp] theorem State.seqReset_atr : (s.seqReset).atr = s.atr := rfl
@[simp] theorem State.seqReset_snd : (s.seqReset).snd = s.snd := rfl
@[simp] theorem State.seqReset_phase : (s.seqReset).phase = s.phase := rfl
@[simp] theorem State.seqReset_fault : (s.seqReset).fault = s.fault := rfl
@[simp] theorem State.seqReset_trace : (s.seqReset).trace = s.trace := rfl
@[simp] theorem State.seqReset_engine : (s.seqReset).engine = s.engine := rfl
@[simp] theorem State.seqReset_mem : (s.seqReset).mem = s.mem := rfl
@[simp] theorem State.seqReset_scratch : (s.seqReset).scratch = s.scratch := rfl
@[simp] theorem State.seqReset_result : (s.seqReset).result = s.result := rfl
@[simp] theorem State.seqReset_port : (s.seqReset).port = s.port := rfl
@[simp] theorem State.seqReset_chip : (s.seqReset).chip = s.chip := rfl
@[simp] theorem State.seqReset_fresh : (s.seqReset).fresh = s.fresh := rfl
@[simp] theorem State.seqReset_bwtUs : (s.seqReset).bwtUs = s.bwtUs := rfl
@[simp] theorem State.seqReset_pollUs : (s.seqReset).pollUs = s.pollUs := rfl
@[simp] theorem State.seqReset_guardUs : (s.seqReset).guardUs = s.guardUs := rfl

/-! ### `mapSnd` -/

@[simp] theorem State.mapSnd_param (f : Sender → Sender) : (s.mapSnd f).param = s.param := rfl
@[simp] theorem State.mapSnd_txSeq (f : Sender → Sender) : (s.mapSnd f).txSeq = s.txSeq := rfl
@[simp] theorem State.mapSnd_rxSeq (f : Sender → Sender) : (s.mapSnd f).rxSeq = s.rxSeq := rfl
@[simp] theorem State.mapSnd_atr (f : Sender → Sender) : (s.mapSnd f).atr = s.atr := rfl
@[simp] theorem State.mapSnd_snd (f : Sender → Sender) : (s.mapSnd f).snd = s.snd.map f := rfl
@[simp] theorem State.mapSnd_phase (f : Sender → Sender) : (s.mapSnd f).phase = s.phase := rfl
@[simp] theorem State.mapSnd_fault (f : Sender → Sender) : (s.mapSnd f).fault = s.fault := rfl
@[simp] theorem State.mapSnd_trace (f : Sender → Sender) : (s.mapSnd f).trace = s.trace := rfl
@[simp] theorem State.mapSnd_engine (f : Sender → Sender) : (s.mapSnd f).engine = s.engine := rfl
@[simp] theorem State.mapSnd_mem (f : Sender → Sender) : (s.mapSnd f).mem = s.mem := rfl
@[simp] theorem State.mapSnd_scratch (f : Sender → Sender) : (s.mapSnd f).scratch = s.scratch := rfl
@[simp] theorem State.mapSnd_result (f : Sender → Sender) : (s.mapSnd f).result = s.result := rfl
@[simp] theorem State.mapSnd_port (f : Sender → Sender) : (s.mapSnd f).port = s.port := rfl
@[simp] theorem State.mapSnd_chip (f : Sender → Sender) : (s.mapSnd f).chip = s.chip := rfl
@[simp] theorem State.mapSnd_fresh (f : Sender → Sender) : (s.mapSnd f).fresh = s.fresh := rfl
@[simp] theorem State.mapSnd_bwtUs (f : Sender → Sender) : (s.mapSnd f).bwtUs = s.bwtUs := rfl
@[simp] theorem State.mapSnd_pollUs (f : Sender → Sender) : (s.mapSnd f).pollUs = s.pollUs := rfl
@[simp] theorem State.mapSnd_guardUs (f : Sender → Sender) : (s.mapSnd f).guardUs = s.guardUs := rfl

/-! ### `emptyChunk` -/

@[simp] theorem emptyChunk_param : (emptyChunk s).param = s.param := rfl
@[simp] theorem emptyChunk_txSeq : (emptyChunk s).txSeq = s.txSeq := rfl
@[simp] theorem emptyChunk_rxSeq : (emptyChunk s).rxSeq = s.rxSeq := rfl
@[simp] theorem emptyChunk_atr : (emptyChunk s).atr = s.atr := rfl
@[simp] theorem emptyChunk_snd : (emptyChunk s).snd = s.snd.map fun x => { x with chunkLen := 0 } := rfl
@[simp] theorem emptyChunk_phase : (emptyChunk s).phase = s.phase := rfl
@[simp] theorem emptyChunk_fault : (emptyChunk s).fault = s.fault := rfl
@[simp] theorem emptyChunk_trace : (emptyChunk s).trace = s.trace := rfl
@[simp] theorem emptyChunk_engine : (emptyChunk s).engine = s.engine := rfl
@[simp] theorem emptyChunk_mem : (emptyChunk s).mem = s.mem := rfl
@[simp] theorem emptyChunk_scratch : (emptyChunk s).scratch = s.scratch := rfl
@[simp] theorem emptyChunk_result : (emptyChunk s).result = s.result := rfl
@[simp] theorem emptyChunk_port : (emptyChunk s).port = s.port := rfl
@[simp] theorem emptyChunk_chip : (emptyChunk s).chip = s.chip := rfl
@[simp] theorem emptyChunk_fresh : (emptyChunk s).fresh = s.fresh := rfl
@[simp] theorem emptyChunk_bwtUs : (emptyChunk s).bwtUs = s.bwtUs := rfl
@[simp] theorem emptyChunk_pollUs : (emptyChunk s).pollUs = s.pollUs := rfl
@[simp] theorem emptyChunk_guardUs : (emptyChunk s).guardUs = s.guardUs := rfl

/-! ### `doneChunk` -/

@[simp] theorem doneChunk_param : (doneChunk s).param = s.param := rfl
@[simp] theorem doneChunk_txSeq : (doneChunk s).txSeq = s.txSeq := rfl
@[simp] theorem doneChunk_rxSeq : (doneChunk s).rxSeq = s.rxSeq := rfl
@[simp] theorem doneChunk_atr : (doneChunk s).atr = s.atr := rfl
@[simp] theorem doneChunk_snd : (doneChunk s).snd = s.snd.map fun x => { x with chunkLen := 0, status := .done } := rfl
@[simp] theorem doneChunk_phase : (doneChunk s).phase = s.phase := rfl
@[simp] theorem doneChunk_fault : (doneChunk s).fault = s.fault := rfl
@[simp] theorem doneChunk_trace : (doneChunk s).trace = s.trace := rfl
@[simp] theorem doneChunk_engine : (doneChunk s).engine = s.engine := rfl
@[simp] theorem doneChunk_mem : (doneChunk s).mem = s.mem := rfl
@[simp] theorem doneChunk_scratch : (doneChunk s).scratch = s.scratch := rfl
@[simp] theorem doneChunk_result : (doneChunk s).result = s.result := rfl
@[simp] theorem doneChunk_port : (doneChunk s).port = s.port := rfl
@[simp] theorem doneChunk_chip : (doneChunk s).chip = s.chip := rfl
@[simp] theorem doneChunk_fresh : (doneChunk s).fresh = s.fresh := rfl
@[simp] theorem doneChunk_bwtUs : (doneChunk s).bwtUs = s.bwtUs := rfl
@[simp] theorem doneChunk_pollUs : (doneChunk s).pollUs = s.pollUs := rfl
@[simp] theorem doneChunk_guardUs : (doneChunk s).guardUs = s.guardUs := rfl

/-! ### `acceptSeq` -/

@[simp] theorem acceptSeq_param (seq : Bool) : (acceptSeq seq s).param = s.param := rfl
@[simp] theorem acceptSeq_txSeq (seq : Bool) : (acceptSeq seq s).txSeq = s.txSeq := rfl
@[simp] theorem acceptSeq_rxSeq (seq : Bool) : (acceptSeq seq s).rxSeq = !s.rxSeq := rfl
@[simp] theorem acceptSeq_atr (seq : Bool) : (acceptSeq seq s).atr = s.atr := rfl
@[simp] theorem acceptSeq_snd (seq : Bool) : (acceptSeq seq s).snd = s.snd := rfl
@[simp] theorem acceptSeq_phase (seq : Bool) : (acceptSeq seq s).phase = s.phase := rfl
@[simp] theorem acceptSeq_fault (seq : Bool) : (acceptSeq seq s).fault = s.fault := rfl
@[simp] theorem acceptSeq_trace (seq : Bool) : (acceptSeq seq s).trace = s.trace ++ mismatchEvents s.rxSeq seq := rfl
@[simp] theorem acceptSeq_engine (seq : Bool) : (acceptSeq seq s).engine = s.engine := rfl
@[simp] theorem acceptSeq_mem (seq : Bool) : (acceptSeq seq s).mem = s.mem := rfl
@[simp] theorem acceptSeq_scratch (seq : Bool) : (acceptSeq seq s).scratch = s.scratch := rfl
@[simp] theorem acceptSeq_result (seq : Bool) : (acceptSeq seq s).result = s.result := rfl
@[simp] theorem acceptSeq_port (seq : Bool) : (acceptSeq seq s).port = s.port := rfl
@[simp] theorem acceptSeq_chip (seq : Bool) : (acceptSeq seq s).chip = s.chip := rfl
@[simp] theorem acceptSeq_fresh (seq : Bool) : (acceptSeq seq s).fresh = s.fresh := rfl
@[simp] theorem acceptSeq_bwtUs (seq : Bool) : (acceptSeq seq s).bwtUs = s.bwtUs := rfl
@[simp] theorem acceptSeq_pollUs (seq : Bool) : (acceptSeq seq s).pollUs = s.pollUs := rfl
@[simp] theorem acceptSeq_guardUs (seq : Bool) : (acceptSeq seq s).guardUs = s.guardUs := rfl

/-! ### `placeData` -/

@[simp] theorem placeData_param (rx : Rx) (d : List Byte) : (placeData rx d s).param = s.param := by
  unfold placeData; split <;> rfl
@[simp] theorem placeData_txSeq (rx : Rx) (d : List Byte) : (placeData rx d s).txSeq = s.txSeq := by
  unfold placeData; split <;> rfl
@[simp] theorem placeData_rxSeq (rx : Rx) (d : List Byte) : (placeData rx d s).rxSeq = s.rxSeq := by
  unfold placeData; split <;> rfl
@[simp] theorem placeData_atr (rx : Rx) (d : List Byte) : (placeData rx d s).atr = s.atr := by
  unfold placeData; split <;> rfl
@[simp] theorem placeData_snd (rx : Rx) (d : List Byte) : (placeData rx d s).snd = s.snd := by
  unfold placeData; split <;> rfl
@[simp] theorem placeData_phase (rx : Rx) (d : List Byte) : (placeData rx d s).phase = s.phase := by
  unfold placeData; split <;> rfl
@[simp] theorem placeData_fault (rx : Rx) (d : List Byte) : (placeData rx d s).fault = s.fault := by
  unfold placeData; split <;> rfl
@[simp] theorem placeData_trace (rx : Rx) (d : List Byte) : (placeData rx d s).trace = s.trace := by
  unfold placeData; split <;> rfl
@[simp] theorem placeData_engine (rx : Rx) (d : List Byte) : (placeData rx d s).engine = s.engine := by
  unfold placeData; split <;> rfl
@[simp] theorem placeData_result (rx : Rx) (d : List Byte) : (placeData rx d s).result = s.result := by
  unfold placeData; split <;> rfl
@[simp] theorem placeData_port (rx : Rx) (d : List Byte) : (placeData rx d s).port = s.port := by
  unfold placeData; split <;> rfl
@[simp] theorem placeData_chip (rx : Rx) (d : List Byte) : (placeData rx d s).chip = s.chip := by
  unfold placeData; split <;> rfl
@[simp] theorem placeData_fresh (rx : Rx) (d : List Byte) : (placeData rx d s).fresh = s.fresh := by
  unfold placeData; split <;> rfl
@[simp] theorem placeData_bwtUs (rx : Rx) (d : List Byte) : (placeData rx d s).bwtUs = s.bwtUs := by
  unfold placeData; split <;> rfl
@[simp] theorem placeData_pollUs (rx : Rx) (d : List Byte) : (placeData rx d s).pollUs = s.pollUs := by
  unfold placeData; split <;> rfl
@[simp] theorem placeData_guardUs (rx : Rx) (d : List Byte) : (placeData rx d s).guardUs = s.guardUs := by
  unfold placeData; split <;> rfl

/-! ### `forgetRest` -/

@[simp] theorem forgetRest_param (rx : Rx) : (forgetRest rx s).param = s.param := by
  unfold forgetRest; split <;> rfl
@[simp] theorem forgetRest_txSeq (rx : Rx) : (forgetRest rx s).txSeq = s.txSeq := by
  unfold forgetRest; split <;> rfl
@[simp] theorem forgetRest_rxSeq (rx : Rx) : (forgetRest rx s).rxSeq = s.rxSeq := by
  unfold forgetRest; split <;> rfl
@[simp] theorem forgetRest_atr (rx : Rx) : (forgetRest rx s).atr = s.atr := by
  unfold forgetRest; split <;> rfl
@[simp] theorem forgetRest_snd (rx : Rx) : (forgetRest rx s).snd = s.snd := by
  unfold forgetRest; split <;> rfl
@[simp] theorem forgetRest_phase (rx : Rx) : (forgetRest rx s).phase = s.phase := by
  unfold forgetRest; split <;> rfl
@[simp] theorem forgetRest_fault (rx : Rx) : (forgetRest rx s).fault = s.fault := by
  unfold forgetRest; split <;> rfl
@[simp] theorem forgetRest_trace (rx : Rx) : (forgetRest rx s).trace = s.trace := by
  unfold forgetRest; split <;> rfl
@[simp] theorem forgetRest_engine (rx : Rx) : (forgetRest rx s).engine = s.engine := by
  unfold forgetRest; split <;> rfl
@[simp] theorem forgetRest_scratch (rx : Rx) : (forgetRest rx s).scratch = s.scratch := by
  unfold forgetRest; split <;> rfl
@[simp] theorem forgetRest_result (rx : Rx) : (forgetRest rx s).result = s.result := by
  unfold forgetRest; split <;> rfl
@[simp] theorem forgetRest_port (rx : Rx) : (forgetRest rx s).port = s.port := by
  unfold forgetRest; split <;> rfl
@[simp] theorem forgetRest_chip (rx : Rx) : (forgetRest rx s).chip = s.chip := by
  unfold forgetRest; split <;> rfl
@[simp] theorem forgetRest_fresh (rx : Rx) : (forgetRest rx s).fresh = s.fresh := by
  unfold forgetRest; split <;> rfl
@[simp] theorem forgetRest_bwtUs (rx : Rx) : (forgetRest rx s).bwtUs = s.bwtUs := by
  unfold forgetRest; split <;> rfl
@[simp] theorem forgetRest_pollUs (rx : Rx) : (forgetRest rx s).pollUs = s.pollUs := by
  unfold forgetRest; split <;> rfl
@[simp] theorem forgetRest_guardUs (rx : Rx) : (forgetRest rx s).guardUs = s.guardUs := by
  unfold forgetRest; split <;> rfl

/-- The intervals depend on `atr` and the parameters alone (10_state.md R48). -/
theorem State.intervals_congr {s t : State} (ha : t.atr = s.atr) (hp : t.param = s.param) :
    t.bwtUs = s.bwtUs ∧ t.pollUs = s.pollUs ∧ t.guardUs = s.guardUs := by
  simp [State.bwtUs, State.pollUs, State.guardUs, ha, hp]

/-- The end of an operation, as the statements write it. -/
theorem State.complete_eq_endState (r : Result) : s.complete r = endState s r := rfl

/-- A raised error, as the statements write it. -/
theorem State.raise_eq_endState (e : Err) : s.raise e = endState s (.err e) := rfl

end Sys2Proof.Machine
end

