-- ==== Sys2Proof/Laws/Ops.lean ====
section
/-! SUPPORT. What each shared bus operation can do, said once: a bus operation extends the trace with events of the
right form, uses answers, and changes nothing else. -/

namespace Sys2Proof.Machine

/-- `t` is `s` after bus activity alone: events that satisfy `Q` appended, answers used. -/
def Ext (Q : Event → Prop) (s t : State) : Prop :=
  ∃ evs chip fresh, t = { s with trace := s.trace ++ evs, chip := chip, fresh := fresh } ∧ ∀ e ∈ evs, Q e

theorem Ext.refl (Q : Event → Prop) (s : State) : Ext Q s s :=
  ⟨[], s.chip, s.fresh, by simp, by simp⟩

theorem Ext.trans {Q : Event → Prop} {s t u : State} (h : Ext Q s t) (h' : Ext Q t u) : Ext Q s u := by
  obtain ⟨es, c, f, rfl, he⟩ := h
  obtain ⟨es', c', f', rfl, he'⟩ := h'
  refine ⟨es ++ es', c', f', by simp, ?_⟩
  intro e h
  rcases List.mem_append.mp h with h | h
  · exact he e h
  · exact he' e h

theorem Ext.mono {Q R : Event → Prop} {s t : State} (hQ : ∀ e, Q e → R e) (h : Ext Q s t) : Ext R s t := by
  obtain ⟨es, c, f, rfl, he⟩ := h
  exact ⟨es, c, f, rfl, fun e h => hQ e (he e h)⟩

theorem Ext.emit {Q : Event → Prop} (s : State) {e : Event} (h : Q e) : Ext Q s (s.emit e) :=
  ⟨[e], s.chip, s.fresh, rfl, by simpa using h⟩

/-- The fields bus activity leaves alone. -/
theorem Ext.fields {Q : Event → Prop} {s t : State} (h : Ext Q s t) :
    t.param = s.param ∧ t.txSeq = s.txSeq ∧ t.rxSeq = s.rxSeq ∧ t.atr = s.atr ∧ t.snd = s.snd ∧
    t.phase = s.phase ∧ t.fault = s.fault ∧ t.engine = s.engine ∧ t.mem = s.mem ∧ t.scratch = s.scratch ∧
    t.result = s.result ∧ t.port = s.port := by
  obtain ⟨es, c, f, rfl, _⟩ := h
  exact ⟨rfl, rfl, rfl, rfl, rfl, rfl, rfl, rfl, rfl, rfl, rfl, rfl⟩

theorem Ext.trace {Q : Event → Prop} {s t : State} (h : Ext Q s t) :
    ∃ evs, t.trace = s.trace ++ evs ∧ ∀ e ∈ evs, Q e := by
  obtain ⟨es, c, f, rfl, he⟩ := h
  exact ⟨es, rfl, he⟩

/-! ### Transactions -/

@[simp] theorem fitRead_length (free : Nat → Byte) (n : Nat) (bs : List Byte) :
    (fitRead free n bs).length = n := by
  induction n generalizing bs with
  | zero => rfl
  | succ n ih => cases bs <;> simp [fitRead, ih]

/-- An answer of exactly the length read is delivered as it is. -/
@[simp] theorem fitRead_self (free : Nat → Byte) (bs : List Byte) : fitRead free bs.length bs = bs := by
  induction bs with
  | nil => rfl
  | cons b bs ih => simp [fitRead, ih]

theorem fitRead_eq {free : Nat → Byte} {n : Nat} {bs : List Byte} (h : bs.length = n) :
    fitRead free n bs = bs := by subst h; simp

/-- A write with an answer at hand. -/
theorem busWrite_at {s : State} {a : BusAnswer} {rest : List BusAnswer} (h : s.chip = a :: rest)
    (f : List Byte) :
    busWrite f s = (writeResultOf a,
      { s with chip := rest, fresh := s.fresh + 1,
               trace := s.trace ++ [.busWrite s.param.i2cAddr f (writeResultOf a)] }) := by
  simp [busWrite, State.answer, State.answered, State.emit, h]

/-- A read with an answer at hand. -/
theorem busRead_at {s : State} {a : BusAnswer} {rest : List BusAnswer} (h : s.chip = a :: rest) (n : Nat) :
    busRead n s = (readResultOf (Config.freeByte s.fresh) n a,
      { s with chip := rest, fresh := s.fresh + 1,
               trace := s.trace ++
                 [.busRead s.param.i2cAddr n (readResultOf (Config.freeByte s.fresh) n a)] }) := by
  simp [busRead, State.answer, State.answered, State.emit, h]

/-- All a write does: one event. -/
theorem busWrite_ext (f : List Byte) (s : State) :
    Ext (fun e => e = .busWrite s.param.i2cAddr f (busWrite f s).1) s (busWrite f s).2 :=
  ⟨[_], s.chip.tail, s.fresh + 1, rfl, by simp [busWrite]⟩

/-- All a read does: one event. -/
theorem busRead_ext (n : Nat) (s : State) :
    Ext (fun e => e = .busRead s.param.i2cAddr n (busRead n s).1) s (busRead n s).2 :=
  ⟨[_], s.chip.tail, s.fresh + 1, rfl, by simp [busRead]⟩

/-- A read that succeeds gives exactly the bytes asked for (20_memory.md R82). -/
theorem busRead_ok_length {n : Nat} {s : State} {bs : List Byte} (h : (busRead n s).1 = .ok bs) :
    bs.length = n := by
  simp only [busRead, readResultOf] at h
  split at h
  · cases h; simp
  · cases h

/-- A read leaves one answer fewer at hand, if one was. -/
theorem busRead_chip (n : Nat) (s : State) : (busRead n s).2.chip = s.chip.tail := rfl

/-- A write leaves one answer fewer at hand, if one was. -/
theorem busWrite_chip (f : List Byte) (s : State) : (busWrite f s).2.chip = s.chip.tail := rfl

/-! ### Frames -/

@[simp] theorem le16_length (v : Half) : (le16 v).length = 2 := rfl

theorem frameBytes_length (nad : Byte) (p : Pcb) (d : List Byte) :
    (frameBytes nad p d).length = d.length + 5 := by
  simp [frameBytes]

theorem buildFrame_eq {P : Params} {p : Pcb} {d : List Byte} (h : d.length ≤ Config.maxData) :
    buildFrame P p d = some (frameBytes P.nadH2C p d) := by
  simp [buildFrame, Nat.not_lt.mpr h]

theorem buildFrame_length {P : Params} {p : Pcb} {d f : List Byte} (h : buildFrame P p d = some f) :
    5 ≤ f.length ∧ f.length ≤ 259 := by
  unfold buildFrame at h
  split at h
  · cases h
  · next hd =>
    cases h
    rw [frameBytes_length]
    simp only [Config.maxData] at hd
    omega

/-! ### The frame write -/

/-- The events of a frame write: writes of the frame to the block's address, and waits. -/
def WriteEvent (s : State) (f : List Byte) (e : Event) : Prop :=
  (∃ r, e = .busWrite s.param.i2cAddr f r) ∨ e = .delay s.pollUs

/-- All the write loop can do (43_frame_sender.md R300). -/
theorem writeAttempts_cases (k : Nat) (f : List Byte) (s : State) :
    (∃ t, writeAttempts k f s = .ok () t ∧ Ext (WriteEvent s f) s t) ∨
    (∃ t, writeAttempts k f s = .raised .timeout t ∧ Ext (WriteEvent s f) s t) ∨
    (∃ e t, e ≠ .addrNack ∧ writeAttempts k f s = .raised (.bus e) t ∧ Ext (WriteEvent s f) s t) := by
  have hext : ∀ s, Ext (WriteEvent s f) s (busWrite f s).2 := fun s =>
    (busWrite_ext f s).mono fun e he => .inl ⟨_, he⟩
  induction k generalizing s with
  | zero =>
    have hx := hext s
    unfold writeAttempts
    rcases hw : busWrite f s with ⟨r, t⟩
    rw [hw] at hx
    cases r with
    | ok => exact .inl ⟨t, rfl, hx⟩
    | fail e => cases e with
      | addrNack => exact .inr (.inl ⟨t, rfl, hx⟩)
      | dataNack => exact .inr (.inr ⟨_, t, by simp, rfl, hx⟩)
      | other n => exact .inr (.inr ⟨_, t, by simp, rfl, hx⟩)
  | succ k ih =>
    have hx := hext s
    unfold writeAttempts
    rcases hw : busWrite f s with ⟨r, t⟩
    rw [hw] at hx
    cases r with
    | ok => exact .inl ⟨t, rfl, hx⟩
    | fail e => cases e with
      | dataNack => exact .inr (.inr ⟨_, t, by simp, rfl, hx⟩)
      | other n => exact .inr (.inr ⟨_, t, by simp, rfl, hx⟩)
      | addrNack =>
        have hf := hx.fields
        have hi := State.intervals_congr (s := s) (t := t) hf.2.2.2.1 hf.1
        have hp : Ext (WriteEvent s f) s t.pollWait :=
          hx.trans (Ext.emit t (.inr (by rw [← hi.2.1])))
        have hQ : ∀ e, WriteEvent t.pollWait f e → WriteEvent s f e := by
          intro e he
          rcases he with ⟨r, rfl⟩ | rfl
          · exact .inl ⟨r, by rw [State.pollWait_param, hf.1]⟩
          · exact .inr (by rw [State.pollWait_pollUs, hi.2.1])
        rcases ih t.pollWait with ⟨u, h1, h2⟩ | ⟨u, h1, h2⟩ | ⟨e, u, h0, h1, h2⟩
        · exact .inl ⟨u, h1, hp.trans (h2.mono hQ)⟩
        · exact .inr (.inl ⟨u, h1, hp.trans (h2.mono hQ)⟩)
        · exact .inr (.inr ⟨e, u, h0, h1, hp.trans (h2.mono hQ)⟩)

/-- All a frame write can do (43_frame_sender.md R300, R301; 40_frame_codec.md R174). -/
theorem writeFrame_cases (p : Pcb) (d : List Byte) (s : State) :
    (Config.maxData < d.length ∧ writeFrame p d s = .stuck .programmingError s) ∨
    (d.length ≤ Config.maxData ∧
      ((∃ t, writeFrame p d s = .ok () t ∧ Ext (WriteEvent s (frameBytes s.param.nadH2C p d)) s t) ∨
       (∃ t, writeFrame p d s = .raised .timeout t ∧ Ext (WriteEvent s (frameBytes s.param.nadH2C p d)) s t) ∨
       (∃ e t, e ≠ .addrNack ∧ writeFrame p d s = .raised (.bus e) t ∧
          Ext (WriteEvent s (frameBytes s.param.nadH2C p d)) s t))) := by
  by_cases h : Config.maxData < d.length
  · exact .inl ⟨h, by simp [writeFrame, buildFrame, h]⟩
  · have h' := Nat.not_lt.mp h
    refine .inr ⟨h', ?_⟩
    simpa [writeFrame, buildFrame_eq h'] using
      writeAttempts_cases (s.param.writeRetries - 1) (frameBytes s.param.nadH2C p d) s

/-- A frame write whose first answer is at hand and good. -/
theorem writeFrame_ok_at {s : State} {b : List Byte} {rest : List BusAnswer} (h : s.chip = .ok b :: rest)
    (p : Pcb) {d : List Byte} (hd : d.length ≤ Config.maxData) :
    writeFrame p d s = .ok () { s with chip := rest, fresh := s.fresh + 1,
                                       trace := s.trace ++ [writeEvent s p d .ok] } := by
  rw [writeFrame, buildFrame_eq hd]
  cases s.param.writeRetries - 1 <;> simp [writeAttempts, busWrite_at h, writeResultOf, writeEvent]

/-! ### Commands -/

/-- A command on a ready block runs (10_state.md R53). -/
theorem command_ready {s : State} (h : s.Ready) (op : Op) (body : State → Ran Value) :
    command op body s = .next (finish (body (s.accept op))) := by
  simp [command, h.1, h.2]

/-- A command that answers a next state found the block ready. -/
theorem command_next {op : Op} {body : State → Ran Value} {s t : State} (h : command op body s = .next t) :
    s.Ready ∧ t = finish (body (s.accept op)) := by
  unfold command at h
  split at h
  · cases h
  · next hf =>
    split at h
    · cases h
    · next hp => cases h; exact ⟨⟨hp, hf⟩, rfl⟩

end Sys2Proof.Machine
end

