-- ==== Sys2Proof/Laws/PerInstr.lean ====
section
/-! SUPPORT. The family of statements made per instruction: an instruction's encoding carries the fixed bits of its
row of spec/opcode_table.json. -/

namespace Sys2Proof.Laws.OpcodeBits

/-- The byte the table gives bits of: a frame's PCB (30_encoding.md R110), a command's code (R140). -/
def opcodeByte : Encoded → Byte
  | .frame bytes => bytes.getD 1 0
  | .command c => c.code

/-- The mask and the match of the instruction's row. -/
def row : Instr → Byte × Byte
  | .iBlock _ _ _ => (0x80, 0x00)
  | .rNone _ _ => (0xEF, 0x80)
  | .rChecksum _ _ => (0xEF, 0x81)
  | .rOther _ _ => (0xEF, 0x82)
  | .sResyncRequest _ => (0xFF, 0xC0)
  | .sIfsRequest _ => (0xFF, 0xC1)
  | .sAbortRequest _ => (0xFF, 0xC2)
  | .sWtxRequest _ => (0xFF, 0xC3)
  | .sEndSessionRequest _ => (0xFF, 0xC5)
  | .sChipResetRequest _ => (0xFF, 0xC6)
  | .sGetAtrRequest _ => (0xFF, 0xC7)
  | .sInterfaceSoftResetRequest _ => (0xFF, 0xCF)
  | .sResyncResponse _ => (0xFF, 0xE0)
  | .sIfsResponse _ => (0xFF, 0xE1)
  | .sAbortResponse _ => (0xFF, 0xE2)
  | .sWtxResponse _ => (0xFF, 0xE3)
  | .sEndSessionResponse _ => (0xFF, 0xE5)
  | .sChipResetResponse _ => (0xFF, 0xE6)
  | .sGetAtrResponse _ => (0xFF, 0xE7)
  | .sInterfaceSoftResetResponse _ => (0xFF, 0xEF)
  | .encodePcb _ => (0xFF, 0x01)
  | .decodePcb _ => (0xFF, 0x02)
  | .checksum _ _ => (0xFF, 0x03)
  | .resync => (0xFF, 0x10)
  | .resetNegotiate _ => (0xFF, 0x11)
  | .receive _ => (0xFF, 0x12)
  | .waitGuard => (0xFF, 0x13)
  | .waitPoll => (0xFF, 0x14)
  | .sopen _ => (0xFF, 0x20)
  | .swrite _ => (0xFF, 0x21)
  | .sflush => (0xFF, 0x22)

/-- The encoding of `i` is an encoding of its row. -/
def Statement (i : Instr) : Prop := ∀ P : Params, opcodeByte (encode P i) &&& (row i).1 = (row i).2

theorem iBlock (seq more : Bool) (data : List Byte) : Statement (.iBlock seq more data) := by
  intro P; show encodePcbByte (.i seq more) &&& 0x80 = 0x00; cases seq <;> cases more <;> decide

theorem rNone (seq : Bool) (data : List Byte) : Statement (.rNone seq data) := by
  intro P; show encodePcbByte (.r seq .none) &&& 0xEF = 0x80; cases seq <;> decide

theorem rChecksum (seq : Bool) (data : List Byte) : Statement (.rChecksum seq data) := by
  intro P; show encodePcbByte (.r seq .checksum) &&& 0xEF = 0x81; cases seq <;> decide

theorem rOther (seq : Bool) (data : List Byte) : Statement (.rOther seq data) := by
  intro P; show encodePcbByte (.r seq .other) &&& 0xEF = 0x82; cases seq <;> decide

theorem sResyncRequest (data : List Byte) : Statement (.sResyncRequest data) := by
  intro P; show SCode.byte .resyncRequest &&& 0xFF = 0xC0; decide

theorem sIfsRequest (data : List Byte) : Statement (.sIfsRequest data) := by
  intro P; show SCode.byte .ifsRequest &&& 0xFF = 0xC1; decide

theorem sAbortRequest (data : List Byte) : Statement (.sAbortRequest data) := by
  intro P; show SCode.byte .abortRequest &&& 0xFF = 0xC2; decide

theorem sWtxRequest (data : List Byte) : Statement (.sWtxRequest data) := by
  intro P; show SCode.byte .wtxRequest &&& 0xFF = 0xC3; decide

theorem sEndSessionRequest (data : List Byte) : Statement (.sEndSessionRequest data) := by
  intro P; show SCode.byte .endSessionRequest &&& 0xFF = 0xC5; decide

theorem sChipResetRequest (data : List Byte) : Statement (.sChipResetRequest data) := by
  intro P; show SCode.byte .chipResetRequest &&& 0xFF = 0xC6; decide

theorem sGetAtrRequest (data : List Byte) : Statement (.sGetAtrRequest data) := by
  intro P; show SCode.byte .getAtrRequest &&& 0xFF = 0xC7; decide

theorem sInterfaceSoftResetRequest (data : List Byte) : Statement (.sInterfaceSoftResetRequest data) := by
  intro P; show SCode.byte .interfaceSoftResetRequest &&& 0xFF = 0xCF; decide

theorem sResyncResponse (data : List Byte) : Statement (.sResyncResponse data) := by
  intro P; show SCode.byte .resyncResponse &&& 0xFF = 0xE0; decide

theorem sIfsResponse (data : List Byte) : Statement (.sIfsResponse data) := by
  intro P; show SCode.byte .ifsResponse &&& 0xFF = 0xE1; decide

theorem sAbortResponse (data : List Byte) : Statement (.sAbortResponse data) := by
  intro P; show SCode.byte .abortResponse &&& 0xFF = 0xE2; decide

theorem sWtxResponse (data : List Byte) : Statement (.sWtxResponse data) := by
  intro P; show SCode.byte .wtxResponse &&& 0xFF = 0xE3; decide

theorem sEndSessionResponse (data : List Byte) : Statement (.sEndSessionResponse data) := by
  intro P; show SCode.byte .endSessionResponse &&& 0xFF = 0xE5; decide

theorem sChipResetResponse (data : List Byte) : Statement (.sChipResetResponse data) := by
  intro P; show SCode.byte .chipResetResponse &&& 0xFF = 0xE6; decide

theorem sGetAtrResponse (data : List Byte) : Statement (.sGetAtrResponse data) := by
  intro P; show SCode.byte .getAtrResponse &&& 0xFF = 0xE7; decide

theorem sInterfaceSoftResetResponse (data : List Byte) : Statement (.sInterfaceSoftResetResponse data) := by
  intro P; show SCode.byte .interfaceSoftResetResponse &&& 0xFF = 0xEF; decide

theorem encodePcb (p : Pcb) : Statement (.encodePcb p) := by
  intro P; show (0x01 : Byte) &&& 0xFF = 0x01; decide

theorem decodePcb (b : Byte) : Statement (.decodePcb b) := by
  intro P; show (0x02 : Byte) &&& 0xFF = 0x02; decide

theorem checksum (header data : List Byte) : Statement (.checksum header data) := by
  intro P; show (0x03 : Byte) &&& 0xFF = 0x03; decide

theorem resync : Statement .resync := by
  intro P; show (0x10 : Byte) &&& 0xFF = 0x10; decide

theorem resetNegotiate (buf : Buffer) : Statement (.resetNegotiate buf) := by
  intro P; show (0x11 : Byte) &&& 0xFF = 0x11; decide

theorem receive (buf : Buffer) : Statement (.receive buf) := by
  intro P; show (0x12 : Byte) &&& 0xFF = 0x12; decide

theorem waitGuard : Statement .waitGuard := by
  intro P; show (0x13 : Byte) &&& 0xFF = 0x13; decide

theorem waitPoll : Statement .waitPoll := by
  intro P; show (0x14 : Byte) &&& 0xFF = 0x14; decide

theorem sopen (total : Nat) : Statement (.sopen total) := by
  intro P; show (0x20 : Byte) &&& 0xFF = 0x20; decide

theorem swrite (x : List Byte) : Statement (.swrite x) := by
  intro P; show (0x21 : Byte) &&& 0xFF = 0x21; decide

theorem sflush : Statement .sflush := by
  intro P; show (0x22 : Byte) &&& 0xFF = 0x22; decide

end Sys2Proof.Laws.OpcodeBits
end

