-- ==== Sys2Proof/Laws/Receive.lean ====
section
/-! SUPPORT. What a reception can do, said once for each of its parts. -/

namespace Sys2Proof.Machine

/-- The state in which a part of an operation ends. -/
def Ran.state {α : Type} : Ran α → State
  | .ok _ s => s
  | .raised _ s => s
  | .stuck _ s => s
  | .waiting s => s

/-- Everything a reception with the client and buffer of `rx` can change from `s` to `t`, besides its locals: the
trace grows by events of the right form, the bus is used, `rx_seq` may change, the client's buffer may change, and
a client other than RECEIVE may write the counters and `atr`. -/
structure Received (rx : Rx) (s t : State) : Prop where
  param   : t.param = s.param
  snd     : t.snd = s.snd
  phase   : t.phase = s.phase
  fault   : t.fault = s.fault
  result  : t.result = s.result
  port    : t.port = s.port
  txSeq   : rx.client = .receive → t.txSeq = s.txSeq
  atr     : rx.client ≠ .resetNegotiate → t.atr = s.atr
  outside : ∀ a, a < rx.buf.base ∨ rx.buf.base + rx.buf.capacity ≤ a → Memory.read t.mem a = Memory.read s.mem a
  mem     : rx.client = .resync → t.mem = s.mem
  memWf   : Memory.wf s.mem = true → Memory.wf t.mem = true
  scrWf   : Memory.wf s.scratch = true → Memory.wf t.scratch = true
  trace   : ∃ evs, t.trace = s.trace ++ evs ∧ ∀ e ∈ evs, Event.ok s.param.i2cAddr e = true

theorem Received.refl (rx : Rx) (s : State) : Received rx s s :=
  ⟨rfl, rfl, rfl, rfl, rfl, rfl, fun _ => rfl, fun _ => rfl, fun _ _ => rfl, fun _ => rfl, id, id,
    [], by simp, by simp⟩

theorem Received.trans {rx : Rx} {s t u : State} (h : Received rx s t) (k : Received rx t u) :
    Received rx s u where
  param := k.param.trans h.param
  snd := k.snd.trans h.snd
  phase := k.phase.trans h.phase
  fault := k.fault.trans h.fault
  result := k.result.trans h.result
  port := k.port.trans h.port
  txSeq c := (k.txSeq c).trans (h.txSeq c)
  atr c := (k.atr c).trans (h.atr c)
  outside a ha := (k.outside a ha).trans (h.outside a ha)
  mem c := (k.mem c).trans (h.mem c)
  memWf w := k.memWf (h.memWf w)
  scrWf w := k.scrWf (h.scrWf w)
  trace := by
    obtain ⟨es, h1, h2⟩ := h.trace
    obtain ⟨fs, k1, k2⟩ := k.trace
    refine ⟨es ++ fs, by simp [h1, k1], fun e he => ?_⟩
    rcases List.mem_append.mp he with he | he
    · exact h2 e he
    · have := k2 e he
      rwa [h.param] at this

/-- The same reception, at another point of its loop. -/
def SameReception (rx rx' : Rx) : Prop := rx'.client = rx.client ∧ rx'.buf = rx.buf

theorem Received.congr {rx rx' : Rx} {s t : State} (e : SameReception rx rx') (h : Received rx' s t) :
    Received rx s t := by
  obtain ⟨e1, e2⟩ := e
  constructor
  case txSeq => exact fun c => h.txSeq (by rw [e1]; exact c)
  case atr => exact fun c => h.atr (by rw [e1]; exact c)
  case outside => intro a ha; exact h.outside a (by rw [e2]; exact ha)
  case mem => exact fun c => h.mem (by rw [e1]; exact c)
  all_goals first
    | exact h.param | exact h.snd | exact h.phase | exact h.fault | exact h.result | exact h.port
    | exact h.memWf | exact h.scrWf | exact h.trace

/-- Bus activity is part of a reception. -/
theorem Received.of_ext {rx : Rx} {s t : State} (h : Ext (fun e => Event.ok s.param.i2cAddr e = true) s t) :
    Received rx s t := by
  obtain ⟨es, c, f, rfl, he⟩ := h
  exact ⟨rfl, rfl, rfl, rfl, rfl, rfl, fun _ => rfl, fun _ => rfl, fun _ _ => rfl, fun _ => rfl, id, id, es, rfl, he⟩

/-- New locals are part of a reception. -/
theorem Received.engine (rx : Rx) (s : State) (e : Engine) : Received rx s { s with engine := e } :=
  ⟨rfl, rfl, rfl, rfl, rfl, rfl, fun _ => rfl, fun _ => rfl, fun _ _ => rfl, fun _ => rfl, id, id,
    [], by simp, by simp⟩

/-! ### Its parts -/

theorem Rx.fits_iff (rx : Rx) (n : Nat) :
    rx.fits n = true ↔ n ≤ Config.maxData ∧ rx.written + n ≤ rx.buf.capacity := by
  simp [Rx.fits]

/-- Data that fits is placed inside the buffer (20_memory.md R85). -/
theorem placeData_received {rx : Rx} {d : List Byte} (h : rx.fits d.length = true) (s : State) :
    Received rx s (placeData rx d s) := by
  have hf := (rx.fits_iff d.length).mp h
  have hout : ∀ a, a < rx.buf.base ∨ rx.buf.base + rx.buf.capacity ≤ a →
      Memory.read (Memory.writeBytes s.mem (rx.buf.base + rx.written) d) a = Memory.read s.mem a := by
    intro a ha
    exact Memory.read_writeBytes_outside _ _ (by omega)
  unfold placeData
  split
  · exact ⟨rfl, rfl, rfl, rfl, rfl, rfl, fun _ => rfl, fun _ => rfl, fun _ _ => rfl, fun _ => rfl, id,
      fun w => Memory.wf_writeBytes w _ _, [], by simp, by simp⟩
  · next hc =>
    exact ⟨rfl, rfl, rfl, rfl, rfl, rfl, fun _ => rfl, fun _ => rfl, hout,
      fun c => (nomatch hc.symm.trans c), fun w => Memory.wf_writeBytes w _ _, id, [], by simp, by simp⟩
  · next hc =>
    exact ⟨rfl, rfl, rfl, rfl, rfl, rfl, fun _ => rfl, fun _ => rfl, hout,
      fun c => (nomatch hc.symm.trans c), fun w => Memory.wf_writeBytes w _ _, id, [], by simp, by simp⟩

/-- Forgetting stays inside the buffer. -/
theorem forgetRest_received (rx : Rx) (s : State) : Received rx s (forgetRest rx s) := by
  have hout : ∀ a, a < rx.buf.base ∨ rx.buf.base + rx.buf.capacity ≤ a →
      Memory.read (Memory.forget s.mem (rx.buf.base + rx.written) (rx.buf.base + rx.buf.capacity)) a
        = Memory.read s.mem a := by
    intro a ha
    exact Memory.read_forget_outside _ (by omega)
  unfold forgetRest
  split
  · exact Received.refl rx s
  · next hc =>
    exact ⟨rfl, rfl, rfl, rfl, rfl, rfl, fun _ => rfl, fun _ => rfl, hout,
      fun c => (nomatch hc.symm.trans c), fun w => Memory.wf_forget w _ _, id, [], by simp, by simp⟩
  · next hc =>
    exact ⟨rfl, rfl, rfl, rfl, rfl, rfl, fun _ => rfl, fun _ => rfl, hout,
      fun c => (nomatch hc.symm.trans c), fun w => Memory.wf_forget w _ _, id, [], by simp, by simp⟩

/-- A part of a reception has ended in `r`: it changed what a reception can change, and where it waits it is still
the same reception, within its capacity. -/
def RxResult (rx : Rx) (s : State) (r : Ran Value) : Prop :=
  Received rx s r.state ∧
  ∀ t, r = .waiting t → ∃ rx', t.engine = .receiving rx' ∧ SameReception rx rx' ∧
    rx'.written ≤ rx.buf.capacity

theorem RxResult.of_received {rx : Rx} {s t : State} {r : Ran Value} (h : Received rx s t)
    (k : RxResult rx t r) : RxResult rx s r :=
  ⟨h.trans k.1, k.2⟩

theorem RxResult.congr {rx rx' : Rx} {s : State} {r : Ran Value} (e : SameReception rx rx')
    (h : RxResult rx' s r) : RxResult rx s r := by
  refine ⟨h.1.congr e, fun t ht => ?_⟩
  obtain ⟨x, h1, h2, h3⟩ := h.2 t ht
  exact ⟨x, h1, ⟨h2.1.trans e.1, h2.2.trans e.2⟩, by rw [← e.2]; exact h3⟩

theorem failReception_result (e : Err) (rx : Rx) (s : State) : RxResult rx s (failReception e rx s) :=
  ⟨forgetRest_received rx s, fun t ht => by cases ht⟩

/-- All `conclude` does. -/
theorem conclude_result (rx : Rx) (out : Value) (s : State) : RxResult rx s (conclude rx out s) := by
  unfold conclude
  split
  · exact ⟨Received.refl rx s, fun t ht => by cases ht⟩
  · next hc =>
    split
    · exact ⟨⟨rfl, rfl, rfl, rfl, rfl, rfl, fun c => (nomatch hc.symm.trans c), fun _ => rfl, fun _ _ => rfl,
        fun _ => rfl, id, id, [], by simp [Ran.state], by simp⟩, fun t ht => by cases ht⟩
    · exact failReception_result _ rx s
  · next hc =>
    split
    · exact ⟨⟨rfl, rfl, rfl, rfl, rfl, rfl, fun c => (nomatch hc.symm.trans c),
        fun c => absurd hc c, fun _ _ => rfl,
        fun _ => rfl, id, id, [], by simp [Ran.state], by simp⟩, fun t ht => by cases ht⟩
    · exact failReception_result _ rx s

/-- The events of a frame write have the right form. -/
theorem writeEvent_ok {s : State} {p : Pcb} {d : List Byte} (hd : d.length ≤ Config.maxData) {e : Event}
    (h : WriteEvent s (frameBytes s.param.nadH2C p d) e) : Event.ok s.param.i2cAddr e = true := by
  rcases h with ⟨r, rfl⟩ | rfl
  · have := buildFrame_length (buildFrame_eq (P := s.param) (p := p) hd)
    simp [Event.ok, this.1, this.2]
  · rfl

/-- A frame write, as part of any operation. -/
theorem writeFrame_ext (p : Pcb) (d : List Byte) (s : State) :
    Ext (fun e => Event.ok s.param.i2cAddr e = true) s (writeFrame p d s).state ∧
    ∀ t, writeFrame p d s ≠ .waiting t := by
  rcases writeFrame_cases p d s with ⟨_, h⟩ | ⟨hd, ⟨t, h, hx⟩ | ⟨t, h, hx⟩ | ⟨e, t, _, h, hx⟩⟩
  · rw [h]; exact ⟨Ext.refl _ _, fun t ht => by cases ht⟩
  all_goals
    rw [h]; exact ⟨hx.mono fun e he => writeEvent_ok hd he, fun t ht => by cases ht⟩

/-- All the WTX handler does. -/
theorem receiveWtx_result {rx : Rx} (hw : rx.written ≤ rx.buf.capacity) (d : List Byte) (s : State) :
    RxResult rx s (receiveWtx rx d s) := by
  unfold receiveWtx
  split
  · next m =>
    have hx := writeFrame_ext (.s .wtxResponse) [m] s
    split
    · next s1 heq =>
      rw [heq] at hx
      have hr : Received rx s s1 := Received.of_ext hx.1
      split
      · refine ⟨hr.trans (Received.engine rx _ _), fun t ht => ?_⟩
        cases ht
        exact ⟨_, rfl, ⟨rfl, rfl⟩, hw⟩
      · exact ⟨hr, fun t ht => by cases ht⟩
    · next s1 heq =>
      rw [heq] at hx
      exact RxResult.of_received (Received.of_ext hx.1) (failReception_result _ rx _)
    · next s1 heq =>
      rw [heq] at hx
      exact ⟨Received.of_ext hx.1, fun t ht => by cases ht⟩
    · next s1 heq => exact absurd heq (hx.2 s1)
  · exact failReception_result _ rx s

/-- What accepting a sequence bit does. -/
theorem acceptSeq_received (rx : Rx) (seq : Bool) (s : State) : Received rx s (acceptSeq seq s) := by
  refine ⟨rfl, rfl, rfl, rfl, rfl, rfl, fun _ => rfl, fun _ => rfl, fun _ _ => rfl, fun _ => rfl, id, id,
    mismatchEvents s.rxSeq seq, rfl, ?_⟩
  intro e he
  unfold mismatchEvents at he
  split at he
  · next h => simp at he; subst he; simpa [Event.ok, seqMismatched] using h
  · simp at he

theorem Rx.chained_same (rx : Rx) (P : Params) :
    SameReception rx (rx.chained P) ∧ (rx.chained P).written = rx.written := by
  unfold Rx.chained
  split <;> exact ⟨⟨rfl, rfl⟩, rfl⟩

/-- All an I-block does. -/
theorem receiveI_result {rx : Rx} {d : List Byte} (hf : rx.fits d.length = true) (seq more : Bool)
    (s : State) : RxResult rx s (receiveI rx seq more d s) := by
  have hfit := (rx.fits_iff d.length).mp hf
  have hs : SameReception rx { rx with written := rx.written + d.length } := ⟨rfl, rfl⟩
  refine RxResult.of_received (acceptSeq_received rx seq s) ?_
  unfold receiveI
  split
  · exact RxResult.congr hs (conclude_result _ _ _)
  · dsimp only
    have hx := writeFrame_ext (.r (acceptSeq seq s).rxSeq .none) [] (acceptSeq seq s)
    split
    · next s2 heq =>
      rw [heq] at hx
      refine ⟨(Received.of_ext hx.1).trans (Received.engine rx _ _), fun t ht => ?_⟩
      cases ht
      have hc := Rx.chained_same { rx with written := rx.written + d.length } s2.param
      exact ⟨_, rfl, ⟨hc.1.1, hc.1.2⟩, by rw [hc.2]; exact hfit.2⟩
    · next heq =>
      rw [heq] at hx
      exact RxResult.of_received (Received.of_ext hx.1) (RxResult.congr hs (failReception_result _ _ _))
    · next heq =>
      rw [heq] at hx
      exact ⟨Received.of_ext hx.1, fun t ht => by cases ht⟩
    · next s2 heq => exact absurd heq (hx.2 s2)

/-- All a frame does in a reception. -/
theorem receiveFrame_result {rx : Rx} (hw : rx.written ≤ rx.buf.capacity) (p : Pcb) (d : List Byte)
    (s : State) : RxResult rx s (receiveFrame rx p d s) := by
  unfold receiveFrame
  split
  · exact failReception_result _ rx s
  · next h =>
    have hf : rx.fits d.length = true := by simpa using h
    refine RxResult.of_received (placeData_received hf s) ?_
    split
    · exact receiveWtx_result hw d _
    · exact conclude_result _ _ _
    · exact failReception_result _ rx _
    · exact receiveI_result hf _ _ _

/-! ### Fetching a frame -/

/-- The state of a fetch. -/
def Fetched.state : Fetched → State
  | .notReady s => s
  | .raised _ s => s
  | .frame _ _ s => s

/-- A guarded read, as part of any operation. -/
theorem busRead_guarded_ext {n : Nat} (h : 2 ≤ n ∧ n ≤ 256) (s : State) :
    Ext (fun e => Event.ok s.param.i2cAddr e = true) s (busRead n s.guardWait).2 := by
  have h1 : Ext (fun e => Event.ok s.param.i2cAddr e = true) s s.guardWait := Ext.emit s rfl
  refine h1.trans ((busRead_ext n s.guardWait).mono ?_)
  rintro e rfl
  rcases hr : (busRead n s.guardWait).1 with bs | e
  · simp [Event.ok, h.1, h.2, busRead_ok_length hr]
  · simp [Event.ok, h.1, h.2]

/-- The body length never passes 256 bytes (20_memory.md R92). -/
theorem Rx.fits_body {rx : Rx} {n : Nat} (h : rx.fits n = true) :
    2 ≤ n + Config.crcLen ∧ n + Config.crcLen ≤ 256 := by
  have := (rx.fits_iff n).mp h
  simp only [Config.maxData, Config.crcLen] at *
  omega

/-- A frame that decodes from a header and its body has the length of its header. -/
theorem decodeFrame_length {P : Params} {h t : List Byte} {f : Pcb × List Byte}
    (hh : h.length = 3) (ht : t.length = (h.getD 2 0).toNat + 2) (hd : decodeFrame P (h ++ t) = .ok f) :
    f.2.length = (h.getD 2 0).toNat := by
  match h, hh with
  | [a, b, c], _ =>
    simp only [List.cons_append, List.nil_append, decodeFrame] at hd
    split at hd
    · cases hd
    · split at hd
      · simp only [checkFrame] at hd
        split at hd
        · cases hd
        · split at hd
          · cases hd
          · split at hd
            · cases hd
            · cases hd
              simp only [List.getD_cons_succ, List.getD_cons_zero] at ht ⊢
              simp [ht]
      · cases hd

/-- All a fetch of a reception can do (42_receive.md R250 to R258). -/
theorem fetchFrame_cases (rx : Rx) (s : State) :
    (rx.budget ≤ rx.i ∧ fetchFrame rx s = .raised .timeout s) ∨
    (rx.i < rx.budget ∧
      Ext (fun e => Event.ok s.param.i2cAddr e = true) { s with engine := .receiving rx.counted }
        (fetchFrame rx s).state ∧
      ∀ p d t, fetchFrame rx s = .frame p d t → rx.fits d.length = true) := by
  by_cases hb : rx.budget ≤ rx.i
  · exact .inl ⟨hb, by simp [fetchFrame, hb]⟩
  · refine .inr ⟨Nat.not_le.mp hb, ?_⟩
    have h3 := busRead_guarded_ext (n := Config.hdrLen) (by decide) { s with engine := .receiving rx.counted }
    unfold fetchFrame
    rw [if_neg hb]
    rcases hr : busRead Config.hdrLen (State.guardWait { s with engine := .receiving rx.counted }) with ⟨r, s1⟩
    rw [hr] at h3
    have hf := h3.fields
    cases r with
    | fail e =>
      cases e with
      | addrNack => exact ⟨h3.trans (Ext.emit s1 rfl), fun p d t ht => by cases ht⟩
      | dataNack => exact ⟨h3, fun p d t ht => by cases ht⟩
      | other k => exact ⟨h3, fun p d t ht => by cases ht⟩
    | ok h =>
      have hh : h.length = 3 := busRead_ok_length (n := 3) (by
        show (busRead Config.hdrLen _).1 = _
        rw [hr])
      dsimp only
      split
      · exact ⟨h3, fun p d t ht => by cases ht⟩
      · next hfit =>
        have hfit : rx.fits (h.getD 2 0).toNat = true := by simpa using hfit
        have h4 := busRead_guarded_ext (Rx.fits_body hfit) s1
        rw [hf.1] at h4
        rcases hr2 : busRead ((h.getD 2 0).toNat + Config.crcLen) s1.guardWait with ⟨r2, s2⟩
        rw [hr2] at h4
        cases r2 with
        | fail e => exact ⟨h3.trans h4, fun p d t ht => by cases ht⟩
        | ok t =>
          have ht : t.length = (h.getD 2 0).toNat + 2 := busRead_ok_length (by
            show (busRead ((h.getD 2 0).toNat + Config.crcLen) _).1 = _
            rw [hr2])
          dsimp only
          split
          · exact ⟨h3.trans h4, fun p d t ht => by cases ht⟩
          · next f hdec =>
            refine ⟨h3.trans h4, fun p d t' ht' => ?_⟩
            cases ht'
            rw [decodeFrame_length hh ht hdec]
            exact hfit

/-- All one iteration of the loop of `Receive` can do. -/
theorem receiveOnce_result {rx : Rx} (hw : rx.written ≤ rx.buf.capacity) (s : State) :
    RxResult rx s (receiveOnce rx s) := by
  unfold receiveOnce
  rcases fetchFrame_cases rx s with ⟨_, h⟩ | ⟨_, hx, _⟩
  · rw [h]; exact failReception_result _ rx s
  · have hr : Received rx s (fetchFrame rx s).state :=
      (Received.engine rx s (.receiving rx.counted)).trans (Received.of_ext hx)
    have he := hx.fields.2.2.2.2.2.2.2.1
    split
    · next s1 heq =>
      rw [heq] at hr he
      refine ⟨hr, fun t ht => ?_⟩
      cases ht
      exact ⟨rx.counted, he, ⟨rfl, rfl⟩, hw⟩
    · next heq =>
      rw [heq] at hr
      exact RxResult.of_received hr (failReception_result _ rx _)
    · next heq =>
      rw [heq] at hr
      exact RxResult.of_received hr
        (RxResult.congr (rx' := rx.counted) ⟨rfl, rfl⟩ (receiveFrame_result (rx := rx.counted) hw _ _ _))

/-- All the loop of `Receive` can do. -/
theorem driveReception_result (k : Nat) {rx : Rx} {s : State} (he : s.engine = .receiving rx)
    (hw : rx.written ≤ rx.buf.capacity) : RxResult rx s (driveReception k s) := by
  have hstay : RxResult rx s (.waiting s) := by
    refine ⟨Received.refl rx s, fun t ht => ?_⟩
    cases ht
    exact ⟨rx, he, ⟨rfl, rfl⟩, hw⟩
  induction k generalizing rx s with
  | zero =>
    simp only [driveReception, he]
    split
    · exact receiveOnce_result hw s
    · exact hstay
  | succ k ih =>
    simp only [driveReception, he]
    split
    · exact receiveOnce_result hw s
    · split
      · exact hstay
      · have h1 := receiveOnce_result hw s
        split
        · next s1 heq =>
          obtain ⟨rx', e1, e2, e3⟩ := h1.2 s1 heq
          rw [heq] at h1
          refine RxResult.of_received h1.1 (RxResult.congr e2 (ih e1 (by rw [e2.2]; exact e3) ?_))
          refine ⟨Received.refl rx' s1, fun t ht => ?_⟩
          cases ht
          exact ⟨rx', e1, ⟨rfl, rfl⟩, by rw [e2.2]; exact e3⟩
        · exact h1

/-- All `Receive` can do (42_receive.md R250). -/
theorem beginReception_result (client : Client) (buf : Buffer) (s : State) :
    RxResult { client := client, buf := buf, written := 0, i := 0, budget := 0 } s
      (beginReception client buf s) := by
  unfold beginReception
  split
  · exact ⟨Received.refl _ s, fun t ht => by cases ht⟩
  · next b _ =>
    refine RxResult.of_received (Received.engine _ s _) (RxResult.congr
      (rx' := { client := client, buf := buf, written := 0, i := 0, budget := b }) ⟨rfl, rfl⟩
      (driveReception_result _ rfl (Nat.zero_le _)))

end Sys2Proof.Machine
end

