-- ==== Sys2Proof/Laws/Sender.lean ====
section
/-! SUPPORT. What the frame sender can do, said once for each of its parts. -/

namespace Sys2Proof.Machine

/-- What a flush does to the open sender: nothing, fails it, empties its chunk, or ends it
(43_frame_sender.md R306). -/
inductive SenderChange : (Sender → Sender) → Prop where
  | same : SenderChange id
  | failed : SenderChange fun x => { x with status := .failed }
  | emptied : SenderChange fun x => { x with chunkLen := 0 }
  | done : SenderChange fun x => { x with chunkLen := 0, status := .done }

/-- Everything a flush of the open sender can change from `s` to `t`, besides what it waits for. -/
structure Sent (s t : State) : Prop where
  param   : t.param = s.param
  rxSeq   : t.rxSeq = s.rxSeq
  atr     : t.atr = s.atr
  phase   : t.phase = s.phase
  fault   : t.fault = s.fault
  result  : t.result = s.result
  port    : t.port = s.port
  mem     : t.mem = s.mem
  scratch : t.scratch = s.scratch
  snd     : ∃ f, SenderChange f ∧ t.snd = s.snd.map f
  trace   : ∃ evs, t.trace = s.trace ++ evs ∧ ∀ e ∈ evs, Event.ok s.param.i2cAddr e = true

/-- Bus activity and new locals, then a change of the sender. -/
theorem Sent.of_ext {s t : State} (h : Ext (fun e => Event.ok s.param.i2cAddr e = true) s t)
    {f : Sender → Sender} (hf : SenderChange f) : Sent s (t.mapSnd f) := by
  obtain ⟨es, c, n, rfl, he⟩ := h
  exact ⟨rfl, rfl, rfl, rfl, rfl, rfl, rfl, rfl, rfl, ⟨f, hf, rfl⟩, es, rfl, he⟩

theorem mapSnd_id (s : State) : s.mapSnd id = s := by
  simp [State.mapSnd]

/-- A flush or its acknowledgment wait has ended in `r`. -/
def SndResult (s : State) (v : Value) (r : Ran Value) : Prop :=
  Sent s r.state ∧ r.state.txSeq = s.txSeq ∧ ∀ t, r = .waiting t → t.engine = .awaitingAck v

/-- All a frame can do where an acknowledgment is awaited (43_frame_sender.md R309). -/
theorem receiveAck_cases (v : Value) (p : Pcb) (d : List Byte) (s : State) :
    (p = .r s.txSeq .none ∧ d = [] ∧ receiveAck v p d s = .ok v (emptyChunk s)) ∨
    (¬ (p = .r s.txSeq .none ∧ d = []) ∧ receiveAck v p d s = failFlush .badPcb s) := by
  by_cases h : p = .r s.txSeq .none ∧ d = []
  · exact .inl ⟨h.1, h.2, by simp [receiveAck, h]⟩
  · exact .inr ⟨h, by simp [receiveAck, h]⟩

/-- All a fetch of an acknowledgment can do: bus activity, and the one frame accepted
(43_frame_sender.md R307). -/
theorem fetchAck_cases (s : State) :
    Ext (fun e => Event.ok s.param.i2cAddr e = true) s (fetchAck s).state ∧
    (∀ t, fetchAck s ≠ .notReady t) ∧
    ∀ p d t, fetchAck s = .frame p d t → p = .r t.txSeq .none ∧ d = [] := by
  have hx := busRead_guarded_ext (n := Config.ackLen) (by decide) s
  unfold fetchAck
  rcases hr : busRead Config.ackLen s.guardWait with ⟨r, s1⟩
  rw [hr] at hx
  have ht : s1.txSeq = s.txSeq := hx.fields.2.1
  cases r with
  | fail e => exact ⟨hx, fun t h => (nomatch h), fun p d t h => (nomatch h)⟩
  | ok h =>
    dsimp only
    split
    · exact ⟨hx, fun t h => (nomatch h), fun p d t h => (nomatch h)⟩
    · refine ⟨hx, fun t h => (nomatch h), fun p d t h => ?_⟩
      cases h
      exact ⟨by rw [ht], rfl⟩

/-- All the acknowledgment wait can do once its read is made. -/
theorem readAck_result (v : Value) (s : State) : SndResult s v (readAck v s) := by
  have h := fetchAck_cases s
  have hf := h.1.fields
  unfold readAck
  split
  · next s1 heq => exact absurd heq (h.2.1 s1)
  · next heq =>
    rw [heq] at h hf
    exact ⟨Sent.of_ext h.1 .failed, hf.2.1, fun t ht => by cases ht⟩
  · next p d s1 heq =>
    have hp := h.2.2 p d s1 heq
    rw [heq] at h hf
    rcases receiveAck_cases v p d s1 with ⟨_, _, hr⟩ | ⟨hn, _⟩
    · rw [hr]
      exact ⟨Sent.of_ext h.1 .emptied, hf.2.1, fun t ht => by cases ht⟩
    · exact absurd hp hn

/-- All the acknowledgment wait can do. -/
theorem awaitAck_result (v : Value) (s : State) : SndResult s v (awaitAck v s) := by
  unfold awaitAck
  split
  · exact ⟨⟨rfl, rfl, rfl, rfl, rfl, rfl, rfl, rfl, rfl, ⟨id, .same, by simp [Ran.state]⟩, [],
      by simp [Ran.state], by simp⟩, rfl, fun t ht => by cases ht; rfl⟩
  · have h := readAck_result v { s with engine := .awaitingAck v }
    exact ⟨⟨h.1.param, h.1.rxSeq, h.1.atr, h.1.phase, h.1.fault, h.1.result, h.1.port, h.1.mem, h.1.scratch,
      h.1.snd, h.1.trace⟩, h.2.1, h.2.2⟩

/-- All a flush can do (43_frame_sender.md R306): besides what its acknowledgment wait does, `tx_seq` is
complemented. -/
theorem flush_result (y : Sender) (v : Value) (s : State) :
    Sent s (flush y v s).state ∧ (flush y v s).state.txSeq = !s.txSeq ∧
    ∀ t, flush y v s = .waiting t → t.engine = .awaitingAck v := by
  have hx := writeFrame_ext (.i s.txSeq y.more) (chunkBytes y s) { s with txSeq := !s.txSeq }
  unfold flush
  have lift : ∀ {t : State}, Sent { s with txSeq := !s.txSeq } t → Sent s t := fun h =>
    ⟨h.param, h.rxSeq, h.atr, h.phase, h.fault, h.result, h.port, h.mem, h.scratch, h.snd, h.trace⟩
  split
  · next s1 heq =>
    rw [heq] at hx
    have hf := hx.1.fields
    split
    · have h := awaitAck_result v s1
      have h0 := lift (Sent.of_ext hx.1 .same)
      rw [mapSnd_id] at h0
      obtain ⟨es, e1, e2⟩ := h.1.trace
      obtain ⟨fs, f1, f2⟩ := h0.trace
      obtain ⟨f, g1, g2⟩ := h.1.snd
      have hs : s1.snd = s.snd := hf.2.2.2.2.1
      have ft : s1.trace = s.trace ++ fs := f1
      refine ⟨⟨h.1.param.trans h0.param, h.1.rxSeq.trans h0.rxSeq, h.1.atr.trans h0.atr,
        h.1.phase.trans h0.phase, h.1.fault.trans h0.fault, h.1.result.trans h0.result,
        h.1.port.trans h0.port, h.1.mem.trans h0.mem, h.1.scratch.trans h0.scratch,
        ⟨f, g1, by rw [g2, hs]⟩, fs ++ es, by simp [e1, ft], ?_⟩, h.2.1.trans hf.2.1, h.2.2⟩
      intro e he
      rcases List.mem_append.mp he with he | he
      · exact f2 e he
      · rw [← h0.param]; exact e2 e he
    · exact ⟨lift (Sent.of_ext hx.1 .done), hf.2.1, fun t ht => by cases ht⟩
  · next heq =>
    rw [heq] at hx
    exact ⟨lift (Sent.of_ext hx.1 .failed), hx.1.fields.2.1, fun t ht => by cases ht⟩
  · next heq =>
    rw [heq] at hx
    have h0 := lift (Sent.of_ext hx.1 .same)
    rw [mapSnd_id] at h0
    exact ⟨h0, hx.1.fields.2.1, fun t ht => by cases ht⟩
  · next s1 heq => exact absurd heq (hx.2 s1)

/-- A flush, or a part of one, leaves a sender that has failed or has an empty chunk, unless it waits or is stopped by
the internal fault (43_frame_sender.md R306; 10_state.md R51). -/
def Empties (r : Ran Value) : Prop :=
  (∃ t, r = .waiting t) ∨ (∃ f t, r = .stuck f t) ∨
  ∀ z, r.state.snd = some z → z.status = .failed ∨ z.chunkLen = 0

theorem failFlush_empties (e : Err) (s : State) : Empties (failFlush e s) :=
  .inr (.inr fun z hz => by
    obtain ⟨y, _, rfl⟩ := Option.map_eq_some_iff.mp hz
    exact .inl rfl)

theorem readAck_empties (v : Value) (s : State) : Empties (readAck v s) := by
  unfold readAck
  split
  · exact .inl ⟨_, rfl⟩
  · exact failFlush_empties _ _
  · next p d s1 _ =>
    rcases receiveAck_cases v p d s1 with ⟨_, _, hr⟩ | ⟨_, hr⟩ <;> rw [hr]
    · exact .inr (.inr fun z hz => by
        obtain ⟨y, _, rfl⟩ := Option.map_eq_some_iff.mp hz
        exact .inr rfl)
    · exact failFlush_empties _ _

theorem flush_empties (y : Sender) (v : Value) (s : State) : Empties (flush y v s) := by
  unfold flush
  split
  · split
    · unfold awaitAck
      split
      · exact .inl ⟨_, rfl⟩
      · exact readAck_empties _ _
    · exact .inr (.inr fun z hz => by
        obtain ⟨y, _, rfl⟩ := Option.map_eq_some_iff.mp hz
        exact .inr rfl)
  · exact failFlush_empties _ _
  · exact .inr (.inl ⟨_, _, rfl⟩)
  · exact .inl ⟨_, rfl⟩

/-! ### The sender's invariants -/

/-- A flush keeps the sender's invariants (10_state.md R51). -/
theorem SenderChange.keeps_ok {f : Sender → Sender} (hf : SenderChange f) {y : Sender} (h : y.Ok) :
    (f y).Ok := by
  cases hf with
  | same => exact h
  | failed => exact ⟨h.chunkLen_le, h.written_le, h.len_written, h.sorted, h.inChunk, h.listed⟩
  | emptied =>
    exact ⟨Nat.zero_le _, h.written_le, Nat.zero_le _, h.sorted, h.inChunk, fun _ hk => absurd hk (Nat.not_lt_zero _)⟩
  | done =>
    exact ⟨Nat.zero_le _, h.written_le, Nat.zero_le _, h.sorted, h.inChunk, fun _ hk => absurd hk (Nat.not_lt_zero _)⟩

/-- An SWRITE takes in at most what the chunk has room for. -/
theorem Sender.room_le (y : Sender) (x : List Byte) :
    y.room x ≤ x.length ∧ y.room x ≤ Config.maxData - y.chunkLen := by
  simp only [Sender.room]; omega

/-- Taking bytes in keeps the sender's invariants, if they do not overrun the message. -/
theorem Sender.take_ok {y : Sender} (h : y.Ok) (x : List Byte) (ht : y.written + y.room x ≤ y.total) :
    (y.take x (y.room x)).Ok := by
  have hr := y.room_le x
  have hc := h.chunkLen_le
  refine ⟨?_, ht, ?_, Memory.wf_writeBytes h.sorted _ _, ?_, ?_⟩
  · simp only [Sender.take]; omega
  · simp only [Sender.take]; have := h.len_written; omega
  · intro c hcm
    rcases Memory.mem_writeBytes hcm with hm | hm
    · exact h.inChunk c hm
    · have := hm.2
      simp only [List.length_take] at this
      omega
  · intro k hk
    simp only [Sender.take] at hk ⊢
    by_cases hlt : k < y.chunkLen
    · rw [Memory.read_writeBytes_outside _ _ (.inl hlt)]; exact h.listed k hlt
    · have := Memory.read_writeBytes_inside (x.take (y.room x)) y.chunk y.chunkLen (k - y.chunkLen)
        (by simp only [List.length_take]; omega)
      rw [show y.chunkLen + (k - y.chunkLen) = k by omega] at this
      rw [this]; rfl

/-- A sender that holds bytes holds the bytes it takes in after them. -/
theorem Sender.Holds.take {y : Sender} {held : List Byte} (h : y.Holds held) (x : List Byte) {n : Nat}
    (hn : n ≤ x.length) : (y.take x n).Holds (held ++ x.take n) := by
  have hlen : (x.take n).length = n := by simp [hn]
  refine ⟨by simp [Sender.take, h.1, hn], fun k hk => ?_⟩
  simp only [Sender.take, h.1]
  by_cases hlt : k < held.length
  · rw [Memory.read_writeBytes_outside _ _ (by omega), h.2 k hlt, List.getElem_append_left hlt]
  · rw [List.length_append] at hk
    have := Memory.read_writeBytes_inside (x.take n) y.chunk held.length (k - held.length) (by omega)
    rw [show held.length + (k - held.length) = k by omega] at this
    rw [this, List.getElem_append_right (by omega)]

/-- The chunk of a sender that holds bytes is those bytes, whatever the free values are. -/
theorem Sender.Holds.chunkBytes {y : Sender} {held : List Byte} (h : y.Holds held) (s : State) :
    chunkBytes y s = held := by
  rw [Machine.chunkBytes, h.1]
  exact Memory.readBytes_eq_of_reads _ _ _ _ (fun k hk => by rw [Nat.zero_add]; exact h.2 k hk)

/-- A sender that meets its invariants holds known bytes, whatever run led to it. -/
theorem Sender.Ok.holds {y : Sender} (h : y.Ok) : ∃ held : List Byte, y.Holds held ∧ held.length ≤ Config.maxData := by
  refine ⟨List.ofFn fun k : Fin y.chunkLen => (Memory.read y.chunk k).get (h.listed k k.isLt), ⟨?_, ?_⟩, ?_⟩
  · simp
  · intro k hk; simp
  · simpa using h.chunkLen_le

/-- Where no flush is due, a sender that had room in its chunk still has some (10_state.md R51). -/
theorem Sender.take_room {y : Sender} (h : y.chunkLen < Config.maxData) (x : List Byte)
    (hd : (y.take x (y.room x)).due (y.room x) = false) :
    (y.take x (y.room x)).chunkLen < Config.maxData := by
  have hr := y.room_le x
  simp only [Sender.due, Sender.take, Bool.and_eq_false_iff, Bool.or_eq_false_iff, decide_eq_false_iff_not,
    beq_eq_false_iff_ne] at hd ⊢
  omega

/-- A sender just opened holds nothing. -/
theorem Sender.holds_nil (y : Sender) (h : y.chunkLen = 0) : y.Holds [] :=
  ⟨h, fun _ hk => absurd hk (Nat.not_lt_zero _)⟩

end Sys2Proof.Machine
end

