-- ==== Sys2Proof/Laws/Step.lean ====
section
/-! SUPPORT. What a step can do, said once: a wait, the end of an awaited frame's fetch, or the run of one
instruction. -/

namespace Sys2Proof.Machine

/-- Every frame instruction is the arrival of its frame. -/
theorem exec_ofFrame (p : Pcb) (d : List Byte) (s : State) :
    exec (Instr.ofFrame p d) s = frameArrives p d s := by
  cases p with
  | i seq more => rfl
  | r seq err => cases err <;> rfl
  | s code => cases code <;> rfl

/-- A frame that answers a next state was awaited. -/
theorem frameArrives_next {p : Pcb} {d : List Byte} {s t : State} (h : frameArrives p d s = .next t) :
    s.fault = none ∧
    ((∃ rx, s.engine = .receiving rx ∧ t = finish (receiveFrame rx p d s)) ∨
     (∃ v, s.engine = .awaitingAck v ∧ t = finish (receiveAck v p d s))) := by
  unfold frameArrives at h
  split at h
  · cases h
  · next hf =>
    split at h
    · cases h
    · next rx he => cases h; exact ⟨hf, .inl ⟨rx, he, rfl⟩⟩
    · next v he => cases h; exact ⟨hf, .inr ⟨v, he, rfl⟩⟩

/-- What running an instruction can be: a command on a ready block, or the arrival of a frame. -/
theorem exec_cases (i : Instr) (s : State) :
    (∃ p d, i = Instr.ofFrame p d ∧ exec i s = frameArrives p d s) ∨
    (∃ op body, exec i s = command op body s) := by
  cases i with
  | iBlock seq more d => exact .inl ⟨.i seq more, d, rfl, rfl⟩
  | rNone seq d => exact .inl ⟨.r seq .none, d, rfl, rfl⟩
  | rChecksum seq d => exact .inl ⟨.r seq .checksum, d, rfl, rfl⟩
  | rOther seq d => exact .inl ⟨.r seq .other, d, rfl, rfl⟩
  | sResyncRequest d => exact .inl ⟨.s .resyncRequest, d, rfl, rfl⟩
  | sIfsRequest d => exact .inl ⟨.s .ifsRequest, d, rfl, rfl⟩
  | sAbortRequest d => exact .inl ⟨.s .abortRequest, d, rfl, rfl⟩
  | sWtxRequest d => exact .inl ⟨.s .wtxRequest, d, rfl, rfl⟩
  | sEndSessionRequest d => exact .inl ⟨.s .endSessionRequest, d, rfl, rfl⟩
  | sChipResetRequest d => exact .inl ⟨.s .chipResetRequest, d, rfl, rfl⟩
  | sGetAtrRequest d => exact .inl ⟨.s .getAtrRequest, d, rfl, rfl⟩
  | sInterfaceSoftResetRequest d => exact .inl ⟨.s .interfaceSoftResetRequest, d, rfl, rfl⟩
  | sResyncResponse d => exact .inl ⟨.s .resyncResponse, d, rfl, rfl⟩
  | sIfsResponse d => exact .inl ⟨.s .ifsResponse, d, rfl, rfl⟩
  | sAbortResponse d => exact .inl ⟨.s .abortResponse, d, rfl, rfl⟩
  | sWtxResponse d => exact .inl ⟨.s .wtxResponse, d, rfl, rfl⟩
  | sEndSessionResponse d => exact .inl ⟨.s .endSessionResponse, d, rfl, rfl⟩
  | sChipResetResponse d => exact .inl ⟨.s .chipResetResponse, d, rfl, rfl⟩
  | sGetAtrResponse d => exact .inl ⟨.s .getAtrResponse, d, rfl, rfl⟩
  | sInterfaceSoftResetResponse d => exact .inl ⟨.s .interfaceSoftResetResponse, d, rfl, rfl⟩
  | encodePcb p => exact .inr ⟨_, _, rfl⟩
  | decodePcb b => exact .inr ⟨_, _, rfl⟩
  | checksum h d => exact .inr ⟨_, _, rfl⟩
  | resync => exact .inr ⟨_, _, rfl⟩
  | resetNegotiate b => exact .inr ⟨_, _, rfl⟩
  | receive b => exact .inr ⟨_, _, rfl⟩
  | waitGuard => exact .inr ⟨.waitGuard, fun s1 => .ok .unit s1.guardWait, rfl⟩
  | waitPoll => exact .inr ⟨.waitPoll, fun s1 => .ok .unit s1.pollWait, rfl⟩
  | sopen n => exact .inr ⟨_, _, rfl⟩
  | swrite x => exact .inr ⟨_, _, rfl⟩
  | sflush => exact .inr ⟨_, _, rfl⟩

/-- All a step that answers a next state can be. -/
theorem step_cases {s t : State} (h : step s = .next t) :
    s.fault = none ∧
    ((s.phase = .idle ∧ s.port = [] ∧ t = s) ∨
     (∃ c rest i, s.phase = .idle ∧ s.port = c :: rest ∧ decodeCommand c = .ok i ∧
        exec i { s with port := rest } = .next t) ∨
     (∃ op rx, s.phase = .busy op ∧ s.engine = .receiving rx ∧
        (fetchFrame rx s = .notReady t ∨
         (∃ e u, fetchFrame rx s = .raised e u ∧ t = finish (failReception e rx u)) ∨
         (∃ p d u, fetchFrame rx s = .frame p d u ∧ frameArrives p d u = .next t))) ∨
     (∃ op v, s.phase = .busy op ∧ s.engine = .awaitingAck v ∧
        ((∃ e u, fetchAck s = .raised e u ∧ t = finish (failFlush e u)) ∨
         (∃ p d u, fetchAck s = .frame p d u ∧ frameArrives p d u = .next t)))) := by
  unfold step fetch at h
  cases hf : s.fault with
  | some f => simp [hf] at h
  | none =>
    refine ⟨rfl, ?_⟩
    cases hp : s.phase with
    | idle =>
      simp only [hf, hp, fetchCommand] at h
      cases hq : s.port with
      | nil =>
        simp only [hq] at h
        cases h
        exact .inl ⟨rfl, rfl, rfl⟩
      | cons c rest =>
        simp only [hq] at h
        cases hd : decodeCommand c with
        | error e => simp only [hd] at h; cases h
        | ok i =>
          simp only [hd] at h
          exact .inr (.inl ⟨c, rest, i, rfl, rfl, hd, h⟩)
    | busy op =>
      simp only [hf, hp] at h
      cases he : s.engine with
      | quiet => simp only [he] at h; cases h
      | receiving rx =>
        simp only [he, fetchReceived] at h
        refine .inr (.inr (.inl ⟨op, rx, rfl, rfl, ?_⟩))
        cases hx : fetchFrame rx s with
        | notReady u => simp only [hx] at h; cases h; exact .inl rfl
        | raised e u => simp only [hx] at h; cases h; exact .inr (.inl ⟨e, u, rfl, rfl⟩)
        | frame p d u =>
          simp only [hx, exec_ofFrame] at h
          exact .inr (.inr ⟨p, d, u, rfl, h⟩)
      | awaitingAck v =>
        simp only [he, fetchAcknowledged] at h
        refine .inr (.inr (.inr ⟨op, v, rfl, rfl, ?_⟩))
        cases hx : fetchAck s with
        | notReady u => exact absurd hx ((fetchAck_cases s).2.1 u)
        | raised e u => simp only [hx] at h; cases h; exact .inl ⟨e, u, rfl, rfl⟩
        | frame p d u =>
          simp only [hx, exec_ofFrame] at h
          exact .inr ⟨p, d, u, rfl, h⟩

end Sys2Proof.Machine
end

