-- ==== Sys2Proof/Laws/Run.lean ====
section
/-! SUPPORT. What happens when the bus answers are at hand, said once for each part: a failed frame write, a frame
placed or forgotten, a fetched frame or acknowledgment, and the loop of a reception. -/

namespace Sys2Proof.Machine

/-- A frame write whose first answer is at hand and is an error other than the address NACK. -/
theorem writeFrame_fail_at {s : State} {e : BusError} {rest : List BusAnswer} (he : e ≠ .addrNack)
    (h : s.chip = .fail e :: rest) (p : Pcb) {d : List Byte} (hd : d.length ≤ Config.maxData) :
    writeFrame p d s = Ran.raised (.bus e)
      { s with chip := rest, fresh := s.fresh + 1, trace := s.trace ++ [writeEvent s p d (.fail e)] } := by
  rw [writeFrame, buildFrame_eq hd]
  cases e with
  | addrNack => exact absurd rfl he
  | dataNack =>
    cases s.param.writeRetries - 1 <;> simp only [writeAttempts, busWrite_at h, writeResultOf, writeEvent]
  | other k =>
    cases s.param.writeRetries - 1 <;> simp only [writeAttempts, busWrite_at h, writeResultOf, writeEvent]

/-- `k` attempts of a frame write that meet an address NACK, with attempts left (43_frame_sender.md R300). -/
theorem writeAttempts_nacks (f : List Byte) (k : Nat) : ∀ (n : Nat) (s : State) (rest : List BusAnswer),
    s.chip = nacks k ++ rest →
    writeAttempts (k + n) f s = writeAttempts n f
      { s with chip := rest, fresh := s.fresh + k,
               trace := s.trace ++ (List.replicate k
                 [Event.busWrite s.param.i2cAddr f (.fail .addrNack), .delay s.pollUs]).flatten } := by
  induction k with
  | zero =>
    intro n s rest hc
    have hr : s.chip = rest := by simpa [nacks] using hc
    subst hr
    simp
  | succ k ih =>
    intro n s rest hc
    have hc' : s.chip = .fail .addrNack :: (nacks k ++ rest) := by simpa [nacks, List.replicate_succ] using hc
    rw [show k + 1 + n = (k + n) + 1 by omega, writeAttempts]
    simp only [busWrite_at hc', writeResultOf]
    rw [ih n _ rest rfl]
    simp [State.pollWait, State.delay, State.emit, List.replicate_succ, State.pollUs, Nat.add_assoc, Nat.add_comm 1]

/-- What a frame write can meet depends on the parameters and the ATR alone. -/
theorem WriteRun.congr {s t : State} {p : Pcb} {d : List Byte} {used : List BusAnswer} {e : Option Err}
    {evs : List Event} (h : WriteRun s p d used e evs) (hp : t.param = s.param) (ha : t.atr = s.atr) :
    WriteRun t p d used e evs := by
  have he : ∀ r, writeEvent t p d r = writeEvent s p d r := fun r => by simp [writeEvent, hp]
  have hn : writeNackEvents t p d = writeNackEvents s p d := by simp [writeNackEvents, he, State.pollUs, hp, ha]
  cases h with
  | sent k b h => rw [← hn, ← he]; exact .sent k b (hp ▸ h)
  | refused k e h hne => rw [← hn, ← he]; exact .refused k e (hp ▸ h) hne
  | silent h => rw [← hn, ← he, ← hp]; exact .silent (hp ▸ h)

/-! ### The acknowledgment -/

/-- An acknowledgment that is refused fails its check (43_frame_sender.md R307). -/
theorem checkAck_refused {P : Params} {expected : Bool} {h : List Byte} {e : Err}
    (hr : AckRefused P expected (.ok h) e) :
    h.length = Config.ackLen ∧
    checkAck P (.r expected .none) (h.getD 0 0) (h.getD 1 0) (h.getD 2 0) (h.getD 3 0) (h.getD 4 0) = some e := by
  cases hr with
  | address pcb len lo hi hn => exact ⟨rfl, if_pos hn⟩
  | @pcb b len lo hi hn =>
    refine ⟨rfl, ?_⟩
    simp only [checkAck, List.getD_cons_zero, List.getD_cons_succ, ne_eq, not_true, if_false]
    cases hd : decodePcbByte P b with
    | none => rfl
    | some p => exact if_pos fun (hp : p = .r expected .none) => hn (by rw [hd, hp])
  | length lo hi hd hl =>
    refine ⟨rfl, ?_⟩
    simp only [checkAck, List.getD_cons_zero, List.getD_cons_succ, ne_eq, not_true, if_false, hd]
    exact if_pos hl
  | crc hd hc =>
    refine ⟨rfl, ?_⟩
    simp only [checkAck, List.getD_cons_zero, List.getD_cons_succ, ne_eq, not_true, if_false, hd]
    exact if_pos (by simpa [crcOk] using hc)

/-- The fetch of an acknowledgment that is refused raises its error. -/
theorem fetchAck_refused {s : State} {a : BusAnswer} {e : Err} {rest : List BusAnswer}
    (hr : AckRefused s.param s.txSeq a e) (hc : s.chip = a :: rest) :
    fetchAck s = .raised e
      { s with chip := rest, fresh := s.fresh + 1, trace := s.trace ++ ackReadEvents s a } := by
  rw [fetchAck, busRead_at (s := s.guardWait) hc]
  cases a with
  | fail b =>
    cases hr
    simp [readResultOf, State.guardWait, State.delay, State.emit, ackReadEvents, readResult, Config.ackLen,
      Config.hdrLen, Config.crcLen, State.guardUs]
  | ok h =>
    have hk := checkAck_refused hr
    simp only [readResultOf, fitRead_eq hk.1, State.guardWait, State.delay, State.emit, hk.2]
    simp [ackReadEvents, readResult, Config.ackLen, Config.hdrLen, Config.crcLen, State.guardUs]

theorem mismatchEvents_eq (expected got : Bool) : mismatchEvents expected got = mismatchEvent expected got := by
  cases expected <;> cases got <;> rfl

/-! ### The reception's memory -/

/-- Data placed is stored at the reception's address. -/
theorem placeData_stored (rx : Rx) (d : List Byte) (s : State) :
    ∃ m, Stored (rx.memory s) m rx.address d ∧ placeData rx d s = rx.withMemory m s := by
  unfold placeData Rx.memory Rx.address Rx.withMemory
  cases rx.client <;> exact ⟨_, stored_writeBytes _ _ _, rfl⟩

/-- Data placed in a caller's buffer is stored there. -/
theorem placeData_mem {rx : Rx} (h : rx.client ≠ .resync) (d : List Byte) (s : State) :
    ∃ m, Stored s.mem m (rx.buf.base + rx.written) d ∧ placeData rx d s = { s with mem := m } := by
  unfold placeData
  cases hc : rx.client
  · exact ⟨_, stored_writeBytes _ _ _, rfl⟩
  · exact absurd hc h
  · exact ⟨_, stored_writeBytes _ _ _, rfl⟩

/-- Placing data changes the two memories alone. -/
theorem placeData_fields (rx : Rx) (d : List Byte) (s : State) :
    placeData rx d s = { s with mem := (placeData rx d s).mem, scratch := (placeData rx d s).scratch } := by
  unfold placeData
  cases rx.client <;> rfl

/-- Bytes stored inside a range that is then forgotten are forgotten with it. -/
theorem Stored.forgotten {m m1 m2 : Memory} {a lo hi : Nat} {d : List Byte} (h : Stored m m1 a d)
    (h' : Forgotten m1 m2 lo hi) (hlo : lo ≤ a) (hhi : a + d.length ≤ hi) : Forgotten m m2 lo hi :=
  ⟨h'.1, fun x hx => by rw [h'.2 x hx, h.2 x (by omega)]⟩

/-- A reception that fails, in a state whose memory is `m`, leaves it as `Rx.Failed` says. -/
theorem forgetRest_failed (rx : Rx) (u : State) :
    ∃ m, rx.Failed u.mem m ∧ forgetRest rx u = { u with mem := m } := by
  unfold Rx.Failed forgetRest
  cases rx.client
  · exact ⟨_, forgotten_forget _ _ _, rfl⟩
  · exact ⟨_, rfl, rfl⟩
  · exact ⟨_, forgotten_forget _ _ _, rfl⟩

/-- The same after the frame's data was placed. -/
theorem forgetRest_placed {rx : Rx} {d : List Byte} (hf : rx.written + d.length ≤ rx.buf.capacity) {s u : State}
    (hm : u.mem = (placeData rx d s).mem) : ∃ m, rx.Failed s.mem m ∧ forgetRest rx u = { u with mem := m } := by
  unfold Rx.Failed forgetRest
  unfold placeData at hm
  cases hc : rx.client <;> simp only [hc] at hm ⊢
  · exact ⟨_, hm ▸ (stored_writeBytes _ _ _).forgotten (forgotten_forget _ _ _) (by omega) (by omega), rfl⟩
  · exact ⟨_, hm, rfl⟩
  · exact ⟨_, hm ▸ (stored_writeBytes _ _ _).forgotten (forgotten_forget _ _ _) (by omega) (by omega), rfl⟩

/-! ### The step -/

theorem frameArrives_receiving {s : State} {rx : Rx} (hf : s.fault = none) (he : s.engine = .receiving rx)
    (p : Pcb) (d : List Byte) : frameArrives p d s = .next (finish (receiveFrame rx p d s)) := by
  simp [frameArrives, hf, he]

/-- A step of a reception. -/
theorem step_receiving {s : State} {op : Op} {rx : Rx} (hf : s.fault = none) (hp : s.phase = .busy op)
    (he : s.engine = .receiving rx) :
    step s = match fetchFrame rx s with
      | .notReady s1 => .next s1
      | .raised e s1 => .next (finish (failReception e rx s1))
      | .frame p d s1 => exec (Instr.ofFrame p d) s1 := by
  simp only [step, fetch, hf, hp, he, fetchReceived]
  cases fetchFrame rx s <;> rfl

/-- A step of an acknowledgment wait. -/
theorem step_awaiting {s : State} {op : Op} {v : Value} (hf : s.fault = none) (hp : s.phase = .busy op)
    (he : s.engine = .awaitingAck v) :
    step s = match fetchAck s with
      | .notReady s1 => .next s1
      | .raised e s1 => .next (finish (failFlush e s1))
      | .frame p d s1 => exec (Instr.ofFrame p d) s1 := by
  simp only [step, fetch, hf, hp, he, fetchAcknowledged]
  cases fetchAck s <;> rfl

/-- A step of a reception is one iteration of its loop. -/
theorem step_receiveOnce {s : State} {op : Op} {rx : Rx} (hf : s.fault = none) (hp : s.phase = .busy op)
    (he : s.engine = .receiving rx) : step s = .next (finish (receiveOnce rx s)) := by
  rw [step_receiving hf hp he]
  unfold receiveOnce
  rcases fetchFrame_cases rx s with ⟨_, h⟩ | ⟨_, hx, _⟩
  · rw [h]
  · cases h : fetchFrame rx s with
    | notReady t => rfl
    | raised e t => rfl
    | frame p d t =>
      rw [h] at hx
      have hfd := hx.fields
      simp only [exec_ofFrame]
      exact frameArrives_receiving (hfd.2.2.2.2.2.2.1.trans hf) hfd.2.2.2.2.2.2.2.1 p d

/-! ### The loop of a reception -/

/-- A frame whose two reads are at hand, fit and decode. -/
theorem fetchFrame_at {s : State} {rx : Rx} {p : Pcb} {d h t : List Byte} {rest : List BusAnswer}
    (hb : rx.i < rx.budget) (hh : h.length = 3) (hf : rx.fits (h.getD 2 0).toNat = true)
    (ht : t.length = (h.getD 2 0).toNat + 2) (hd : decodeFrame s.param (h ++ t) = .ok (p, d))
    (hc : s.chip = .ok h :: .ok t :: rest) :
    fetchFrame rx s = .frame p d
      { s with engine := .receiving rx.counted, chip := rest, fresh := s.fresh + 2,
               trace := s.trace ++ frameReadEvents s h t } := by
  have hc' : (State.guardWait { s with engine := .receiving rx.counted }).chip = .ok h :: .ok t :: rest := hc
  simp only [fetchFrame, Nat.not_le.mpr hb, if_false, busRead_at hc', readResultOf,
    fitRead_eq (show h.length = Config.hdrLen from hh), hf]
  rw [if_neg (by simp), busRead_at (a := .ok t) (rest := rest) rfl]
  simp only [readResultOf, fitRead_eq (show t.length = (h.getD 2 0).toNat + Config.crcLen from ht)]
  simp only [State.guardWait, State.delay, State.emit, hd, Config.hdrLen, Config.crcLen]
  simp [frameReadEvents, ht, State.guardUs]

/-- An iteration whose header read is not acknowledged. -/
theorem receiveOnce_nack {s : State} {rx : Rx} {rest : List BusAnswer} (hb : rx.i < rx.budget)
    (hc : s.chip = .fail .addrNack :: rest) :
    receiveOnce rx s = .waiting
      { s with engine := .receiving rx.counted, chip := rest, fresh := s.fresh + 1,
               trace := s.trace ++ headerNackEvents s } := by
  have hc' : (State.guardWait { s with engine := .receiving rx.counted }).chip = .fail .addrNack :: rest := hc
  simp only [receiveOnce, fetchFrame, Nat.not_le.mpr hb, if_false, busRead_at hc', readResultOf]
  simp [State.guardWait, State.pollWait, State.delay, State.emit, headerNackEvents, Config.hdrLen, Rx.counted,
    State.guardUs, State.pollUs]

/-- The reception begins with the base budget. -/
theorem beginReception_at {c : Client} {buf : Buffer} {s : State} (hp : s.pollUs ≠ 0) :
    beginReception c buf s = driveReception s.chip.length
      { s with engine := .receiving ⟨c, buf, 0, 0, s.bwtUs / s.pollUs + 1⟩ } := by
  simp [beginReception, State.baseBudget, budgetOf, hp]

/-- The loop with no budget left. -/
theorem driveReception_out {k : Nat} {s : State} {rx : Rx} (he : s.engine = .receiving rx)
    (hb : rx.budget ≤ rx.i) : driveReception k s = failReception .timeout rx s := by
  cases k <;> simp [driveReception, he, hb, receiveOnce, fetchFrame]

/-- The loop when its next iteration ends the reception. -/
theorem driveReception_end {k : Nat} {s : State} {rx : Rx} {r : Ran Value} (he : s.engine = .receiving rx)
    (hb : rx.i < rx.budget) (hc : s.chip ≠ []) (h : receiveOnce rx s = r) (hr : ∀ t, r ≠ .waiting t) :
    driveReception (k + 1) s = r := by
  unfold driveReception
  simp only [he, Nat.not_le.mpr hb, hc, if_false, h]

/-- The loop when its next iteration goes on. -/
theorem driveReception_wait {k : Nat} {s t : State} {rx : Rx} (he : s.engine = .receiving rx)
    (hb : rx.i < rx.budget) (hc : s.chip ≠ []) (h : receiveOnce rx s = .waiting t) :
    driveReception (k + 1) s = driveReception k t := by
  simp only [driveReception, he, Nat.not_le.mpr hb, hc, if_false, h]

/-- The locals after `n` more iterations. -/
def Rx.plus (rx : Rx) (n : Nat) : Rx := { rx with i := rx.i + n }

/-- `n` header reads that are not acknowledged, within the budget. -/
theorem driveReception_nacks (n : Nat) : ∀ (k : Nat) (s : State) (rx : Rx) (rest : List BusAnswer),
    s.engine = .receiving rx → rx.i + n ≤ rx.budget → s.chip = nacks n ++ rest →
    driveReception (n + k) s = driveReception k
      { s with engine := .receiving (rx.plus n), chip := rest, fresh := s.fresh + n,
               trace := s.trace ++ (List.replicate n (headerNackEvents s)).flatten } := by
  induction n with
  | zero =>
    intro k s rx rest he _ hc
    have hr : s.chip = rest := by simpa [nacks] using hc
    subst hr
    simp [Rx.plus, ← he]
  | succ n ih =>
    intro k s rx rest he hb hc
    have hc' : s.chip = .fail .addrNack :: (nacks n ++ rest) := by simpa [nacks, List.replicate_succ] using hc
    rw [show n + 1 + k = (n + k) + 1 by omega,
      driveReception_wait he (by omega) (by simp [hc']) (receiveOnce_nack (by omega) hc'),
      ih k _ rx.counted rest rfl (by simp only [Rx.counted]; omega) rfl]
    simp [Rx.plus, Rx.counted, List.replicate_succ, headerNackEvents, State.guardUs, State.pollUs, Nat.add_comm 1,
      Nat.add_assoc]

end Sys2Proof.Machine
end

