-- ==== Sys2Proof/Tests/Slice0.lean ====
section
/-! SUPPORT. Tests: the well-formedness smoke test, the decoding of words written out from 30_encoding.md, one-step
tests with the values of 95_test_vectors.md, and a witness of the hypotheses of every statement. -/

namespace Sys2Proof.Tests
open Sys2Proof Sys2Proof.Machine

-- One theorem at a time: in parallel this file's evaluations reserve more thread stacks than the memory limit allows.
set_option Elab.async false

/-! ### The example parameters and states -/

/-- Record A1 of 95_test_vectors.md section 0. -/
def a1 : AtrInfo where
  pver   := 0
  vid    := #v[0, 0, 0, 0, 0]
  bwt    := 3
  ifsc   := 254
  plid   := 0
  mcf    := 0
  config := 0
  mpot   := 1
  segt   := 10
  wut    := 0
  hist   := .ofList []

/-- The parameter set P0 of 95_test_vectors.md section 0. The bus address is any. -/
def p0 : Params where
  nadH2C            := 0x5A
  nadC2H            := 0xA5
  i2cAddr           := 0x48
  writeRetries      := 3
  atrDefault        := a1
  bwtUnitUs         := 1000
  mpotUnitUs        := 1000
  segtUnitUs        := 1
  iMask             := 0x80
  rMask             := 0xEC
  chainResetsBudget := false
  scratchCap        := 254

/-- The construction state under P0 with bus answers at hand. -/
def idle (chip : List BusAnswer) : State := { State.construct p0 with chip := chip }

/-- An idle block with sender `y`. -/
def sending (y : Sender) (chip : List BusAnswer) : State := { idle chip with snd := some y }

/-- An idle block whose poll interval is zero. -/
def zeroPoll (chip : List BusAnswer) : State := { idle chip with atr := { a1 with mpot := 0 } }

/-- A reception with 2 bytes of 64 in, at its first iteration of 4. -/
def rx (c : Client) : Rx := { client := c, buf := ⟨0x100, 64⟩, written := 2, i := 0, budget := 4 }

/-- A block in that reception. -/
def receiving (c : Client) (chip : List BusAnswer) : State :=
  { idle chip with phase := .busy .receive, engine := .receiving (rx c) }

/-- A block that awaits the acknowledgment of its first chunk of 254 bytes. -/
def awaiting (chip : List BusAnswer) : State :=
  { idle chip with
    txSeq := true
    phase := .busy .swrite
    engine := .awaitingAck (.consumed 254)
    snd := some { total := 300, written := 254, chunk := [], chunkLen := 254, status := .active } }

/-- A fresh sender of `total` bytes. -/
def fresh (total : Nat) : Sender :=
  { total := total, written := 0, chunk := [], chunkLen := 0, status := .active }

/-- A sender of `total` bytes whose chunk holds the one byte 01. -/
def holding (total : Nat) : Sender :=
  { total := total, written := 1, chunk := [(0, 0x01)], chunkLen := 1, status := .active }

/-- V-ATR-1 (95_test_vectors.md L1-3). -/
def vAtr1 : List Byte :=
  [0x00, 0x01, 0x02, 0x03, 0x04, 0x05, 0x04, 0x03, 0xE8, 0x00, 0xFE, 0x02, 0x0B, 0x01, 0x90, 0x00, 0x01,
   0x00, 0x00, 0x00, 0x00, 0xFA, 0x03, 0xE8, 0x03, 0x01, 0x02, 0x03]

/-- The state of an outcome that has one. -/
def after (o : Host.Outcome State Fault Refusal) : Option State :=
  match o with
  | .next s => some s
  | .fault _ => none
  | .refused _ => none

/-! ### Well-formedness: 254 data bytes pass, 255 are refused, in each frame -/

/-- Every frame constructor on data `d`. -/
def frames (d : List Byte) : List Instr :=
  [.iBlock false false d, .rNone false d, .rChecksum false d, .rOther false d, .sResyncRequest d, .sIfsRequest d,
   .sAbortRequest d, .sWtxRequest d, .sEndSessionRequest d, .sChipResetRequest d, .sGetAtrRequest d,
   .sInterfaceSoftResetRequest d, .sResyncResponse d, .sIfsResponse d, .sAbortResponse d, .sWtxResponse d,
   .sEndSessionResponse d, .sChipResetResponse d, .sGetAtrResponse d, .sInterfaceSoftResetResponse d]

theorem test_frame_of_254_bytes_is_wellFormed :
    ∀ i ∈ frames (List.replicate 254 0), i.wellFormed = true := by decide +kernel

theorem test_frame_of_255_bytes_is_illFormed :
    ∀ i ∈ frames (List.replicate 255 0), i.wellFormed = false := by decide +kernel

/-! ### Decoding of words written out from 30_encoding.md R110 to R120 and R140 -/

theorem test_decode_frames_without_data :
    ∀ e ∈ [([0xA5, 0x00, 0x00, 0xA6, 0xF0], Instr.iBlock false false []),
      ([0xA5, 0x80, 0x00, 0x6A, 0x7C], .rNone false []), ([0xA5, 0x90, 0x00, 0xFB, 0xE9], .rNone true []),
      ([0xA5, 0x81, 0x00, 0xB2, 0x65], .rChecksum false []), ([0xA5, 0x91, 0x00, 0x23, 0xF0], .rChecksum true []),
      ([0xA5, 0x82, 0x00, 0xDA, 0x4F], .rOther false []), ([0xA5, 0x92, 0x00, 0x4B, 0xDA], .rOther true []),
      ([0xA5, 0xC0, 0x00, 0x0C, 0x3A], .sResyncRequest []), ([0xA5, 0xC1, 0x00, 0xD4, 0x23], .sIfsRequest []),
      ([0xA5, 0xC2, 0x00, 0xBC, 0x09], .sAbortRequest []), ([0xA5, 0xC3, 0x00, 0x64, 0x10], .sWtxRequest []),
      ([0xA5, 0xC5, 0x00, 0xB4, 0x44], .sEndSessionRequest []),
      ([0xA5, 0xC6, 0x00, 0xDC, 0x6E], .sChipResetRequest []),
      ([0xA5, 0xC7, 0x00, 0x04, 0x77], .sGetAtrRequest []),
      ([0xA5, 0xCF, 0x00, 0xC4, 0xB9], .sInterfaceSoftResetRequest []),
      ([0xA5, 0xE0, 0x00, 0x3F, 0x19], .sResyncResponse []), ([0xA5, 0xE1, 0x00, 0xE7, 0x00], .sIfsResponse []),
      ([0xA5, 0xE2, 0x00, 0x8F, 0x2A], .sAbortResponse []), ([0xA5, 0xE3, 0x00, 0x57, 0x33], .sWtxResponse []),
      ([0xA5, 0xE5, 0x00, 0x87, 0x67], .sEndSessionResponse []),
      ([0xA5, 0xE6, 0x00, 0xEF, 0x4D], .sChipResetResponse []),
      ([0xA5, 0xE7, 0x00, 0x37, 0x54], .sGetAtrResponse []),
      ([0xA5, 0xEF, 0x00, 0xF7, 0x9A], .sInterfaceSoftResetResponse [])],
      decode p0 (.frame e.1) = .ok e.2 := by decide +kernel

theorem test_decode_frames_with_data :
    decode p0 (.frame [0xA5, 0x20, 0x02, 0x11, 0x22, 0x55, 0xB7]) = .ok (.iBlock false true [0x11, 0x22]) ∧
    decode p0 (.frame [0xA5, 0x60, 0x01, 0x33, 0x39, 0x2F]) = .ok (.iBlock true true [0x33]) ∧
    decode p0 (.frame [0xA5, 0x40, 0x02, 0x90, 0x00, 0xB5, 0xB9]) = .ok (.iBlock true false [0x90, 0x00]) ∧
    decode p0 (.frame [0xA5, 0xC3, 0x01, 0x02, 0x80, 0xEF]) = .ok (.sWtxRequest [0x02]) ∧
    decode p0 (.frame [0xA5, 0xE0, 0x01, 0x00, 0xCD, 0x20]) = .ok (.sResyncResponse [0x00]) := by decide +kernel

theorem test_decode_frame_errors :
    decode p0 (.frame [0x5A, 0x00, 0x02, 0x90, 0x00, 0x58, 0x5A]) = .error .badAddress ∧
    decode p0 (.frame [0xA5, 0x00, 0x02, 0x90, 0x00, 0x02, 0x50]) = .error .badCrc ∧
    decode p0 (.frame [0xA5, 0x83, 0x00, 0x02, 0x56]) = .error .badPcb ∧
    decode p0 (.frame [0xA5, 0x00, 0xFF]) = .error .badLength ∧
    decode p0 (.frame [0xA5, 0x00]) = .error .badLength := by decide +kernel

theorem test_decode_commands :
    ∀ e ∈ [(Command.mk 0x01 [.pcb (.s .wtxRequest)], Instr.encodePcb (.s .wtxRequest)),
      (⟨0x02, [.byte 0xC3]⟩, .decodePcb 0xC3), (⟨0x03, [.bytes [0x5A], .bytes [0, 0]]⟩, .checksum [0x5A] [0, 0]),
      (⟨0x10, []⟩, .resync), (⟨0x11, [.buffer ⟨0, 64⟩]⟩, .resetNegotiate ⟨0, 64⟩),
      (⟨0x12, [.buffer ⟨0, 64⟩]⟩, .receive ⟨0, 64⟩), (⟨0x13, []⟩, .waitGuard), (⟨0x14, []⟩, .waitPoll),
      (⟨0x20, [.length 300]⟩, .sopen 300), (⟨0x21, [.bytes [1, 2]]⟩, .swrite [1, 2]), (⟨0x22, []⟩, .sflush)],
      decodeCommand e.1 = .ok e.2 := by decide +kernel

theorem test_decode_command_errors :
    decodeCommand ⟨0x30, []⟩ = .error (.unknownCommand 0x30) ∧
    decodeCommand ⟨0x12, []⟩ = .error (.operandShape 0x12) := by decide +kernel

/-! ### One step: the codec (95_test_vectors.md 2.1, 2.2) -/

theorem test_encodePcb :
    after (exec (.encodePcb (.r true .other)) (idle [])) = some (endState (idle []) (.ok (.byte 0x92))) := by
  decide +kernel

theorem test_decodePcb_ignores_low_bits :
    after (exec (.decodePcb 0x1F) (idle [])) = some (endState (idle []) (.ok (.pcb (.i false false)))) := by
  decide +kernel

theorem test_decodePcb_bad :
    after (exec (.decodePcb 0xA0) (idle [])) = some (endState (idle []) (.err .badPcb)) := by decide +kernel

theorem test_checksum_of_123456789 :
    after (exec (.checksum [] [0x31, 0x32, 0x33, 0x34, 0x35, 0x36, 0x37, 0x38, 0x39]) (idle [])) =
      some (endState (idle []) (.ok (.crc 0x906E [0x6E, 0x90]))) := by decide +kernel

/-! ### One step: the link (95_test_vectors.md 2.4 to 2.7) -/

/-- V-WT-1, V-WT-3. -/
theorem test_waits :
    (after (exec .waitPoll (idle []))).map State.trace = some [.delay 1000] ∧
    (after (exec .waitGuard (idle []))).map State.trace = some [.delay 10] := by decide +kernel

/-- V-RS-1. -/
theorem test_resync :
    (after (exec .resync { idle [.ok [], .ok [0xA5, 0xE0, 0x00], .ok [0x3F, 0x19]] with
      txSeq := true, rxSeq := true })).map (fun s => (s.result, s.txSeq, s.rxSeq, s.trace)) =
    some (some (.ok .unit), false, false,
      [.busWrite 0x48 [0x5A, 0xC0, 0x00, 0xFF, 0xFC] .ok, .delay 10, .busRead 0x48 3 (.ok [0xA5, 0xE0, 0x00]),
       .delay 10, .busRead 0x48 2 (.ok [0x3F, 0x19])]) := by decide +kernel

/-- V-RS-5: the write is refused three times. -/
theorem test_resync_write_timeout :
    (after (exec .resync (idle (nacks 3)))).map (fun s => (s.result, s.trace)) =
    some (some (.err .timeout),
      [.busWrite 0x48 [0x5A, 0xC0, 0x00, 0xFF, 0xFC] (.fail .addrNack), .delay 1000,
       .busWrite 0x48 [0x5A, 0xC0, 0x00, 0xFF, 0xFC] (.fail .addrNack), .delay 1000,
       .busWrite 0x48 [0x5A, 0xC0, 0x00, 0xFF, 0xFC] (.fail .addrNack)]) := by decide +kernel

/-- V-RN-1: the fields of V-ATR-1. -/
theorem test_resetNegotiate :
    (after (exec (.resetNegotiate ⟨0, 64⟩)
      (idle [.ok [], .ok [0xA5, 0xEF, 0x1C], .ok (vAtr1 ++ [0x23, 0x63])]))).map (fun s => (s.atr, s.trace.head?)) =
    some ({ pver := 0, vid := #v[1, 2, 3, 4, 5], bwt := 1000, ifsc := 254, plid := 2, mcf := 400, config := 0,
            mpot := 1, segt := 250, wut := 1000, hist := .ofList [1, 2, 3] },
      some (.busWrite 0x48 [0x5A, 0xCF, 0x00, 0x37, 0x7F] .ok)) := by decide +kernel

/-- V-RN-3: an empty payload gives the defaults. -/
theorem test_resetNegotiate_malformed :
    (after (exec (.resetNegotiate ⟨0, 64⟩) (idle [.ok [], .ok [0xA5, 0xEF, 0x00], .ok [0xF7, 0x9A]]))).map
      State.result = some (some (.ok (.atr a1))) := by decide +kernel

/-! ### One step: reception (95_test_vectors.md 2.8) -/

/-- V-RX-6: three chained blocks, two acknowledgments. -/
theorem test_receive_chain :
    (after (exec (.receive ⟨0, 64⟩) (idle [.ok [0xA5, 0x20, 0x02], .ok [0x11, 0x22, 0x55, 0xB7], .ok [],
      .ok [0xA5, 0x60, 0x01], .ok [0x33, 0x39, 0x2F], .ok [],
      .ok [0xA5, 0x00, 0x03], .ok [0x44, 0x90, 0x00, 0x4D, 0x3A]]))).map
      (fun s => (s.result, s.rxSeq, s.mem)) =
    some (some (.ok (.data 6)), true,
      [(0, 0x11), (1, 0x22), (2, 0x33), (3, 0x44), (4, 0x90), (5, 0x00)]) := by decide +kernel

/-- V-RX-4: the rescaled budget lets the seventh header read succeed. -/
theorem test_receive_wtx :
    (after (exec (.receive ⟨0, 64⟩) (idle (nacks 3 ++ [.ok [0xA5, 0xC3, 0x01], .ok [0x02, 0x80, 0xEF], .ok []] ++
      nacks 6 ++ [.ok [0xA5, 0x00, 0x02], .ok [0x90, 0x00, 0x02, 0xAF]])))).map
      (fun s => (s.result, s.mem)) = some (some (.ok (.data 2)), [(0, 0x90), (1, 0x00)]) := by decide +kernel

/-- The frames with their data, in a reception: the acknowledgment of a chained block is V-RX-6's, the echo
V-RX-4's. -/
theorem test_frames_in_reception :
    (after (exec (.iBlock false true [0x11, 0x22]) (receiving .receive [.ok []]))).map State.trace =
      some [.busWrite 0x48 [0x5A, 0x90, 0x00, 0x08, 0x2F] .ok] ∧
    (after (exec (.sWtxRequest [0x02]) (receiving .receive [.ok []]))).map (fun s => (s.trace, s.engine)) =
      some ([.busWrite 0x48 [0x5A, 0xE3, 0x01, 0x02, 0x69, 0x29] .ok],
        .receiving { rx .receive with budget := 7 }) := by decide +kernel

/-- V-RX-13: a mismatch is logged and the block taken. -/
theorem test_receive_mismatch :
    (after (exec (.iBlock true false [0x90, 0x00]) (receiving .receive []))).map
      (fun s => (s.result, s.rxSeq, s.trace)) =
    some (some (.ok (.data 4)), true, [.seqMismatch false true]) := by decide +kernel

/-- V-RX-11, V-RX-12, V-RX-14: the other frames of a reception. -/
theorem test_frames_that_end_a_reception :
    (after (exec (.rNone false []) (receiving .receive []))).map State.result = some (some (.err .badPcb)) ∧
    (after (exec (.rChecksum false []) (receiving .receive []))).map State.result = some (some (.err .badPcb)) ∧
    (after (exec (.rOther true []) (receiving .receive []))).map State.result = some (some (.err .badPcb)) ∧
    (after (exec (.sAbortRequest []) (receiving .receive []))).map State.result =
      some (some (.ok (.sBlock .abortRequest 2 0))) ∧
    (after (exec (.sWtxRequest [1, 2]) (receiving .receive []))).map State.result = some (some (.err .badPcb)) := by
  decide +kernel

/-! ### One step: the sender (95_test_vectors.md 2.9) and refusals (2.10) -/

theorem test_sopen :
    after (exec (.sopen 4) (idle [])) = some (endState (sending (fresh 4) []) (.ok .unit)) := by decide +kernel

/-- V-SND-1. -/
theorem test_swrite_final :
    (after (exec (.swrite [0x00, 0xA4, 0x04, 0x00]) (sending (fresh 4) [.ok []]))).map
      (fun s => (s.result, s.txSeq, s.trace)) =
    some (some (.ok (.consumed 4)), true,
      [.busWrite 0x48 [0x5A, 0x00, 0x04, 0x00, 0xA4, 0x04, 0x00, 0x2E, 0x31] .ok]) := by decide +kernel

/-- V-SND-13: the first chunk of Y508 is acknowledged. -/
theorem test_swrite_chunk :
    (after (exec (.swrite (List.replicate 508 0x11))
      (sending (fresh 508) [.ok [], .ok [0xA5, 0x90, 0x00, 0xFB, 0xE9]]))).map (fun s => (s.result, s.trace.tail)) =
    some (some (.ok (.consumed 254)), [.delay 10, .busRead 0x48 5 (.ok [0xA5, 0x90, 0x00, 0xFB, 0xE9])]) := by
  decide +kernel

/-- V-SND-4. -/
theorem test_sflush_of_nothing :
    (after (exec .sflush (sending (fresh 0) [.ok []]))).map State.trace =
      some [.busWrite 0x48 [0x5A, 0x00, 0x00, 0x55, 0x36] .ok] := by decide +kernel

/-- V-SND-7. -/
theorem test_swrite_without_sender :
    (after (exec (.swrite [0x01]) (idle []))).map (fun s => (s.fault, s.phase)) =
      some (some .senderNotOpen, .busy .swrite) := by decide +kernel

/-- V-SND-3, V-SND-3b to V-SND-3g: the acknowledgment that is not the one awaited, read by a later step and inside the
SWRITE. -/
theorem test_acknowledgments_refused :
    ∀ e ∈ [(BusAnswer.ok [0xA5, 0x80, 0x00, 0x6A, 0x7C], Err.badPcb), (.ok [0xA5, 0x91, 0x00, 0x23, 0xF0], .badPcb),
      (.ok [0xA5, 0xC3, 0x01, 0x01, 0x1B], .badPcb), (.fail .addrNack, .bus .addrNack),
      (.ok [0xA5, 0x90, 0x00, 0xFB, 0xE8], .badCrc), (.ok [0xA5, 0x90, 0x01, 0x00, 0x00], .badPcb),
      (.ok [0x5A, 0x90, 0x00, 0x08, 0x2F], .badAddress)],
      ∀ o ∈ [step (awaiting [e.1]), exec (.swrite (List.replicate 300 0x11)) (sending (fresh 300) [.ok [], e.1])],
        (after o).map (fun s => (s.result, s.txSeq, s.snd.map Sender.status)) =
          some (some (.err e.2), true, some .failed) := by decide +kernel

theorem test_acknowledgment_accepted :
    (after (step (awaiting [.ok [0xA5, 0x90, 0x00, 0xFB, 0xE9]]))).map (fun s => (s.result, s.phase)) =
      some (some (.ok (.consumed 254)), .idle) := by decide +kernel

/-- V-RF-1. -/
theorem test_unknown_command :
    step { idle [] with port := [⟨0x30, []⟩] } = .refused (.unknownCommand 0x30) := by rfl

/-! ### Words of the opcode table -/

/-- The table's masks and commands decode without evaluating an OPEN parameter. -/
theorem test_table_words :
    ∀ e ∈ [(0x00, Instr.iBlock false false []), (0x80, .rNone false []), (0x91, .rChecksum true []),
      (0x82, .rOther false []), (0xC3, .sWtxRequest []), (0xEF, .sInterfaceSoftResetResponse []),
      (0x10, .resync), (0x12, .receive ⟨0, 0⟩), (0x22, .sflush)],
      decodeTableWord 8 e.1 = some e.2 := by decide +kernel

theorem test_table_word_runs_first :
    step (State.reset.withFetchWord 8 0x13) =
      exec .waitGuard State.reset := by rfl

/-- A placed frame row runs as the first instruction. -/
theorem test_table_frames_run_first :
    (after (step (State.reset.withFetchWord 8 0xC2))).map State.result =
      some (some (.ok (.sBlock .abortRequest 0 0))) ∧
    (after (step (State.reset.withFetchWord 8 0x00))).map State.result = some (some (.ok (.data 0))) := by
  decide +kernel

/-! ### Witnesses: a state and operands that meet the hypotheses of each statement, each clause at its bounds -/

theorem witness_ready : (idle []).Ready ∧ p0.AdoptedMasks ∧ p0.nadC2H = 0xA5 ∧ p0.nadH2C = 0x5A :=
  ⟨⟨rfl, rfl⟩, ⟨rfl, rfl⟩, rfl, rfl⟩

/-- EncodePcbReturnsItsByte, WaitsAppendOneDelay, SopenOpensASender: `Ready` is their one hypothesis. -/
theorem witness_EncodePcbReturnsItsByte : (idle []).Ready := ⟨rfl, rfl⟩
theorem witness_WaitsAppendOneDelay : (zeroPoll []).Ready ∧ (idle []).Ready := ⟨⟨rfl, rfl⟩, ⟨rfl, rfl⟩⟩
theorem witness_SopenOpensASender : (sending (fresh 2) []).Ready := ⟨rfl, rfl⟩

theorem witness_SupervisoryBytesFollowTable : p0.AdoptedMasks := ⟨rfl, rfl⟩
theorem witness_PcbRoundTrip : p0.AdoptedMasks := ⟨rfl, rfl⟩
theorem witness_IllegalPcbBytes : p0.AdoptedMasks := ⟨rfl, rfl⟩

/-- One byte for each clause: I, the four R codes, an S code, and no code. -/
theorem witness_DecodePcbFollowsGates :
    (idle []).Ready ∧ 0x7F#8 &&& p0.iMask = 0 ∧
    (∀ e ∈ [(0x90#8, 0#2), (0x91#8, 1#2), (0x92#8, 2#2), (0x93#8, 3#2)],
      e.1 &&& p0.iMask ≠ 0 ∧ e.1 &&& p0.rMask = 0x80 ∧ e.1.extractLsb' 0 2 = e.2) ∧
    (0xEF#8 &&& p0.iMask ≠ 0 ∧ 0xEF#8 &&& p0.rMask ≠ 0x80 ∧ SCode.interfaceSoftResetResponse.byte = 0xEF#8) ∧
    0xC4#8 &&& p0.iMask ≠ 0 ∧ 0xC4#8 &&& p0.rMask ≠ 0x80 ∧ ∀ code ∈ SCode.all, code.byte ≠ 0xC4#8 :=
  ⟨⟨rfl, rfl⟩, by decide +kernel⟩

theorem witness_ChecksumReturnsCrc : (idle []).Ready := ⟨rfl, rfl⟩
theorem witness_CrcDetectsEveryByteChange : (0x00 : Byte) ≠ 0x80 := by decide

theorem witness_BuildFrameLaysOutTheFrame :
    (List.replicate 254 (0 : Byte)).length ≤ 254 ∧ 254 < (List.replicate 255 (0 : Byte)).length ∧
    p0.nadH2C = 0x5A := by decide +kernel

theorem witness_RefusedCommandsHaveNoStep :
    (∀ code ∈ [0x00#8, 0x04#8, 0x0F#8, 0x15#8, 0x1F#8, 0x23#8, 0xFF#8],
      State.Ready { idle [] with port := [⟨code, []⟩] } ∧
      code ∉ [0x01#8, 0x02#8, 0x03#8, 0x10#8, 0x11#8, 0x12#8, 0x13#8, 0x14#8, 0x20#8, 0x21#8, 0x22#8]) ∧
    State.fault { idle [] with fault := some .divZero } = some .divZero :=
  ⟨by unfold State.Ready; decide, rfl⟩

theorem witness_BusyBlockAcceptsNoCommand :
    (receiving .receive (nacks 1)).phase = .busy .receive ∧ (receiving .receive (nacks 1)).fault = none ∧
    decodeCommand ⟨0x13, []⟩ = .ok .waitGuard ∧ ∃ t, step (receiving .receive (nacks 1)) = .next t :=
  ⟨rfl, rfl, rfl, _, rfl⟩

theorem witness_IdleWaitsAndUnawaitedFrameIsRefused :
    (idle []).Ready ∧ (idle []).port = [] ∧ (idle []).engine = .quiet := ⟨⟨rfl, rfl⟩, rfl, rfl⟩

/-- The requests written at the last attempt. -/
theorem witness_BudgetFollowsAtr :
    (idle []).pollUs ≠ 0 ∧ (zeroPoll (nacks 2 ++ [.ok []])).pollUs = 0 ∧ (zeroPoll (nacks 2 ++ [.ok []])).Ready ∧
    (zeroPoll (nacks 2 ++ [.ok []])).chip = (nacks 2 ++ [.ok []]) ++ [] ∧
    ∀ code ∈ [SCode.resyncRequest, .interfaceSoftResetRequest],
      ∃ evs, WriteRun (zeroPoll (nacks 2 ++ [.ok []])) (.s code) [] (nacks 2 ++ [.ok []]) none evs :=
  ⟨by decide, rfl, ⟨rfl, rfl⟩, rfl, fun _ _ => ⟨_, .sent 2 [] (by decide)⟩⟩

/-- No NACK, as many as still succeed, and as many as do not. -/
theorem witness_WriteFrameRetriesAddressNacks :
    (List.replicate 254 (0 : Byte)).length ≤ 254 ∧ 1 ≤ (idle []).param.writeRetries ∧
    (0 < (idle []).param.writeRetries ∧ (idle [.ok []]).chip = nacks 0 ++ [.ok []]) ∧
    (2 < (idle []).param.writeRetries ∧ (idle (nacks 2 ++ [.ok []])).chip = nacks 2 ++ [.ok []]) ∧
    (BusError.dataNack ≠ .addrNack ∧
      (idle (nacks 2 ++ [.fail .dataNack])).chip = nacks 2 ++ [.fail .dataNack]) ∧
    (idle (nacks 3)).chip = nacks (idle []).param.writeRetries ++ [] := by decide +kernel

/-- A chip frame's two reads (95_test_vectors.md V-RS-1, V-RN-3, V-RX-20, V-RX-5). -/
theorem witness_reads :
    ReadsFrame p0 (.s .resyncResponse) [] [0xA5, 0xE0, 0x00] [0x3F, 0x19] ∧
    ReadsFrame p0 (.s .interfaceSoftResetResponse) [] [0xA5, 0xEF, 0x00] [0xF7, 0x9A] ∧
    ReadsFrame p0 (.i false false) [] [0xA5, 0x00, 0x00] [0xA6, 0xF0] ∧
    ReadsFrame p0 (.i false false) [0x90, 0x00] [0xA5, 0x00, 0x02] [0x90, 0x00, 0x02, 0xAF] ∧
    ReadsFrame p0 (.s .wtxRequest) [0x02] [0xA5, 0xC3, 0x01] [0x02, 0x80, 0xEF] ∧
    ReadsFrame p0 (.s .wtxRequest) [0x00] [0xA5, 0xC3, 0x01] [0x00, 0x92, 0xCC] := by
  unfold ReadsFrame; decide +kernel

/-- A request of a link operation: written at once and at the last attempt, refused, and timed out (V-RS-5). -/
theorem witness_requests (code : SCode) :
    (∃ evs, WriteRun (idle []) (.s code) [] [.ok []] none evs) ∧
    (∃ evs, WriteRun (idle []) (.s code) [] (nacks 2 ++ [.ok []]) none evs) ∧
    (∃ evs, WriteRun (idle []) (.s code) [] [.fail .dataNack] (some (.bus .dataNack)) evs) ∧
    ∃ evs, WriteRun (idle []) (.s code) [] (nacks 3) (some .timeout) evs :=
  ⟨⟨_, .sent 0 [] (by decide)⟩, ⟨_, .sent 2 [] (by decide)⟩, ⟨_, .refused 0 _ (by decide) (by decide)⟩,
    ⟨_, .silent (by decide)⟩⟩

theorem witness_ResyncSucceeds :
    (idle (nacks 2 ++ [.ok []] ++ [.ok [0xA5, 0xE0, 0x00], .ok [0x3F, 0x19]])).Ready ∧ p0.AdoptedMasks ∧
    (idle []).pollUs ≠ 0 ∧ ReadsFrame p0 (.s .resyncResponse) [] [0xA5, 0xE0, 0x00] [0x3F, 0x19] ∧
    (∃ evs, WriteRun (idle []) (.s .resyncRequest) [] (nacks 2 ++ [.ok []]) none evs) ∧
    (idle (nacks 3)).Ready ∧ (idle (nacks 3)).chip = nacks 3 ++ [] ∧
    ∃ evs, WriteRun (idle []) (.s .resyncRequest) [] (nacks 3) (some .timeout) evs :=
  ⟨⟨rfl, rfl⟩, ⟨rfl, rfl⟩, by decide, witness_reads.1, (witness_requests _).2.1, ⟨rfl, rfl⟩, rfl,
    (witness_requests _).2.2.2⟩

/-- A frame that fits a reception: no data, and data that fill the buffer. -/
theorem witness_fits (c : Client) :
    (receiving c []).fault = none ∧ (receiving c []).engine = .receiving (rx c) ∧ (rx c).client = c ∧
    (rx c).written + 0 ≤ (rx c).buf.capacity ∧
    (List.replicate 62 (0 : Byte)).length ≤ 254 ∧
    (rx c).written + (List.replicate 62 (0 : Byte)).length = (rx c).buf.capacity :=
  ⟨rfl, rfl, rfl, by simp [rx], by decide, by simp [rx]⟩

theorem witness_ResyncAcceptsOnlyEmptyResponse :
    (receiving .resync []).fault = none ∧ (receiving .resync []).engine = .receiving (rx .resync) ∧
    (rx .resync).client = .resync ∧ (rx .resync).written + [0x00#8].length ≤ (rx .resync).buf.capacity ∧
    [0x00#8] ≠ [] ∧ SCode.resyncRequest ≠ .resyncResponse ∧ SCode.resyncRequest ≠ .wtxRequest := by decide

theorem witness_ResetNegotiateWritesAtr :
    (idle (nacks 2 ++ [.ok []] ++ [.ok [0xA5, 0xEF, 0x00], .ok [0xF7, 0x9A]])).Ready ∧ p0.AdoptedMasks ∧
    (idle []).pollUs ≠ 0 ∧ ([] : List Byte).length ≤ (Buffer.mk 0 0).capacity ∧
    ReadsFrame p0 (.s .interfaceSoftResetResponse) [] [0xA5, 0xEF, 0x00] [0xF7, 0x9A] ∧
    (∃ evs, WriteRun (idle []) (.s .interfaceSoftResetRequest) [] (nacks 2 ++ [.ok []]) none evs) ∧
    (idle [.fail .dataNack]).Ready ∧ (idle [.fail .dataNack]).chip = [.fail .dataNack] ++ [] ∧
    ∃ evs, WriteRun (idle []) (.s .interfaceSoftResetRequest) [] [.fail .dataNack] (some (.bus .dataNack)) evs :=
  ⟨⟨rfl, rfl⟩, ⟨rfl, rfl⟩, by decide, by decide, witness_reads.2.1, (witness_requests _).2.1, ⟨rfl, rfl⟩, rfl,
    (witness_requests _).2.2.1⟩

theorem witness_ResetNegotiateAcceptsOnlyItsResponse :
    (receiving .resetNegotiate []).fault = none ∧
    (receiving .resetNegotiate []).engine = .receiving (rx .resetNegotiate) ∧
    (rx .resetNegotiate).client = .resetNegotiate ∧
    (rx .resetNegotiate).written + (List.replicate 62 (0 : Byte)).length = (rx .resetNegotiate).buf.capacity ∧
    SCode.resyncResponse ≠ .interfaceSoftResetResponse ∧ SCode.resyncResponse ≠ .wtxRequest := by decide

/-- Both sides of the equivalence: V-ATR-1 parses, and V-PA-7 does not. -/
theorem witness_ParseAtrReadsTheLayout :
    (parseAtr vAtr1).isSome = true ∧ parseAtr (vAtr1.take 27) = none ∧ parseAtr [] = none := by decide

theorem witness_ReceiveReturnsAFinalBlock :
    (idle [.ok [0xA5, 0x00, 0x02], .ok [0x90, 0x00, 0x02, 0xAF]]).Ready ∧ p0.AdoptedMasks ∧ (idle []).pollUs ≠ 0 ∧
    [0x90#8, 0x00#8].length ≤ (Buffer.mk 0 2).capacity ∧
    ReadsFrame p0 (.i false false) [0x90, 0x00] [0xA5, 0x00, 0x02] [0x90, 0x00, 0x02, 0xAF] :=
  ⟨⟨rfl, rfl⟩, ⟨rfl, rfl⟩, by decide, by decide, witness_reads.2.2.2.1⟩

theorem witness_ReceiveTimesOutAfterItsBudget :
    ((idle (nacks 4)).Ready ∧ (idle []).pollUs ≠ 0 ∧
      (idle (nacks 4)).chip = nacks ((idle []).bwtUs / (idle []).pollUs + 1) ++ []) ∧
    State.phase { receiving .receive [] with engine := .receiving { rx .receive with i := 4 } } = .busy .receive ∧
    (4 : Nat) ≤ (Rx.mk .receive ⟨0x100, 64⟩ 2 4 4).i := ⟨⟨⟨rfl, rfl⟩, by decide, by decide⟩, rfl, by decide⟩

theorem witness_FinalBlockEndsReception :
    (receiving .receive []).fault = none ∧ (receiving .receive []).engine = .receiving (rx .receive) ∧
    (rx .receive).written + (List.replicate 62 (0 : Byte)).length = (rx .receive).buf.capacity := by decide

/-- The write of the acknowledgment succeeds at its last attempt, fails there, and times out. -/
theorem witness_ChainedBlockIsAcknowledged :
    let s := receiving .receive (nacks 2 ++ [.ok []])
    s.fault = none ∧ s.engine = .receiving (rx .receive) ∧
    (rx .receive).written + (List.replicate 62 (0 : Byte)).length = (rx .receive).buf.capacity ∧
    s.chip = (nacks 2 ++ [.ok []]) ++ [] ∧
    (∃ evs, WriteRun s (.r (!s.rxSeq) .none) [] (nacks 2 ++ [.ok []]) none evs) ∧
    (∃ evs, WriteRun s (.r (!s.rxSeq) .none) [] (nacks 2 ++ [.fail .dataNack]) (some (.bus .dataNack)) evs) ∧
    ∃ evs, WriteRun s (.r (!s.rxSeq) .none) [] (nacks 3) (some .timeout) evs :=
  ⟨rfl, rfl, by decide, rfl, ⟨_, .sent 2 [] (by decide)⟩, ⟨_, .refused 2 _ (by decide) (by decide)⟩,
    ⟨_, .silent (by decide)⟩⟩

/-- The write of the echo succeeds, fails, and times out; the request has no data, and two bytes. -/
theorem witness_WtxRequestIsEchoed :
    let s := receiving .resync [.ok []]
    s.fault = none ∧ s.engine = .receiving (rx .resync) ∧ s.pollUs ≠ 0 ∧
    (rx .resync).written + 1 ≤ (rx .resync).buf.capacity ∧ s.chip = [.ok []] ++ [] ∧
    (∃ evs, WriteRun s (.s .wtxResponse) [0x02] [.ok []] none evs) ∧
    (∃ evs, WriteRun s (.s .wtxResponse) [0x02] [.fail (.other 7)] (some (.bus (.other 7))) evs) ∧
    (∃ evs, WriteRun s (.s .wtxResponse) [0x02] (nacks 3) (some .timeout) evs) ∧
    ([] : List Byte).length ≠ 1 ∧ [0x01#8, 0x02#8].length ≠ 1 :=
  ⟨rfl, rfl, by decide, by decide, rfl, ⟨_, .sent 0 [] (by decide)⟩, ⟨_, .refused 0 _ (by decide) (by decide)⟩,
    ⟨_, .silent (by decide)⟩, by decide, by decide⟩

theorem witness_OtherSupervisoryBlockEndsReception :
    (receiving .receive []).fault = none ∧ (receiving .receive []).engine = .receiving (rx .receive) ∧
    (rx .receive).client = .receive ∧
    (rx .receive).written + (List.replicate 62 (0 : Byte)).length = (rx .receive).buf.capacity := by decide

theorem witness_ReceiptBlockInReceptionIsBadPcb :
    (receiving .resync []).fault = none ∧ (receiving .resync []).engine = .receiving (rx .resync) ∧
    (rx .resync).written + (List.replicate 62 (0 : Byte)).length = (rx .resync).buf.capacity := by decide

/-- LEN 255, and one byte more than the buffer has left. -/
theorem witness_UnfittingHeaderIsReceptionBuffer :
    (receiving .receive []).phase = .busy .receive ∧ (rx .receive).i < (rx .receive).budget ∧
    254 < (0xFF#8).toNat ∧ (rx .receive).buf.capacity < (rx .receive).written + (63#8).toNat ∧
    (receiving .receive [.ok [0x00, 0x00, 0xFF]]).chip = [.ok [0x00, 0x00, 0xFF]] ∧
    (receiving .receive [.ok [0x00, 0x00, 63]]).chip = [.ok [0x00, 0x00, 63]] := by decide

theorem witness_HeaderNackWaitsForTheNextPoll :
    (receiving .receive []).fault = none ∧ (receiving .receive []).phase = .busy .receive ∧
    (rx .receive).i < (rx .receive).budget ∧
    (receiving .receive [.fail .addrNack]).chip = [.fail .addrNack] ∧
    (receiving .receive [.fail (.other 7)]).chip = [.fail (.other 7)] ∧ BusError.other 7 ≠ .addrNack := by decide

/-- An error of the body read, and V-RX-7, V-RX-8 and V-RX-18 for the three checks. -/
theorem witness_FrameChecksRunInOrder :
    (rx .receive).i < (rx .receive).budget ∧ (62#8).toNat ≤ 254 ∧
    (rx .receive).written + (62#8).toNat = (rx .receive).buf.capacity ∧
    (receiving .receive [.ok [0xA5, 0x00, 62], .fail .addrNack]).chip = [.ok [0xA5, 0x00, 62], .fail .addrNack] ∧
    0x5A#8 ≠ p0.nadC2H ∧
    (0xA5#8 = p0.nadC2H ∧ crc16X25 [0xA5, 0x00, 0x02, 0x90, 0x00] ≠ fromLe16 0x02 0x50) ∧
    crc16X25 [0xA5, 0x83, 0x00] = fromLe16 0x02 0x56 ∧ decodePcbByte p0 0x83 = none := by decide +kernel

/-- One chained block, whose acknowledgment is taken at the last attempt, and a final one (V-RX-6). -/
theorem witness_ChainReassembles :
    let x : ChipBlock := ⟨false, [0x11, 0x22], [0xA5, 0x20, 0x02], [0x11, 0x22, 0x55, 0xB7], 2, []⟩
    x.Sent p0 ∧ [x].length ≤ (idle []).bwtUs / (idle []).pollUs ∧ p0.chainResetsBudget = false ∧
    ReadsFrame p0 (.i false false) [0x90, 0x00] [0xA5, 0x00, 0x02] [0x90, 0x00, 0x02, 0xAF] ∧
    (chainData [x]).length + 2 = (Buffer.mk 0 4).capacity := by
  unfold ChipBlock.Sent ReadsFrame; decide +kernel

/-- V-RX-4 and V-RX-4b: `a` at its bound, the echo written at the last attempt, and `n` on both sides of the rescaled
budget. -/
theorem witness_WtxRescalesTheBudget :
    (idle []).pollUs ≠ 0 ∧ (∃ evs, WriteRun (idle []) (.s .wtxResponse) [0x02] (nacks 2 ++ [.ok []]) none evs) ∧
    3 = (idle []).bwtUs / (idle []).pollUs ∧ 1 ≤ (Buffer.mk 0 2).capacity ∧
    [0x90#8, 0x00#8].length ≤ (Buffer.mk 0 2).capacity ∧
    6 + 1 = (idle []).bwtUs * (0x02#8).toNat / (idle []).pollUs + 1 ∧
    (idle []).bwtUs * (0x02#8).toNat / (idle []).pollUs + 1 = 7 ∧
    ReadsFrame p0 (.s .wtxRequest) [0x02] [0xA5, 0xC3, 0x01] [0x02, 0x80, 0xEF] ∧
    ReadsFrame p0 (.i false false) [0x90, 0x00] [0xA5, 0x00, 0x02] [0x90, 0x00, 0x02, 0xAF] :=
  ⟨by decide, ⟨_, .sent 2 [] (by decide)⟩, by decide, by decide, by decide, by decide, by decide,
    witness_reads.2.2.2.2.1, witness_reads.2.2.2.1⟩

/-- A reception in progress, and the three operations at their start. -/
theorem witness_ReceptionIsItsFrameSteps :
    ((receiving .receive (nacks 2)).fault = none ∧ (receiving .receive (nacks 2)).phase = .busy .receive ∧
      (receiving .receive (nacks 2)).engine = .receiving (rx .receive)) ∧
    (idle (nacks 4)).Ready ∧ (idle (nacks 4)).pollUs ≠ 0 ∧
    (idle (nacks 2 ++ [.ok []] ++ nacks 4)).Ready ∧
    ∀ code, ∃ evs, WriteRun (idle []) (.s code) [] (nacks 2 ++ [.ok []]) none evs :=
  ⟨by decide, ⟨rfl, rfl⟩, by decide, ⟨rfl, rfl⟩, fun _ => (witness_requests _).2.1⟩

theorem witness_holds : (holding 4).Holds [0x01] ∧ (fresh 4).Holds [] := by
  unfold Sender.Holds; decide

/-- Nothing consumed, and one byte short of the message. -/
theorem witness_SwriteBuffersWithoutBusActivity :
    (sending (holding 4) []).Ready ∧ (holding 4).Holds [0x01] ∧ (holding 4).status ≠ .failed ∧
    min ([] : List Byte).length (254 - 1) = 0 ∧
    ((holding 4).written + min [0x02#8, 0x03#8].length (254 - 1) ≤ (holding 4).total ∧
      1 + min [0x02#8, 0x03#8].length (254 - 1) ≠ 254 ∧
      (holding 4).written + min [0x02#8, 0x03#8].length (254 - 1) ≠ (holding 4).total) :=
  ⟨⟨rfl, rfl⟩, witness_holds.1, by decide⟩

theorem witness_SwriteSendsTheFinalChunk :
    (sending (holding 4) (nacks 2 ++ [.ok []])).Ready ∧ (holding 4).Holds [0x01] ∧ (holding 4).status ≠ .failed ∧
    0 < min [0x02#8, 0x03#8, 0x04#8].length (254 - 1) ∧
    (holding 4).written + min [0x02#8, 0x03#8, 0x04#8].length (254 - 1) = (holding 4).total ∧
    ∃ evs, WriteRun (sending (holding 4) []) (.i false false) ([0x01] ++ [0x02#8, 0x03#8, 0x04#8].take 3)
      (nacks 2 ++ [.ok []]) none evs :=
  ⟨⟨rfl, rfl⟩, witness_holds.1, by decide, by decide, by decide, _, .sent 2 [] (by decide)⟩

/-- The right acknowledgment, and every case of a refused one in the order of the checks (V-SND-3d, V-SND-3g, V-SND-3,
V-SND-3b, V-SND-3c, V-SND-3f, V-SND-3e). -/
theorem witness_acknowledgments :
    [0xA5, 0x90, 0x00, 0xFB, 0xE9] = frameBytes p0.nadC2H (.r (!(idle []).txSeq) .none) [] ∧
    AckRefused p0 true (.fail .addrNack) (.bus .addrNack) ∧
    AckRefused p0 true (.ok [0x5A, 0x90, 0x00, 0x08, 0x2F]) .badAddress ∧
    AckRefused p0 true (.ok [0xA5, 0x80, 0x00, 0x6A, 0x7C]) .badPcb ∧
    AckRefused p0 true (.ok [0xA5, 0x91, 0x00, 0x23, 0xF0]) .badPcb ∧
    AckRefused p0 true (.ok [0xA5, 0xC3, 0x01, 0x01, 0x1B]) .badPcb ∧
    AckRefused p0 true (.ok [0xA5, 0x90, 0x01, 0x00, 0x00]) .badPcb ∧
    AckRefused p0 true (.ok [0xA5, 0x90, 0x00, 0xFB, 0xE8]) .badCrc :=
  ⟨by decide +kernel, .bus _, .address _ _ _ _ (by decide), .pcb _ _ _ (by decide), .pcb _ _ _ (by decide),
    .pcb _ _ _ (by decide), .length _ _ (by decide) (by decide), .crc (by decide) (by decide +kernel)⟩

/-- The write succeeds at its last attempt; the acknowledgment at hand, right or refused, and none. -/
theorem witness_SwriteSendsAFullChunk :
    let used := nacks 2 ++ [BusAnswer.ok []]
    (sending (fresh 255) used).Ready ∧ (sending (fresh 255) used).chip = used ∧
    (sending (fresh 255) (used ++ [.ok [0xA5, 0x90, 0x00, 0xFB, 0xE9]])).Ready ∧
    (sending (fresh 255) (used ++ [.fail .addrNack])).Ready ∧ p0.AdoptedMasks ∧
    (fresh 255).Holds [] ∧ (fresh 255).status ≠ .failed ∧
    0 + min (List.replicate 255 (0x11 : Byte)).length (254 - 0) = 254 ∧ (fresh 255).written + 254 < (fresh 255).total ∧
    ∃ evs, WriteRun (sending (fresh 255) []) (.i false true) ([] ++ (List.replicate 255 0x11).take 254) used none evs :=
  ⟨⟨rfl, rfl⟩, rfl, ⟨rfl, rfl⟩, ⟨rfl, rfl⟩, ⟨rfl, rfl⟩, by unfold Sender.Holds; decide, by decide,
    by decide +kernel, by decide, _, .sent 2 [] (by decide)⟩

/-- An error of the read, then V-SND-3g, V-SND-3, V-SND-3f, V-SND-3e and the right acknowledgment. -/
theorem witness_AcknowledgmentChecksRunInOrder :
    (awaiting [.fail .addrNack]).fault = none ∧ (awaiting []).phase = .busy .swrite ∧
    (awaiting []).engine = .awaitingAck (.consumed 254) ∧ (awaiting [.fail .addrNack]).chip = [.fail .addrNack] ∧
    0x5A#8 ≠ p0.nadC2H ∧ 0xA5#8 = p0.nadC2H ∧
    decodePcbByte p0 0x80 ≠ some (.r (awaiting []).txSeq .none) ∧
    decodePcbByte p0 0x90 = some (.r (awaiting []).txSeq .none) ∧ (0x01#8) ≠ 0 ∧
    crc16X25 [0xA5, 0x90, 0x00] ≠ fromLe16 0xFB 0xE8 ∧ crc16X25 [0xA5, 0x90, 0x00] = fromLe16 0xFB 0xE9 := by
  decide +kernel

/-- The last chunk (V-SND-8) and a full one, and an SFLUSH of nothing; each write refused, and timed out. -/
theorem witness_FailedFlushFailsTheSender :
    ((sending (fresh 2) [.fail .dataNack]).Ready ∧ (fresh 2).Holds [] ∧ (fresh 2).status ≠ .failed ∧
      (fresh 2).written + min [0x01#8, 0x02#8].length (254 - 0) = (fresh 2).total ∧
      ∃ evs, WriteRun (sending (fresh 2) []) (.i false false) ([] ++ [0x01#8, 0x02#8].take 2) [.fail .dataNack]
        (some (.bus .dataNack)) evs) ∧
    ((sending (fresh 300) (nacks 3)).Ready ∧ (fresh 300).Holds [] ∧
      (fresh 300).written + min (List.replicate 300 (0x11 : Byte)).length (254 - 0) ≤ (fresh 300).total ∧
      0 + min (List.replicate 300 (0x11 : Byte)).length (254 - 0) = 254 ∧
      ∃ evs, WriteRun (sending (fresh 300) []) (.i false true) ([] ++ (List.replicate 300 0x11).take 254) (nacks 3)
        (some .timeout) evs) ∧
    ((sending (fresh 0) (nacks 3)).Ready ∧ (fresh 0).Holds [] ∧ (fresh 0).status = .active ∧
      (fresh 0).total ≤ (fresh 0).written ∧
      ∃ evs, WriteRun (sending (fresh 0) []) (.i false false) [] (nacks 3) (some .timeout) evs) := by
  have none (n : Nat) : (fresh n).Holds [] := ⟨rfl, fun k h => absurd h (Nat.not_lt_zero k)⟩
  exact ⟨⟨⟨rfl, rfl⟩, none 2, by decide, by decide, _, .refused 0 _ (by decide) (by decide)⟩,
    ⟨⟨rfl, rfl⟩, none 300, by decide +kernel, by decide +kernel, _, .silent (by decide)⟩,
    ⟨⟨rfl, rfl⟩, none 0, rfl, by decide, _, .silent (by decide)⟩⟩

/-- No sender, a failed one, and one byte too many (V-SND-7, V-SND-3, V-SND-5). -/
theorem witness_SwriteFaults :
    (idle []).Ready ∧ (idle []).snd = none ∧ (awaiting []).snd ≠ none ∧
    (sending { fresh 2 with status := .failed } []).Ready ∧ (sending (fresh 2) []).Ready ∧
    (fresh 2).status ≠ .failed ∧ (fresh 2).total < (fresh 2).written + min 3 (254 - (fresh 2).chunkLen) :=
  ⟨⟨rfl, rfl⟩, rfl, by decide, ⟨rfl, rfl⟩, ⟨rfl, rfl⟩, by decide⟩

/-- No sender, a failed one, a done one, one that owes a byte, and one that owes none with 254 bytes held. -/
theorem witness_SflushOutcomes :
    (∃ evs, WriteRun (sending (holding 1) []) (.i false false) [0x01] [.ok []] none evs) ∧ (idle []).Ready ∧ (idle []).snd = none ∧ (sending { fresh 2 with status := .failed } []).Ready ∧
    (sending { fresh 0 with status := .done } []).Ready ∧ (holding 2).written < (holding 2).total ∧
    ((holding 1).status = .active ∧ (holding 1).total ≤ (holding 1).written ∧ (holding 1).Holds [0x01] ∧
      (sending (holding 1) [.ok []]).Ready ∧ (sending (holding 1) [.ok []]).chip = [.ok []] ++ []) :=
  ⟨⟨_, .sent 0 [] (by decide)⟩, ⟨rfl, rfl⟩, rfl, ⟨rfl, rfl⟩, ⟨rfl, rfl⟩, by decide,
    ⟨rfl, by decide, by unfold Sender.Holds; decide, ⟨rfl, rfl⟩, rfl⟩⟩

theorem witness_OnlyTheAcknowledgmentIsAccepted :
    (awaiting []).fault = none ∧ (awaiting []).engine = .awaitingAck (.consumed 254) ∧
    (Pcb.r true .none, [0x00#8]) ≠ (.r (awaiting []).txSeq .none, []) ∧
    (Pcb.r false .none, ([] : List Byte)) ≠ (.r (awaiting []).txSeq .none, []) := by decide

theorem witness_ErrorsOfEachOperation :
    (∃ t, exec (.decodePcb 0x83) (idle []) = .next t ∧ t.result = some (.err .badPcb)) ∧
    (∃ t, exec (.swrite [0x01, 0x02]) (sending (fresh 2) [.fail .dataNack]) = .next t ∧
      t.result = some (.err (.bus .dataNack))) ∧
    ∃ t, exec .sflush (sending (fresh 0) [.fail .dataNack]) = .next t ∧ t.result = some (.err (.bus .dataNack)) :=
  ⟨⟨_, rfl, by decide +kernel⟩, ⟨_, rfl, by decide +kernel⟩, ⟨_, rfl, by decide +kernel⟩⟩

theorem witness_StepRunsTheNextCommand :
    State.Ready { idle [] with port := [⟨0x13, []⟩] } ∧ decode p0 (.command ⟨0x13, []⟩) = .ok .waitGuard :=
  ⟨⟨rfl, rfl⟩, rfl⟩

theorem witness_StepRunsTheReceivedFrame :
    (receiving .receive []).fault = none ∧ (receiving .receive []).phase = .busy .receive ∧
    (rx .receive).i < (rx .receive).budget ∧ ([0xA5, 0x00, 0x02] : List Byte).length = 3 ∧
    (0x02#8).toNat ≤ 254 ∧ (rx .receive).written + (0x02#8).toNat ≤ (rx .receive).buf.capacity ∧
    ([0x90, 0x00, 0x02, 0xAF] : List Byte).length = (0x02#8).toNat + 2 ∧
    decode p0 (.frame ([0xA5, 0x00, 0x02] ++ [0x90, 0x00, 0x02, 0xAF])) = .ok (.iBlock false false [0x90, 0x00]) := by
  decide +kernel

theorem witness_StepRunsTheAcknowledgment :
    (awaiting []).fault = none ∧ (awaiting []).phase = .busy .swrite ∧
    (awaiting []).engine = .awaitingAck (.consumed 254) ∧
    [0xA5, 0x90, 0x00, 0xFB, 0xE9] = frameBytes p0.nadC2H (.r (awaiting []).txSeq .none) [] := by decide +kernel

theorem witness_WrittenOutWordsDecode : p0.AdoptedMasks ∧ p0.nadC2H = 0xA5 := ⟨⟨rfl, rfl⟩, rfl⟩

theorem witness_DecodeInvertsEncode :
    p0.AdoptedMasks ∧ (Instr.iBlock true true (List.replicate 254 0)).wellFormed = true :=
  ⟨⟨rfl, rfl⟩, by decide +kernel⟩

/-- An R-block, an I-block without ignored bits set, and a command. -/
theorem witness_DecodeGivesWellFormed :
    p0.AdoptedMasks ∧ decode p0 (.frame [0xA5, 0x80, 0x00, 0x6A, 0x7C]) = .ok (.rNone false []) ∧
    0x80 ≤ (([0xA5, 0x80, 0x00, 0x6A, 0x7C] : List Byte).getD 1 0).toNat ∧
    decode p0 (.frame [0xA5, 0x60, 0x01, 0x33, 0x39, 0x2F]) = .ok (.iBlock true true [0x33]) ∧
    ([0xA5, 0x60, 0x01, 0x33, 0x39, 0x2F] : List Byte).getD 1 0 &&& 0x1F = 0 ∧
    decode p0 (.command ⟨0x22, []⟩) = .ok .sflush := ⟨⟨rfl, rfl⟩, by decide +kernel⟩

theorem witness_ResetValues : ∃ t, exec (.sopen 4) (idle []) = .next t := ⟨_, rfl⟩

/-- A state that meets the invariant with a byte held in the chunk of an open sender, and steps. That reset meets it is
InvHoldsAtReset's own claim, the prover's. -/
theorem witness_StepKeepsInv : ∃ s t, s.Inv ∧ s.snd = some (holding 4) ∧ step s = .next t := by
  refine ⟨sending (holding 4) [], _, ⟨rfl, rfl, ?_, ?_, ?_, fun _ => ⟨rfl, rfl⟩, ?_, ?_⟩, rfl, rfl⟩
  · intro y h; cases h
    exact ⟨by decide, by decide, by decide, rfl, by decide, by decide⟩
  · intro _ _ y h _; cases h; decide
  · intro _ r h; cases h
  · intro op h; cases h
  · intro e h; cases h

theorem witness_TraceIsAppendOnly : ∃ t, step (receiving .receive (nacks 1)) = .next t := ⟨_, rfl⟩
theorem witness_ParametersAreNeverWritten : ∃ t, step (awaiting [.fail .addrNack]) = .next t := ⟨_, rfl⟩

/-- Addresses on both sides of the buffer, and a command that has no buffer. -/
theorem witness_BlockWritesOnlyInsideTheBuffer :
    (0xFF < (Buffer.mk 0x100 64).base ∧ (Buffer.mk 0x100 64).base + (Buffer.mk 0x100 64).capacity ≤ 0x140 ∧
      (∃ t, exec (.receive ⟨0x100, 64⟩) (idle (nacks 1)) = .next t) ∧
      ∃ t, exec (.resetNegotiate ⟨0x100, 64⟩) (idle [.fail .dataNack]) = .next t) ∧
    ((∃ t, step (receiving .receive (nacks 1)) = .next t) ∧ (rx .receive).written ≤ (rx .receive).buf.capacity) ∧
    decodeCommand ⟨0x13, []⟩ = .ok .waitGuard ∧ ∃ t, exec .waitGuard (idle []) = .next t :=
  ⟨⟨by decide, by decide, ⟨_, rfl⟩, ⟨_, rfl⟩⟩, ⟨⟨_, rfl⟩, by decide⟩, rfl, ⟨_, rfl⟩⟩

theorem witness_DirectionsAreIndependent :
    (∃ t, exec (.receive ⟨0, 64⟩) (idle (nacks 4)) = .next t) ∧ (∃ t, exec .sflush (idle []) = .next t) ∧
    (∃ t, exec .waitPoll (idle []) = .next t) ∧ ∃ t, exec .resync (idle (nacks 3)) = .next t :=
  ⟨⟨_, rfl⟩, ⟨_, rfl⟩, ⟨_, rfl⟩, ⟨_, rfl⟩⟩

/-- `atr` changes in a step that ends RESET_NEGOTIATE well; RESYNC ends well, and in error. -/
theorem witness_LinkParametersChangeOnlyOnSuccess :
    (∃ t, step { zeroPoll [.ok [], .ok [0xA5, 0xEF, 0x00], .ok [0xF7, 0x9A]] with
        atr := { a1 with mpot := 2 }, port := [⟨0x11, [.buffer ⟨0, 64⟩]⟩] } = .next t ∧
      t.atr ≠ { a1 with mpot := 2 }) ∧
    (∃ t, exec .resync (idle [.ok [], .ok [0xA5, 0xE0, 0x00], .ok [0x3F, 0x19]]) = .next t ∧
      t.result = some (.ok .unit)) ∧
    ∃ t, exec .resync (idle (nacks 3)) = .next t ∧ t.result = some (.err .timeout) :=
  ⟨⟨_, rfl, by decide +kernel⟩, ⟨_, rfl, by decide +kernel⟩, ⟨_, rfl, by decide +kernel⟩⟩

theorem witness_GuardWaitBeforeEveryRead :
    ∃ t, step (awaiting [.fail .addrNack]) = .next t ∧
      t.trace = (awaiting []).trace ++ [.delay 10, .busRead 0x48 5 (.fail .addrNack)] := ⟨_, rfl, rfl⟩

end Sys2Proof.Tests
end

section
/-! PROOFS. The derived intervals and the budget (10_state.md R48): a frame write that the bus takes, whatever number
of address NACKs comes before, and the three operations that then compute the budget. -/

namespace Sys2Proof.Machine

/-! ### A frame write that succeeds -/

/-- The write loop when the next answer takes the frame. -/
theorem writeAttempts_ok_at {s : State} {b : List Byte} {rest : List BusAnswer} (h : s.chip = .ok b :: rest)
    (n : Nat) (f : List Byte) :
    writeAttempts n f s = .ok ()
      { s with chip := rest, fresh := s.fresh + 1,
               trace := s.trace ++ [.busWrite s.param.i2cAddr f .ok] } := by
  cases n <;> simp [writeAttempts, busWrite_at h, writeResultOf]

/-- A frame write that meets a run without an error uses exactly the run's answers and appends its events
(43_frame_sender.md R300). -/
theorem writeFrame_of_writeRun {s : State} {p : Pcb} {d : List Byte} {used rest : List BusAnswer}
    {evs : List Event} (h : WriteRun s p d used none evs) (hd : d.length ≤ Config.maxData)
    (hc : s.chip = used ++ rest) :
    writeFrame p d s = .ok ()
      { s with chip := rest, fresh := s.fresh + used.length, trace := s.trace ++ evs } := by
  cases h with
  | sent k b hk =>
    have hc' : s.chip = nacks k ++ .ok b :: rest := by simpa using hc
    have hsplit : s.param.writeRetries - 1 = k + (s.param.writeRetries - 1 - k) := by omega
    rw [writeFrame, buildFrame_eq hd]
    dsimp only
    rw [hsplit, writeAttempts_nacks _ _ _ _ _ hc', writeAttempts_ok_at rfl]
    simp [nacks, writeNackEvents, writeEvent, Nat.add_assoc]

/-- A request that the bus takes is followed by the reception of its answer. -/
theorem exchange_of_writeRun {s : State} {request : SCode} {used rest : List BusAnswer} {evs : List Event}
    (h : WriteRun s (.s request) [] used none evs) (hc : s.chip = used ++ rest) (client : Client)
    (buf : Buffer) :
    exchange request client buf s = beginReception client buf
      { s with chip := rest, fresh := s.fresh + used.length, trace := s.trace ++ evs } := by
  rw [exchange, writeFrame_of_writeRun h (Nat.zero_le _) hc]

/-! ### The budget -/

theorem baseBudget_eq_some {s : State} (h : s.pollUs ≠ 0) : s.baseBudget = some (s.bwtUs / s.pollUs + 1) :=
  if_neg h

/-- A reception that computes its budget from a zero poll interval stops before its first bus action. -/
theorem beginReception_divZero {s : State} (h : s.pollUs = 0) (client : Client) (buf : Buffer) :
    beginReception client buf s = .stuck .divZero s := by
  simp [beginReception, State.baseBudget, budgetOf, h]

/-- RESYNC and RESET_NEGOTIATE compute the budget only after their request is on the bus. -/
theorem exchange_divZero {s : State} {request : SCode} {used rest : List BusAnswer} {evs : List Event}
    (h : WriteRun s (.s request) [] used none evs) (hc : s.chip = used ++ rest) (hp : s.pollUs = 0)
    (client : Client) (buf : Buffer) :
    exchange request client buf s = .stuck .divZero
      { s with chip := rest, fresh := s.fresh + used.length, trace := s.trace ++ evs } := by
  rw [exchange_of_writeRun h hc, beginReception_divZero]
  exact hp

/-! ### The three operations on a ready block -/

section
variable {s : State} (hs : s.Ready)
include hs

theorem exec_receive_of_ready (buf : Buffer) :
    exec (.receive buf) s = .next (finish (beginReception .receive buf (s.accept .receive))) :=
  command_ready hs _ _

theorem exec_resync_of_ready : exec .resync s = .next (finish (resyncOp (s.accept .resync))) :=
  command_ready hs _ _

theorem exec_resetNegotiate_of_ready (buf : Buffer) :
    exec (.resetNegotiate buf) s = .next (finish (resetNegotiateOp buf (s.accept .resetNegotiate))) :=
  command_ready hs _ _

theorem exec_receive_divZero (hp : s.pollUs = 0) (buf : Buffer) :
    exec (.receive buf) s = .next (stuckState s .receive .divZero) := by
  have hp' : (s.accept .receive).pollUs = 0 := hp
  rw [exec_receive_of_ready hs, beginReception_divZero hp']
  rfl

theorem exec_resync_divZero (hp : s.pollUs = 0) {used rest : List BusAnswer} {evs : List Event}
    (hc : s.chip = used ++ rest) (hw : WriteRun s (.s .resyncRequest) [] used none evs) :
    exec .resync s = .next (stuckState
      { s with scratch := [], chip := rest, fresh := s.fresh + used.length, trace := s.trace ++ evs }
      .resync .divZero) := by
  have hw' : WriteRun { s.accept .resync with scratch := [] } (.s .resyncRequest) [] used none evs :=
    hw.congr rfl rfl
  rw [exec_resync_of_ready hs, resyncOp, exchange_divZero hw' hc hp]
  rfl

theorem exec_resetNegotiate_divZero (hp : s.pollUs = 0) {used rest : List BusAnswer} {evs : List Event}
    (hc : s.chip = used ++ rest) (hw : WriteRun s (.s .interfaceSoftResetRequest) [] used none evs)
    (buf : Buffer) :
    exec (.resetNegotiate buf) s = .next (stuckState
      { s with chip := rest, fresh := s.fresh + used.length, trace := s.trace ++ evs }
      .resetNegotiate .divZero) := by
  have hw' : WriteRun (s.accept .resetNegotiate) (.s .interfaceSoftResetRequest) [] used none evs :=
    hw.congr rfl rfl
  rw [exec_resetNegotiate_of_ready hs, resetNegotiateOp, exchange_divZero hw' hc hp]
  rfl

end

/-- Settles O13: the intervals hold by definition; at a zero poll interval each of the three operations stops where
it begins its reception. -/
theorem budgetFollowsAtr : Obligations.BudgetFollowsAtr := by
  intro s
  refine ⟨rfl, rfl, rfl, baseBudget_eq_some, fun hp hs => ⟨exec_receive_divZero hs hp, ?_⟩⟩
  intro used rest evs hc
  exact ⟨exec_resync_divZero hs hp hc, exec_resetNegotiate_divZero hs hp hc⟩

end Sys2Proof.Machine
end

section
/-! PROOFS. The PCB encodings (30_encoding.md section 2): what each gate of the decoder lets through, DECODE_PCB from
it, and the round trip of every PCB value. -/

namespace Sys2Proof

/-! ### The Supervisory table -/

/-- The lookup in the table inverts the table. -/
theorem SCode.ofByte_eq_some_iff {b : Byte} {c : SCode} : SCode.ofByte b = some c ↔ c.byte = b :=
  ⟨SCode.byte_of_ofByte, fun h => h ▸ SCode.ofByte_byte c⟩

theorem SCode.ofByte_eq_none_iff {b : Byte} : SCode.ofByte b = none ↔ ∀ c : SCode, c.byte ≠ b := by
  simp only [Option.eq_none_iff_forall_ne_some, ne_eq, SCode.ofByte_eq_some_iff]

/-! ### The error bits of an R-block -/

theorem getLsbD_of_lowBits {b : Byte} {v : BitVec 2} (h : b.extractLsb' 0 2 = v) :
    b.getLsbD 1 = v.getLsbD 1 ∧ b.getLsbD 0 = v.getLsbD 0 := by
  subst h
  simp

/-- The R arm reads back the error whose code stands in bits 1..0 (30_encoding.md R117, R120). -/
theorem decodeReceipt_of_code {b : Byte} {e : RErr} (h : b.extractLsb' 0 2 = e.code.setWidth 2) :
    decodeReceipt b = some (.r (b.getLsbD 4) e) := by
  obtain ⟨h1, h0⟩ := getLsbD_of_lowBits h
  rw [decodeReceipt, h1, h0]
  cases e <;> rfl

/-- The fourth value of the error bits is no error code. -/
theorem decodeReceipt_of_reserved {b : Byte} (h : b.extractLsb' 0 2 = 3#2) : decodeReceipt b = none := by
  obtain ⟨h1, h0⟩ := getLsbD_of_lowBits h
  rw [decodeReceipt, h1, h0]
  rfl

/-! ### The gates of the decoder, for any masks -/

section
variable {P : Params} {b : Byte}

theorem decodePcbByte_of_iGate (hi : b &&& P.iMask = 0) :
    decodePcbByte P b = some (.i (b.getLsbD 6) (b.getLsbD 5)) :=
  if_pos hi

theorem decodePcbByte_of_rGate (hi : b &&& P.iMask ≠ 0) (hr : b &&& P.rMask = 0x80) :
    decodePcbByte P b = decodeReceipt b :=
  (if_neg hi).trans (if_pos hr)

theorem decodePcbByte_of_noGate (hi : b &&& P.iMask ≠ 0) (hr : b &&& P.rMask ≠ 0x80) :
    decodePcbByte P b = (SCode.ofByte b).map .s :=
  (if_neg hi).trans (if_neg hr)

end

/-! ### The gates at an encoded value, under the adopted masks -/

/-- The adopted I gate is bit 7 clear (30_encoding.md R116). -/
theorem and_iMask_eq_zero_iff {P : Params} (h : P.AdoptedMasks) (b : Byte) :
    b &&& P.iMask = 0 ↔ b.getLsbD 7 = false := by
  have hmask : P.iMask = BitVec.twoPow 8 7 := h.1
  rw [hmask, BitVec.and_twoPow]
  cases b.getLsbD 7 <;> decide

/-- The I gate lets through the encodings of the I form alone. -/
theorem encodePcbByte_iGate {P : Params} (h : P.AdoptedMasks) (p : Pcb) :
    encodePcbByte p &&& P.iMask = 0 ↔ ∃ seq more, p = .i seq more :=
  (and_iMask_eq_zero_iff h _).trans (encodePcbByte_bit7 p)

/-- The R gate lets through the encodings of the R form alone. -/
theorem encodePcbByte_rGate {P : Params} (h : P.AdoptedMasks) (p : Pcb) :
    encodePcbByte p &&& P.rMask = 0x80 ↔ ∃ seq e, p = .r seq e := by
  rw [h.2]
  cases p with
  | i seq more => cases seq <;> cases more <;> simp [encodePcbByte, bitByte]
  | r seq e => cases seq <;> cases e <;> simp [encodePcbByte, bitByte, RErr.code]
  | s code => cases code <;> simp [encodePcbByte, SCode.byte]

/-! ### The fields of an encoded value -/

theorem encodePcbByte_i_fields (seq more : Bool) :
    (encodePcbByte (.i seq more)).getLsbD 6 = seq ∧ (encodePcbByte (.i seq more)).getLsbD 5 = more := by
  cases seq <;> cases more <;> decide

theorem encodePcbByte_r_fields (seq : Bool) (e : RErr) :
    (encodePcbByte (.r seq e)).getLsbD 4 = seq ∧
    (encodePcbByte (.r seq e)).extractLsb' 0 2 = e.code.setWidth 2 := by
  cases seq <;> cases e <;> decide

/-- Settles O4: the gates send the encoding of each form to that form's arm, which reads its fields back. -/
theorem pcbRoundTrip : Obligations.PcbRoundTrip := by
  intro P p hP
  have hi := encodePcbByte_iGate hP p
  have hr := encodePcbByte_rGate hP p
  cases p with
  | i seq more =>
    obtain ⟨hseq, hmore⟩ := encodePcbByte_i_fields seq more
    rw [decodePcbByte_of_iGate (hi.2 ⟨seq, more, rfl⟩), hseq, hmore]
  | r seq e =>
    obtain ⟨hseq, hcode⟩ := encodePcbByte_r_fields seq e
    rw [decodePcbByte_of_rGate (mt hi.1 (by simp)) (hr.2 ⟨seq, e, rfl⟩), decodeReceipt_of_code hcode, hseq]
  | s code =>
    rw [decodePcbByte_of_noGate (mt hi.1 (by simp)) (mt hr.1 (by simp)), encodePcbByte, SCode.ofByte_byte]
    rfl

end Sys2Proof

namespace Sys2Proof.Machine

/-! ### DECODE_PCB on a ready block -/

section
variable {s : State} (hs : s.Ready) {b : Byte}
include hs

theorem exec_decodePcb_of_ready : exec (.decodePcb b) s = .next (finish (decodePcbOp b (s.accept .decodePcb))) :=
  command_ready hs _ _

theorem exec_decodePcb_of_some {p : Pcb} (hd : decodePcbByte s.param b = some p) :
    exec (.decodePcb b) s = .next (endState s (.ok (.pcb p))) := by
  have hd' : decodePcbByte (s.accept .decodePcb).param b = some p := hd
  rw [exec_decodePcb_of_ready hs, decodePcbOp, hd']
  rfl

theorem exec_decodePcb_of_none (hd : decodePcbByte s.param b = none) :
    exec (.decodePcb b) s = .next (endState s (.err .badPcb)) := by
  have hd' : decodePcbByte (s.accept .decodePcb).param b = none := hd
  rw [exec_decodePcb_of_ready hs, decodePcbOp, hd']
  rfl

end

/-- Settles O3: the byte's gate picks the arm of the decoder, and the command answers what the arm does. -/
theorem decodePcbFollowsGates : Obligations.DecodePcbFollowsGates := by
  intro s b hs
  refine ⟨fun hi => exec_decodePcb_of_some hs (decodePcbByte_of_iGate hi), fun hi hr => ?receipt,
    fun hi hr => ?supervisory⟩
  case receipt =>
    have hd := decodePcbByte_of_rGate hi hr
    have hcode (e : RErr) (h : b.extractLsb' 0 2 = e.code.setWidth 2) :
        exec (.decodePcb b) s = .next (endState s (.ok (.pcb (.r (b.getLsbD 4) e)))) :=
      exec_decodePcb_of_some hs (hd.trans (decodeReceipt_of_code h))
    exact ⟨hcode .none, hcode .checksum, hcode .other,
      fun h => exec_decodePcb_of_none hs (hd.trans (decodeReceipt_of_reserved h))⟩
  case supervisory =>
    have hd := decodePcbByte_of_noGate hi hr
    constructor
    · intro code h
      exact exec_decodePcb_of_some hs (by rw [hd, SCode.ofByte_eq_some_iff.2 h]; rfl)
    · intro h
      exact exec_decodePcb_of_none hs (by rw [hd, SCode.ofByte_eq_none_iff.2 h]; rfl)

end Sys2Proof.Machine
end

section
/-! PROOFS. The byte strings of the frame codec (40_frame_codec.md): the byte of a PCB value and ENCODE_PCB, the CRC
loop with its wire form and CHECKSUM, and the bytes of a host frame. -/

namespace Sys2Proof

/-! ### The byte of a PCB value, by its bits -/

/-- A one-bit field shifted to bit `k` is that bit or nothing. -/
theorem bitByte_shiftLeft (b : Bool) (k : Nat) : bitByte b <<< k = if b then (1 : Byte) <<< k else 0 := by
  cases b <;> simp [bitByte]

/-- The I form (40_frame_codec.md R160). -/
theorem encodePcbByte_i (seq more : Bool) :
    encodePcbByte (.i seq more) = (if seq then 0x40 else 0) ||| (if more then 0x20 else 0) := by
  rw [encodePcbByte, bitByte_shiftLeft, bitByte_shiftLeft]
  rfl

/-- The R form, with the error code beside the fixed bit 7 (40_frame_codec.md R160). -/
theorem encodePcbByte_r (seq : Bool) (e : RErr) :
    encodePcbByte (.r seq e) = (0x80 ||| e.code) ||| (if seq then 0x10 else 0) := by
  rw [encodePcbByte, bitByte_shiftLeft, BitVec.or_assoc, BitVec.or_comm _ e.code, ← BitVec.or_assoc]
  rfl

/-! ### The CRC -/

/-- A byte enters the register by eight shifts (40_frame_codec.md R170). -/
theorem crcByte_eq_iterate (crc : Half) (x : Byte) : crcByte crc x = crcShift^[8] (crc ^^^ x.setWidth 16) := rfl

/-- The wire form is the remainder and the quotient by 256 (40_frame_codec.md R172). -/
theorem le16_eq_ofNat (v : Half) : le16 v = [BitVec.ofNat 8 v.toNat, BitVec.ofNat 8 (v.toNat / 256)] := by
  have hlo : v.extractLsb' 0 8 = BitVec.ofNat 8 v.toNat := rfl
  have hhi : v.extractLsb' 8 8 = BitVec.ofNat 8 (v.toNat / 256) := by
    rw [BitVec.extractLsb', Nat.shiftRight_eq_div_pow]
  rw [le16, hlo, hhi]

end Sys2Proof

namespace Sys2Proof.Machine

/-! ### The two commands on a ready block -/

section
variable {s : State} (hs : s.Ready)
include hs

theorem exec_encodePcb_of_ready (p : Pcb) :
    exec (.encodePcb p) s = .next (endState s (.ok (.byte (encodePcbByte p)))) :=
  command_ready hs _ _

theorem exec_checksum_of_ready (h d : List Byte) :
    exec (.checksum h d) s = .next (endState s (.ok (checksumValue h d))) :=
  command_ready hs _ _

end

/-- Settles O1: the command answers `encodePcbByte`, which is written out for each form. -/
theorem encodePcbReturnsItsByte : Obligations.EncodePcbReturnsItsByte := by
  intro s hs
  have hreceipt (seq : Bool) (e : RErr) :
      exec (.encodePcb (.r seq e)) s =
        .next (endState s (.ok (.byte ((0x80 ||| e.code) ||| (if seq then 0x10 else 0))))) := by
    rw [exec_encodePcb_of_ready hs, encodePcbByte_r]
  refine ⟨fun seq more => ?_, fun seq => hreceipt seq .none, fun seq => hreceipt seq .checksum,
    fun seq => hreceipt seq .other, fun code => exec_encodePcb_of_ready hs (.s code)⟩
  rw [exec_encodePcb_of_ready hs, encodePcbByte_i]

/-- Settles O6: the command's value is the CRC of header and data, whose loop body is eight shifts. -/
theorem checksumReturnsCrc : Obligations.ChecksumReturnsCrc := by
  refine ⟨fun s h d hs => ?_, by decide, by decide +kernel, by decide⟩
  rw [exec_checksum_of_ready hs, checksumValue, le16_eq_ofNat, crc16X25, funext₂ crcByte_eq_iterate]
  rfl

/-! ### The bytes of a host frame -/

/-- More than 254 data bytes stop the frame write before its first bus action (40_frame_codec.md R174). -/
theorem writeFrame_of_tooLong {d : List Byte} (hd : Config.maxData < d.length) (p : Pcb) (s : State) :
    writeFrame p d s = .stuck .programmingError s := by
  rw [writeFrame, buildFrame, if_pos hd]

/-- Settles O8: within the bound the frame is `frameBytes`, whose CRC stands in its wire form. -/
theorem buildFrameLaysOutTheFrame : Obligations.BuildFrameLaysOutTheFrame := by
  refine ⟨fun P p d hd => ?layout, fun s p d hd => writeFrame_of_tooLong hd p s, fun P hnad => ?resync⟩
  case layout =>
    rw [buildFrame_eq hd, frameBytes, le16_eq_ofNat]
  case resync =>
    rw [buildFrame_eq (Nat.zero_le _), hnad]
    decide +kernel

end Sys2Proof.Machine
end

section
/-! PROOFS. Link control (41_link_control.md): the two wait commands, and what ParseAtr reads, one lemma for each part
of the layout of 30_encoding.md R130. -/

namespace Sys2Proof.Machine

/-! ### The waits on a ready block -/

section
variable {s : State} (hs : s.Ready)
include hs

theorem exec_waitGuard_of_ready :
    exec .waitGuard s = .next (endState { s with trace := s.trace ++ [.delay s.guardUs] } (.ok .unit)) :=
  (command_ready hs .waitGuard fun s1 => .ok .unit s1.guardWait).trans rfl

theorem exec_waitPoll_of_ready :
    exec .waitPoll s = .next (endState { s with trace := s.trace ++ [.delay s.pollUs] } (.ok .unit)) :=
  (command_ready hs .waitPoll fun s1 => .ok .unit s1.pollWait).trans rfl

end

/-- Settles O12: each wait is a command whose body is one Delay, and the intervals hold by definition. -/
theorem waitsAppendOneDelay : Obligations.WaitsAppendOneDelay := fun _ hs =>
  ⟨exec_waitGuard_of_ready hs, exec_waitPoll_of_ready hs⟩

/-! ### The parts of an ATR payload -/

/-- A 2-byte field of the ATR (20_memory.md R89). -/
def be16Bytes (v : Half) : List Byte := [v.extractLsb' 8 8, v.extractLsb' 0 8]

/-- A field with its one-byte length before it and the rest of the payload after it. -/
def countedBytes (x rest : List Byte) : List Byte := BitVec.ofNat 8 x.length :: (x ++ rest)

/-- The content of a DLLP field. -/
def dllpBytes (bwt ifsc : Half) (rest : List Byte) : List Byte := be16Bytes bwt ++ be16Bytes ifsc ++ rest

/-- The content of a PLP field. -/
def plpBytes (q : Plp) (r0 r1 r2 : Byte) (rest : List Byte) : List Byte :=
  be16Bytes q.mcf ++ [q.config, q.mpot, r0, r1, r2] ++ be16Bytes q.segt ++ be16Bytes q.wut ++ rest

/-- The fields of a record that stand in its PLP field. -/
def atrPlp (a : AtrInfo) : Plp := ⟨a.mcf, a.config, a.mpot, a.segt, a.wut⟩

theorem dllpBytes_length (bwt ifsc : Half) (rest : List Byte) :
    (dllpBytes bwt ifsc rest).length = 4 + rest.length := by
  simp +arith [dllpBytes, be16Bytes]

theorem plpBytes_length (q : Plp) (r0 r1 r2 : Byte) (rest : List Byte) :
    (plpBytes q r0 r1 r2 rest).length = 11 + rest.length := by
  simp +arith [plpBytes, be16Bytes]

/-- The layout of 30_encoding.md R130 is three counted fields, the PLID between the first two. -/
theorem atrBytes_eq_countedBytes (a : AtrInfo) (dllpRest : List Byte) (r0 r1 r2 : Byte)
    (plpRest tail : List Byte) :
    atrBytes a dllpRest r0 r1 r2 plpRest tail =
      a.pver :: a.vid.toList ++ countedBytes (dllpBytes a.bwt a.ifsc dllpRest)
        (a.plid :: countedBytes (plpBytes (atrPlp a) r0 r1 r2 plpRest) (countedBytes a.hist.bytes tail)) := by
  simp only [countedBytes, dllpBytes_length, plpBytes_length]
  simp [atrBytes, dllpBytes, plpBytes, be16Bytes, atrPlp]

/-! ### What each part of the parser reads -/

theorem be16_extractLsb' (v : Half) : be16 (v.extractLsb' 8 8) (v.extractLsb' 0 8) = v :=
  fromLe16_le16 v

theorem be16Bytes_be16 (hi lo : Byte) : be16Bytes (be16 hi lo) = [hi, lo] := by
  have hhi : (be16 hi lo).extractLsb' 8 8 = hi := BitVec.extractLsb'_append_eq_left
  have hlo : (be16 hi lo).extractLsb' 0 8 = lo := BitVec.extractLsb'_append_eq_right
  rw [be16Bytes, hhi, hlo]

theorem takeBytes_eq_some_iff {k : Nat} {s x rest : List Byte} :
    takeBytes k s = some (x, rest) ↔ x.length = k ∧ s = x ++ rest := by
  constructor
  · intro h
    obtain ⟨hk, htake, hdrop⟩ : k ≤ s.length ∧ s.take k = x ∧ s.drop k = rest := by simpa [takeBytes] using h
    rw [← htake, ← hdrop]
    exact ⟨List.length_take_of_le hk, (List.take_append_drop k s).symm⟩
  · rintro ⟨rfl, rfl⟩
    simp [takeBytes]

/-- A byte counts at most 255 bytes, so the length byte and the field determine each other. -/
theorem takeCounted_eq_some_iff {s x rest : List Byte} :
    takeCounted s = some (x, rest) ↔ x.length ≤ 255 ∧ s = countedBytes x rest := by
  cases s with
  | nil => simp [takeCounted, countedBytes]
  | cons k t =>
    have hcount : x.length = k.toNat ↔ x.length ≤ 255 ∧ k = BitVec.ofNat 8 x.length := by
      rw [← BitVec.toNat_inj, BitVec.toNat_ofNat]
      omega
    rw [takeCounted, takeBytes_eq_some_iff, hcount, countedBytes, List.cons.injEq, and_assoc]

theorem parseDllp_eq_some_iff {x : List Byte} {bwt ifsc : Half} :
    parseDllp x = some (bwt, ifsc) ↔ ∃ rest, x = dllpBytes bwt ifsc rest := by
  constructor
  · intro h
    unfold parseDllp at h
    split at h
    · next rest =>
      cases h
      exact ⟨rest, by simp [dllpBytes, be16Bytes_be16]⟩
    · cases h
  · rintro ⟨rest, rfl⟩
    simp [dllpBytes, be16Bytes, parseDllp, be16_extractLsb']

theorem parsePlp_eq_some_iff {x : List Byte} {q : Plp} :
    parsePlp x = some q ↔ ∃ r0 r1 r2 rest, x = plpBytes q r0 r1 r2 rest := by
  constructor
  · intro h
    unfold parsePlp at h
    split at h
    · next r0 r1 r2 _ _ _ _ rest =>
      cases h
      exact ⟨r0, r1, r2, rest, by simp [plpBytes, be16Bytes_be16]⟩
    · cases h
  · rintro ⟨r0, r1, r2, rest, rfl⟩
    simp [plpBytes, be16Bytes, parsePlp, be16_extractLsb']

/-! ### The payload -/

theorem vector_five_eq (v : Vector Byte 5) : ∃ v0 v1 v2 v3 v4, v = #v[v0, v1, v2, v3, v4] := by
  refine ⟨v[0], v[1], v[2], v[3], v[4], Vector.ext fun i hi => ?_⟩
  interval_cases i <;> rfl

/-- The parser reads the fixed front bytes and then three counted fields; it reads every byte up to the tail. -/
theorem parseAtr_eq_some_iff {x : List Byte} {a : AtrInfo} :
    parseAtr x = some a ↔ ∃ dllp plp tail, dllp.length ≤ 255 ∧ plp.length ≤ 255 ∧
      parseDllp dllp = some (a.bwt, a.ifsc) ∧ parsePlp plp = some (atrPlp a) ∧
      x = a.pver :: a.vid.toList ++
        countedBytes dllp (a.plid :: countedBytes plp (countedBytes a.hist.bytes tail)) := by
  constructor
  · intro h
    unfold parseAtr at h
    split at h
    case h_2 => cases h
    split at h
    case h_1 => cases h
    next dllp s2 hs1 =>
    split at h
    case h_1 => cases h
    next bwt ifsc hdllp =>
    split at h
    case h_1 => cases h
    next plid s3 =>
    split at h
    case h_1 => cases h
    next plp s4 hs3 =>
    split at h
    case h_1 => cases h
    next q hplp =>
    split at h
    case h_1 => cases h
    next hist tail hs4 =>
    cases h
    obtain ⟨hd, rfl⟩ := takeCounted_eq_some_iff.1 hs1
    obtain ⟨hp, rfl⟩ := takeCounted_eq_some_iff.1 hs3
    obtain ⟨hh, rfl⟩ := takeCounted_eq_some_iff.1 hs4
    refine ⟨dllp, plp, tail, hd, hp, hdllp, hplp, ?_⟩
    rw [Hist.ofList_bytes hh]
    rfl
  · rintro ⟨dllp, plp, tail, hd, hp, hdllp, hplp, rfl⟩
    have hs1 (rest : List Byte) : takeCounted (countedBytes dllp rest) = some (dllp, rest) :=
      takeCounted_eq_some_iff.2 ⟨hd, rfl⟩
    have hs3 (rest : List Byte) : takeCounted (countedBytes plp rest) = some (plp, rest) :=
      takeCounted_eq_some_iff.2 ⟨hp, rfl⟩
    have hs4 : takeCounted (countedBytes a.hist.bytes tail) = some (a.hist.bytes, tail) :=
      takeCounted_eq_some_iff.2 ⟨a.hist.fits, rfl⟩
    obtain ⟨pver, vid, bwt, ifsc, plid, mcf, config, mpot, segt, wut, hist⟩ := a
    obtain ⟨v0, v1, v2, v3, v4, rfl⟩ := vector_five_eq vid
    simp [parseAtr, hs1, hs3, hs4, hdllp, hplp, atrPlp]

/-- Settles O19: the DLLP's and the PLP's contents are those that their parsers read, and the one-byte lengths before
them bound the reserved bytes. -/
theorem parseAtrReadsTheLayout : Obligations.ParseAtrReadsTheLayout := by
  intro x a
  simp only [parseAtr_eq_some_iff, atrBytes_eq_countedBytes]
  constructor
  · rintro ⟨dllp, plp, tail, hd, hp, hdllp, hplp, rfl⟩
    obtain ⟨dllpRest, rfl⟩ := parseDllp_eq_some_iff.1 hdllp
    obtain ⟨r0, r1, r2, plpRest, rfl⟩ := parsePlp_eq_some_iff.1 hplp
    rw [dllpBytes_length] at hd
    rw [plpBytes_length] at hp
    exact ⟨dllpRest, r0, r1, r2, plpRest, tail, by omega, by omega, rfl⟩
  · rintro ⟨dllpRest, r0, r1, r2, plpRest, tail, hd, hp, rfl⟩
    refine ⟨_, _, tail, ?_, ?_, parseDllp_eq_some_iff.2 ⟨dllpRest, rfl⟩,
      parsePlp_eq_some_iff.2 ⟨r0, r1, r2, plpRest, rfl⟩, rfl⟩
    · rw [dllpBytes_length]; omega
    · rw [plpBytes_length]; omega

end Sys2Proof.Machine
end

section
/-! PROOFS. The frames that end a reception (42_receive.md R262, R265, R266): what a frame that fits does by its PCB
value, and how a reception that fails leaves the block. -/

namespace Sys2Proof.Machine

/-! ### A frame that fits, by its PCB value -/

section
variable {rx : Rx} {d : List Byte} (hfit : rx.fits d.length = true)
include hfit

theorem receiveFrame_of_iBlock (seq more : Bool) (s : State) :
    receiveFrame rx (.i seq more) d s = receiveI rx seq more d (placeData rx d s) := by
  simp [receiveFrame, hfit]

theorem receiveFrame_of_receipt (seq : Bool) (err : RErr) (s : State) :
    receiveFrame rx (.r seq err) d s = failReception .badPcb rx (placeData rx d s) := by
  simp [receiveFrame, hfit]

theorem receiveFrame_of_supervisory {code : SCode} (hcode : code ≠ .wtxRequest) (s : State) :
    receiveFrame rx (.s code) d s = conclude rx (.sBlock code rx.written d.length) (placeData rx d s) := by
  simp [receiveFrame, hfit]

end

/-! ### RECEIVE returns the outcome of its reception -/

theorem conclude_of_receive {rx : Rx} (hc : rx.client = .receive) (out : Value) (s : State) :
    conclude rx out s = .ok out s := by
  simp [conclude, hc]

/-- A final I-block only complements the expected bit and logs a mismatch (42_receive.md R263, R265). -/
theorem receiveI_final_of_receive {rx : Rx} (hc : rx.client = .receive) (seq : Bool) (d : List Byte) (s : State) :
    receiveI rx seq false d s = .ok (.data (rx.written + d.length)) (acceptSeq seq s) :=
  conclude_of_receive (rx := { rx with written := rx.written + d.length }) hc _ _

/-! ### The end of a reception that fails -/

/-- The block after an error: every field but the caller's memory is that of the operation's end, and the memory is
the same for each error. -/
theorem finish_failReception (rx : Rx) (u : State) :
    ∃ m, rx.Failed u.mem m ∧ ∀ e, finish (failReception e rx u) = endState { u with mem := m } (.err e) := by
  obtain ⟨m, hm, hforget⟩ := forgetRest_failed rx u
  refine ⟨m, hm, fun e => ?_⟩
  rw [failReception, hforget]
  rfl

/-- The same after the frame's data was placed, against the state before that. -/
theorem finish_failReception_placed {rx : Rx} {d : List Byte} (hfit : rx.fits d.length = true) (e : Err) (s : State) :
    ∃ m, rx.Failed s.mem m ∧
      finish (failReception e rx (placeData rx d s)) = endState { s with mem := m } (.err e) := by
  obtain ⟨m, hm, hforget⟩ := forgetRest_placed ((rx.fits_iff _).1 hfit).2 (s := s) rfl
  refine ⟨m, hm, ?_⟩
  rw [failReception, hforget, placeData_fields]
  rfl

/-- The bytes that an error leaves unspecified are those not accumulated (20_memory.md R85, R86). -/
theorem Rx.Failed.kept {rx : Rx} {m m' : Memory} (h : rx.Failed m m') : rx.Kept m m' := by
  intro a ha
  unfold Rx.Failed at h
  cases hc : rx.client <;> simp only [hc] at h ha
  case resync => rw [h]
  all_goals exact h.2 a (ha.resolve_left nofun)

/-! ### The frames in a running reception -/

section
variable {s : State} {rx : Rx} {d : List Byte} (hf : s.fault = none) (he : s.engine = .receiving rx)
  (hlen : d.length ≤ 254) (hcap : rx.written + d.length ≤ rx.buf.capacity)
include hf he

theorem exec_ofFrame_receiving (p : Pcb) (d : List Byte) :
    exec (Instr.ofFrame p d) s = .next (finish (receiveFrame rx p d s)) :=
  (exec_ofFrame p d s).trans (frameArrives_receiving hf he p d)

include hlen hcap

/-- A Supervisory block other than the WTX request ends a RECEIVE (42_receive.md R262). -/
theorem exec_supervisory_of_receive (hc : rx.client = .receive) {code : SCode} (hcode : code ≠ .wtxRequest) :
    ∃ m, Stored s.mem m (rx.buf.base + rx.written) d ∧
      exec (Instr.ofFrame (.s code) d) s =
        .next (endState { s with mem := m } (.ok (.sBlock code rx.written d.length))) := by
  obtain ⟨m, hm, hplace⟩ := placeData_mem (rx := rx) (by simp [hc]) d s
  refine ⟨m, hm, ?_⟩
  rw [exec_ofFrame_receiving hf he, receiveFrame_of_supervisory ((rx.fits_iff _).2 ⟨hlen, hcap⟩) hcode,
    conclude_of_receive hc, hplace]
  rfl

/-- An R-block ends any reception with BadPcb (42_receive.md R266). -/
theorem exec_receipt_of_receiving (seq : Bool) (err : RErr) :
    ∃ m, rx.Failed s.mem m ∧
      exec (Instr.ofFrame (.r seq err) d) s = .next (endState { s with mem := m } (.err .badPcb)) := by
  have hfit : rx.fits d.length = true := (rx.fits_iff _).2 ⟨hlen, hcap⟩
  obtain ⟨m, hm, hend⟩ := finish_failReception_placed hfit .badPcb s
  refine ⟨m, hm, ?_⟩
  rw [exec_ofFrame_receiving hf he, receiveFrame_of_receipt hfit, hend]

end

/-- Settles O22: the data is placed, the bit accepted, and RECEIVE returns the total. -/
theorem finalBlockEndsReception : Obligations.FinalBlockEndsReception := by
  intro s rx seq d hf he hc hlen hcap
  obtain ⟨m, hm, hplace⟩ := placeData_mem (rx := rx) (by simp [hc]) d s
  refine ⟨m, hm, ?_⟩
  have hrun : exec (.iBlock seq false d) s = .next (finish (receiveFrame rx (.i seq false) d s)) :=
    exec_ofFrame_receiving hf he (.i seq false) d
  rw [hrun, receiveFrame_of_iBlock ((rx.fits_iff _).2 ⟨hlen, hcap⟩), receiveI_final_of_receive hc, hplace, acceptSeq,
    mismatchEvents_eq]
  rfl

/-- The 15 Supervisory codes but the WTX request, in the order of 30_encoding.md R119. -/
def otherSupervisoryCodes : List SCode :=
  [.resyncRequest, .ifsRequest, .abortRequest, .endSessionRequest, .chipResetRequest, .getAtrRequest,
    .interfaceSoftResetRequest, .resyncResponse, .ifsResponse, .abortResponse, .wtxResponse, .endSessionResponse,
    .chipResetResponse, .getAtrResponse, .interfaceSoftResetResponse]

theorem mem_otherSupervisoryCodes {code : SCode} : code ∈ otherSupervisoryCodes ↔ code ≠ .wtxRequest := by
  cases code <;> decide

/-- Settles O25: the 15 instructions are the frames of the codes other than the WTX request. -/
theorem otherSupervisoryBlockEndsReception : Obligations.OtherSupervisoryBlockEndsReception := by
  intro s rx d hf he hc hlen hcap
  change ∀ e ∈ otherSupervisoryCodes.map fun code => (Instr.ofFrame (.s code) d, code), _
  exact List.forall_mem_map.2 fun code hcode =>
    exec_supervisory_of_receive hf he hlen hcap hc (mem_otherSupervisoryCodes.1 hcode)

/-- Settles O26: the three instructions are the R-blocks of the three error codes. -/
theorem receiptBlockInReceptionIsBadPcb : Obligations.ReceiptBlockInReceptionIsBadPcb := by
  intro s rx seq d hf he hlen hcap
  change ∀ i ∈ [RErr.none, .checksum, .other].map fun err => Instr.ofFrame (.r seq err) d, _
  exact List.forall_mem_map.2 fun err _ => exec_receipt_of_receiving hf he hlen hcap seq err

end Sys2Proof.Machine
end

section
/-! PROOFS. The fetch of a frame in a reception (42_receive.md R252 to R258): the two guarded reads, each check that can
fail with the state it leaves, and the loop whose header reads are not acknowledged. -/

namespace Sys2Proof.Machine

/-! ### The guarded reads of one iteration -/

/-- The block after a guarded read of `n` bytes with result `r`, the answers `rest` left. -/
def guardedRead (n : Nat) (r : ReadResult) (rest : List BusAnswer) (s : State) : State :=
  { s with chip := rest, fresh := s.fresh + 1,
           trace := s.trace ++ [.delay s.guardUs, .busRead s.param.i2cAddr n r] }

/-- The block after the header read of an iteration of reception `rx`, which has counted it. -/
def headerRead (rx : Rx) (r : ReadResult) (rest : List BusAnswer) (s : State) : State :=
  guardedRead 3 r rest { s with engine := .receiving rx.counted }

/-- The block after both reads of an iteration: header `h`, and `n` bytes of a body with result `r`. -/
def frameRead (rx : Rx) (h : List Byte) (n : Nat) (r : ReadResult) (rest : List BusAnswer) (s : State) : State :=
  { s with engine := .receiving rx.counted, chip := rest, fresh := s.fresh + 2,
           trace := s.trace ++ [.delay s.guardUs, .busRead s.param.i2cAddr 3 (.ok h),
             .delay s.guardUs, .busRead s.param.i2cAddr n r] }

theorem busRead_guardWait_ok {s : State} {bytes : List Byte} {rest : List BusAnswer} {n : Nat}
    (hc : s.chip = .ok bytes :: rest) (hn : bytes.length = n) :
    busRead n s.guardWait = (.ok bytes, guardedRead n (.ok bytes) rest s) := by
  rw [busRead_at (s := s.guardWait) hc, readResultOf, fitRead_eq hn]
  simp [guardedRead, State.guardWait, State.delay, State.emit]

theorem busRead_guardWait_fail {s : State} {e : BusError} {rest : List BusAnswer} (hc : s.chip = .fail e :: rest)
    (n : Nat) : busRead n s.guardWait = (.fail e, guardedRead n (.fail e) rest s) := by
  rw [busRead_at (s := s.guardWait) hc, readResultOf]
  simp [guardedRead, State.guardWait, State.delay, State.emit]

theorem guardedRead_headerRead (rx : Rx) (h : List Byte) (n : Nat) (r : ReadResult) (left rest : List BusAnswer)
    (s : State) : guardedRead n r rest (headerRead rx (.ok h) left s) = frameRead rx h n r rest s := by
  simp [guardedRead, headerRead, frameRead, State.guardUs]

/-! ### One iteration, by the check that fails -/

/-- A used budget stops the iteration before its first bus event (42_receive.md R252). -/
theorem fetchFrame_timeout {s : State} {rx : Rx} (hb : rx.budget ≤ rx.i) :
    fetchFrame rx s = .raised .timeout s :=
  if_pos hb

section
variable {s : State} {rx : Rx} (hb : rx.i < rx.budget) {rest : List BusAnswer}
include hb

/-- An error of the header read that is no address NACK (42_receive.md R254). -/
theorem fetchFrame_headerFail {e : BusError} (hne : e ≠ .addrNack) (hc : s.chip = .fail e :: rest) :
    fetchFrame rx s = .raised (.bus e) (headerRead rx (.fail e) rest s) := by
  have hread : busRead Config.hdrLen (State.guardWait { s with engine := .receiving rx.counted }) =
      (.fail e, headerRead rx (.fail e) rest s) :=
    busRead_guardWait_fail (s := { s with engine := .receiving rx.counted }) hc _
  rw [fetchFrame, if_neg (Nat.not_le.2 hb), hread]
  cases e with
  | addrNack => exact absurd rfl hne
  | dataNack => rfl
  | other k => rfl

variable {nad pcb len : Byte}

omit hb in
theorem busRead_header (rx : Rx) (hc : s.chip = .ok [nad, pcb, len] :: rest) :
    busRead Config.hdrLen (State.guardWait { s with engine := .receiving rx.counted }) =
      (.ok [nad, pcb, len], headerRead rx (.ok [nad, pcb, len]) rest s) :=
  busRead_guardWait_ok hc rfl

/-- A header whose length does not fit (42_receive.md R255). -/
theorem fetchFrame_unfitting (hfit : rx.fits len.toNat = false) (hc : s.chip = .ok [nad, pcb, len] :: rest) :
    fetchFrame rx s = .raised .receptionBuffer (headerRead rx (.ok [nad, pcb, len]) rest s) := by
  rw [fetchFrame, if_neg (Nat.not_le.2 hb), busRead_header rx hc]
  exact if_pos hfit

variable (hfit : rx.fits len.toNat = true)
include hfit

/-- An error of the body read, whichever it is (42_receive.md R256). -/
theorem fetchFrame_bodyFail {e : BusError} (hc : s.chip = .ok [nad, pcb, len] :: .fail e :: rest) :
    fetchFrame rx s = .raised (.bus e) (frameRead rx [nad, pcb, len] (len.toNat + 2) (.fail e) rest s) := by
  rw [fetchFrame, if_neg (Nat.not_le.2 hb), busRead_header rx hc]
  dsimp only
  rw [if_neg (by simp [hfit]), busRead_guardWait_fail rfl, guardedRead_headerRead]
  rfl

/-- A frame that is read and does not decode (42_receive.md R258). -/
theorem fetchFrame_undecodable {t : List Byte} {err : DecodeError} (ht : t.length = len.toNat + 2)
    (hd : decodeFrame s.param ([nad, pcb, len] ++ t) = .error err)
    (hc : s.chip = .ok [nad, pcb, len] :: .ok t :: rest) :
    fetchFrame rx s =
      .raised (errOfDecode err) (frameRead rx [nad, pcb, len] (len.toNat + 2) (.ok t) rest s) := by
  have ht' : t.length = ([nad, pcb, len].getD 2 0).toNat + Config.crcLen := ht
  rw [fetchFrame, if_neg (Nat.not_le.2 hb), busRead_header rx hc]
  dsimp only
  rw [if_neg (by simp [hfit]), busRead_guardWait_ok rfl ht', guardedRead_headerRead]
  dsimp only
  rw [hd]
  rfl

end

/-! ### The checks of a frame that is read (42_receive.md R258) -/

/-- The bytes of a header and a body of its length split as they were read. -/
theorem decodeFrame_eq_checkFrame (P : Params) (nad pcb : Byte) {len : Byte} {d : List Byte} (lo hi : Byte)
    (hd : d.length = len.toNat) (hlen : len.toNat ≤ 254) :
    decodeFrame P ([nad, pcb, len] ++ (d ++ [lo, hi])) = checkFrame P nad pcb len d lo hi := by
  have hmax : ¬ Config.maxData < d.length := by rw [hd]; exact Nat.not_lt.2 hlen
  simp [decodeFrame, ← hd, hmax]

section
variable {P : Params} {nad pcb len lo hi : Byte} {d : List Byte}

theorem checkFrame_badAddress (hnad : nad ≠ P.nadC2H) :
    checkFrame P nad pcb len d lo hi = .error .badAddress :=
  if_pos hnad

theorem checkFrame_badCrc (hnad : nad = P.nadC2H) (hcrc : crc16X25 (nad :: pcb :: len :: d) ≠ fromLe16 lo hi) :
    checkFrame P nad pcb len d lo hi = .error .badCrc := by
  simp [checkFrame, crcOk, ← hnad, hcrc]

theorem checkFrame_badPcb (hnad : nad = P.nadC2H) (hcrc : crc16X25 (nad :: pcb :: len :: d) = fromLe16 lo hi)
    (hpcb : decodePcbByte P pcb = none) : checkFrame P nad pcb len d lo hi = .error .badPcb := by
  simp [checkFrame, crcOk, ← hnad, hcrc, hpcb]

end

/-! ### The step of a running reception -/

/-- A fetch that raises an error ends the operation with it; the memory left does not depend on which error. -/
theorem step_of_fetchFrame_raised {s : State} {op : Op} {rx : Rx} (hf : s.fault = none) (hp : s.phase = .busy op)
    (he : s.engine = .receiving rx) (u : State) :
    ∃ m, rx.Failed u.mem m ∧
      ∀ e, fetchFrame rx s = .raised e u → step s = .next (endState { u with mem := m } (.err e)) := by
  obtain ⟨m, hm, hend⟩ := finish_failReception rx u
  refine ⟨m, hm, fun e h => ?_⟩
  rw [step_receiving hf hp he, h, ← hend]

/-- Settles O27: the length check stands before the body read and before the frame's other checks. -/
theorem unfittingHeaderIsReceptionBuffer : Obligations.UnfittingHeaderIsReceptionBuffer := by
  intro s op rx nad pcb len rest hf hp he hb hlen hc
  have hfit : rx.fits len.toNat = false := by
    rw [Bool.eq_false_iff, ne_eq, rx.fits_iff, Config.maxData]
    omega
  obtain ⟨m, hm, hstep⟩ := step_of_fetchFrame_raised hf hp he (headerRead rx (.ok [nad, pcb, len]) rest s)
  exact ⟨m, hm, hstep _ (fetchFrame_unfitting hb hfit hc)⟩

/-- Settles O28: an address NACK is one more iteration of the loop, any other error of the header read its end. -/
theorem headerNackWaitsForTheNextPoll : Obligations.HeaderNackWaitsForTheNextPoll := by
  intro s op rx rest hf hp he hb
  constructor
  · intro hc
    rw [step_receiveOnce hf hp he, receiveOnce_nack hb hc]
    rfl
  · intro e hne hc
    obtain ⟨m, hm, hstep⟩ := step_of_fetchFrame_raised hf hp he (headerRead rx (.fail e) rest s)
    exact ⟨m, hm.kept, hstep _ (fetchFrame_headerFail hb hne hc)⟩

/-- Settles O29: an error of the body read is the fetch's, and after both reads the first check that fails names the
error. -/
theorem frameChecksRunInOrder : Obligations.FrameChecksRunInOrder := by
  intro s op rx nad pcb len rest hf hp he hb hlen hcap
  have hfit : rx.fits len.toNat = true := (rx.fits_iff _).2 ⟨hlen, hcap⟩
  constructor
  case left =>
    intro e hc
    obtain ⟨m, hm, hstep⟩ :=
      step_of_fetchFrame_raised hf hp he (frameRead rx [nad, pcb, len] (len.toNat + 2) (.fail e) rest s)
    exact ⟨m, hm, hstep _ (fetchFrame_bodyFail hb hfit hc)⟩
  case right =>
    intro d lo hi hd hc
    have ht : (d ++ [lo, hi]).length = len.toNat + 2 := by simp [hd]
    have hfetch {err : DecodeError} (h : checkFrame s.param nad pcb len d lo hi = .error err) :=
      fetchFrame_undecodable hb hfit ht ((decodeFrame_eq_checkFrame s.param nad pcb lo hi hd hlen).trans h) hc
    obtain ⟨m, hm, hstep⟩ := step_of_fetchFrame_raised hf hp he
      (frameRead rx [nad, pcb, len] (len.toNat + 2) (.ok (d ++ [lo, hi])) rest s)
    refine ⟨m, hm, ?_⟩
    rw [frameReadEvents, ht]
    rintro e (⟨hnad, rfl⟩ | ⟨hnad, hcrc, rfl⟩ | ⟨hnad, hcrc, hpcb, rfl⟩)
    · exact hstep _ (hfetch (checkFrame_badAddress hnad))
    · exact hstep _ (hfetch (checkFrame_badCrc hnad hcrc))
    · exact hstep _ (hfetch (checkFrame_badPcb hnad hcrc hpcb))

/-! ### A chip that does not answer -/

/-- The block after `n` header reads, none acknowledged, that brought a reception to the locals `rx`. -/
def silentReads (rx : Rx) (n : Nat) (rest : List BusAnswer) (s : State) : State :=
  { s with engine := .receiving rx, chip := rest, fresh := s.fresh + n,
           trace := s.trace ++ (List.replicate n (headerNackEvents s)).flatten }

/-- A loop all of whose header reads within the budget meet an address NACK (42_receive.md R252). -/
theorem driveReception_timeout {s : State} {rx : Rx} {n : Nat} {rest : List BusAnswer}
    (he : s.engine = .receiving rx) (hn : rx.i + n = rx.budget) (hc : s.chip = nacks n ++ rest) (k : Nat) :
    driveReception (n + k) s = failReception .timeout (rx.plus n) (silentReads (rx.plus n) n rest s) := by
  rw [driveReception_nacks n k s rx rest he hn.le hc]
  exact driveReception_out rfl hn.ge

/-- A reception whose base budget of header reads meets address NACKs alone. -/
theorem beginReception_timeout {s : State} {B : Nat} {rest : List BusAnswer} (hp : s.pollUs ≠ 0)
    (hB : s.bwtUs / s.pollUs + 1 = B) (hc : s.chip = nacks B ++ rest) (client : Client) (buf : Buffer) :
    beginReception client buf s =
      failReception .timeout ⟨client, buf, 0, B, B⟩ (silentReads ⟨client, buf, 0, B, B⟩ B rest s) := by
  have hlen : s.chip.length = B + rest.length := by simp [hc, nacks]
  have hdrive := driveReception_timeout (s := { s with engine := .receiving ⟨client, buf, 0, 0, B⟩ }) rfl
    (Nat.zero_add B) hc rest.length
  rw [beginReception_at hp, hlen, hB, hdrive, Rx.plus, Nat.zero_add]
  rfl

/-- Settles O21: RECEIVE begins with the base budget, which that many address NACKs use up; a reception whose budget
is used raises Timeout before its next read. -/
theorem receiveTimesOutAfterItsBudget : Obligations.ReceiveTimesOutAfterItsBudget := by
  constructor
  case left =>
    intro s buf rest hs hp hc
    obtain ⟨B, hB⟩ : ∃ B, s.bwtUs / s.pollUs + 1 = B := ⟨_, rfl⟩
    rw [hB] at hc ⊢
    obtain ⟨m, hm, hend⟩ := finish_failReception ⟨.receive, buf, 0, B, B⟩
      (silentReads ⟨.receive, buf, 0, B, B⟩ B rest (s.accept .receive))
    refine ⟨m, fun a ha => hm.kept a (.inr ha), ?_⟩
    rw [exec_receive_of_ready hs, beginReception_timeout (s := s.accept .receive) hp hB hc, hend]
    rfl
  case right =>
    intro s op rx hf hp he hb
    obtain ⟨m, hm, hstep⟩ := step_of_fetchFrame_raised hf hp he s
    exact ⟨m, hm.kept, hstep _ (fetchFrame_timeout hb)⟩

end Sys2Proof.Machine
end

section
/-! PROOFS. The frame sender (43_frame_sender.md): the frame write that fails, the acknowledgment read with its checks,
and the commands SOPEN and SWRITE where they end before any bus action. -/

namespace Sys2Proof.Machine

/-! ### A frame write that fails (43_frame_sender.md R300) -/

/-- The write loop when the next answer is an error other than the address NACK, whatever attempts are left. -/
theorem writeAttempts_fail_at {s : State} {e : BusError} {rest : List BusAnswer} (he : e ≠ .addrNack)
    (h : s.chip = .fail e :: rest) (n : Nat) (f : List Byte) :
    writeAttempts n f s = .raised (.bus e)
      { s with chip := rest, fresh := s.fresh + 1,
               trace := s.trace ++ [.busWrite s.param.i2cAddr f (.fail e)] } := by
  cases e with
  | addrNack => exact absurd rfl he
  | dataNack => cases n <;> simp [writeAttempts, busWrite_at h, writeResultOf]
  | other c => cases n <;> simp [writeAttempts, busWrite_at h, writeResultOf]

/-- The last attempt of the write loop when it is not acknowledged. -/
theorem writeAttempts_zero_nack {s : State} {rest : List BusAnswer} (h : s.chip = .fail .addrNack :: rest)
    (f : List Byte) :
    writeAttempts 0 f s = .raised .timeout
      { s with chip := rest, fresh := s.fresh + 1,
               trace := s.trace ++ [.busWrite s.param.i2cAddr f (.fail .addrNack)] } := by
  simp [writeAttempts, busWrite_at h, writeResultOf]

/-- After `k` address NACKs, fewer than the retries, a frame write is its loop with the attempts that are left. -/
theorem writeFrame_nacks {s : State} {p : Pcb} {d : List Byte} {k : Nat} {rest : List BusAnswer}
    (hd : d.length ≤ Config.maxData) (hk : k < s.param.writeRetries) (hc : s.chip = nacks k ++ rest) :
    writeFrame p d s = writeAttempts (s.param.writeRetries - 1 - k) (frameBytes s.param.nadH2C p d)
      { s with chip := rest, fresh := s.fresh + k,
               trace := s.trace ++ (List.replicate k (writeNackEvents s p d)).flatten } := by
  have hsplit : s.param.writeRetries - 1 = k + (s.param.writeRetries - 1 - k) := by omega
  rw [writeFrame, buildFrame_eq hd]
  dsimp only
  rw [hsplit, writeAttempts_nacks _ _ _ _ _ hc, Nat.add_sub_cancel_left]
  rfl

/-- A frame write that meets a run with an error raises it, having used exactly the run's answers and appended its
events. -/
theorem writeFrame_of_failed_writeRun {s : State} {p : Pcb} {d : List Byte} {used rest : List BusAnswer} {e : Err}
    {evs : List Event} (h : WriteRun s p d used (some e) evs) (hd : d.length ≤ Config.maxData)
    (hc : s.chip = used ++ rest) :
    writeFrame p d s = .raised e
      { s with chip := rest, fresh := s.fresh + used.length, trace := s.trace ++ evs } := by
  cases h with
  | refused k e hk he =>
    have hc' : s.chip = nacks k ++ .fail e :: rest := by simpa using hc
    rw [writeFrame_nacks hd hk hc', writeAttempts_fail_at he rfl]
    simp [nacks, writeEvent, Nat.add_assoc]
  | silent h =>
    obtain ⟨k, hk⟩ : ∃ k, s.param.writeRetries = k + 1 := ⟨_, (Nat.sub_add_cancel h).symm⟩
    have hc' : s.chip = nacks k ++ .fail .addrNack :: rest := by
      simpa [hk, nacks, List.replicate_succ'] using hc
    have hleft : s.param.writeRetries - 1 - k = 0 := by omega
    rw [writeFrame_nacks hd (by omega) hc', hleft, writeAttempts_zero_nack rfl]
    simp [hk, nacks, writeEvent, Nat.add_assoc]

/-- Settles O14: the three clauses are the three runs of a frame write. -/
theorem writeFrameRetriesAddressNacks : Obligations.WriteFrameRetriesAddressNacks := by
  intro s p d k rest hd hretries
  refine ⟨fun b hk hc => ?sent, fun e he hk hc => ?refused, fun hc => ?silent⟩
  case sent =>
    rw [writeFrame_of_writeRun (rest := rest) (.sent k b hk) hd (by simp [hc])]
    simp [nacks]
  case refused =>
    rw [writeFrame_of_failed_writeRun (rest := rest) (.refused k e hk he) hd (by simp [hc])]
    simp [nacks]
  case silent =>
    rw [writeFrame_of_failed_writeRun (.silent hretries) hd hc]
    simp [nacks]

/-! ### The acknowledgment (43_frame_sender.md R307) -/

/-- An answer with the chip's address that passes the PCB, length and checksum checks is accepted. -/
theorem checkAck_accepted {P : Params} {expected : Pcb} {pcb lo hi : Byte}
    (hpcb : decodePcbByte P pcb = some expected) (hcrc : crc16X25 [P.nadC2H, pcb, 0] = fromLe16 lo hi) :
    checkAck P expected P.nadC2H pcb 0 lo hi = none := by
  have hok : crcOk P.nadC2H pcb 0 [] lo hi = true := by simpa [crcOk] using hcrc
  simp only [checkAck, hpcb, hok, ne_eq, not_true, if_false, Bool.true_eq_false]

/-- The fetch of the acknowledgment that is accepted, after one guarded read of its 5 bytes. -/
theorem fetchAck_accepted {s : State} {pcb lo hi : Byte} {rest : List BusAnswer}
    (hpcb : decodePcbByte s.param pcb = some (.r s.txSeq .none))
    (hcrc : crc16X25 [s.param.nadC2H, pcb, 0] = fromLe16 lo hi)
    (hc : s.chip = .ok [s.param.nadC2H, pcb, 0, lo, hi] :: rest) :
    fetchAck s = .frame (.r s.txSeq .none) [] (guardedRead 5 (.ok [s.param.nadC2H, pcb, 0, lo, hi]) rest s) := by
  have hread : busRead Config.ackLen s.guardWait =
      (.ok [s.param.nadC2H, pcb, 0, lo, hi], guardedRead 5 (.ok [s.param.nadC2H, pcb, 0, lo, hi]) rest s) :=
    busRead_guardWait_ok hc rfl
  simp only [fetchAck, hread, List.getD_cons_zero, List.getD_cons_succ, checkAck_accepted hpcb hcrc]

theorem frameArrives_awaiting {s : State} {v : Value} (hf : s.fault = none) (he : s.engine = .awaitingAck v) (p : Pcb)
    (d : List Byte) : frameArrives p d s = .next (finish (receiveAck v p d s)) := by
  simp [frameArrives, hf, he]

/-- The empty R-block with the current `tx_seq` ends the chunk where an acknowledgment is awaited. -/
theorem exec_acknowledgment_of_awaiting {s : State} {v : Value} (hf : s.fault = none) (he : s.engine = .awaitingAck v) :
    exec (Instr.ofFrame (.r s.txSeq .none) []) s = .next (endState
      { s with snd := s.snd.map (fun y => { y with chunkLen := 0 }) } (.ok v)) := by
  rw [exec_ofFrame, frameArrives_awaiting hf he, receiveAck, if_pos ⟨rfl, rfl⟩]
  rfl

section
variable {s : State} {op : Op} {v : Value} {rest : List BusAnswer} (hf : s.fault = none) (hp : s.phase = .busy op)
  (he : s.engine = .awaitingAck v)
include hf hp he

/-- An answer that ReadAck refuses ends the operation with its error and fails the sender. -/
theorem step_of_ackRefused {a : BusAnswer} {e : Err} (hr : AckRefused s.param s.txSeq a e) (hc : s.chip = a :: rest) :
    step s = .next (endState
      { s with snd := s.snd.map (fun y => { y with status := .failed }), chip := rest, fresh := s.fresh + 1,
               trace := s.trace ++ ackReadEvents s a } (.err e)) := by
  rw [step_awaiting hf hp he, fetchAck_refused hr hc]
  rfl

/-- The right acknowledgment empties the chunk and ends the operation with its value. -/
theorem step_of_ack {pcb lo hi : Byte} (hpcb : decodePcbByte s.param pcb = some (.r s.txSeq .none))
    (hcrc : crc16X25 [s.param.nadC2H, pcb, 0] = fromLe16 lo hi)
    (hc : s.chip = .ok [s.param.nadC2H, pcb, 0, lo, hi] :: rest) :
    step s = .next (endState
      { s with snd := s.snd.map (fun y => { y with chunkLen := 0 }), chip := rest, fresh := s.fresh + 1,
               trace := s.trace ++ ackReadEvents s (.ok [s.param.nadC2H, pcb, 0, lo, hi]) } (.ok v)) := by
  rw [step_awaiting hf hp he, fetchAck_accepted hpcb hcrc hc]
  exact exec_acknowledgment_of_awaiting
    (s := guardedRead 5 (.ok [s.param.nadC2H, pcb, 0, lo, hi]) rest s) hf he

end

/-- Settles O37: a read error and each check that fails is a case of `AckRefused`; what passes all is accepted. -/
theorem acknowledgmentChecksRunInOrder : Obligations.AcknowledgmentChecksRunInOrder := by
  intro s op v rest hf hp he
  refine ⟨fun e => step_of_ackRefused hf hp he (.bus e), fun nad pcb len lo hi hc => ⟨?refused, ?accepted⟩⟩
  case refused =>
    rintro e (⟨hnad, rfl⟩ | ⟨rfl, hpcb, rfl⟩ | ⟨rfl, hpcb, hlen, rfl⟩ | ⟨rfl, hpcb, rfl, hcrc, rfl⟩)
    · exact step_of_ackRefused hf hp he (.address pcb len lo hi hnad) hc
    · exact step_of_ackRefused hf hp he (.pcb len lo hi hpcb) hc
    · exact step_of_ackRefused hf hp he (.length lo hi hpcb hlen) hc
    · exact step_of_ackRefused hf hp he (.crc hpcb hcrc) hc
  case accepted =>
    rintro rfl hpcb rfl hcrc
    exact step_of_ack hf hp he hpcb hcrc hc

/-! ### SOPEN and SWRITE on a ready block -/

section
variable {s : State} (hs : s.Ready)
include hs

theorem exec_sopen_of_ready (total : Nat) :
    exec (.sopen total) s = .next (endState { s with snd := some ⟨total, 0, [], 0, .active⟩ } (.ok .unit)) :=
  (command_ready hs .sopen (sopenOp total)).trans rfl

theorem exec_swrite_of_ready (x : List Byte) :
    exec (.swrite x) s = .next (finish (swriteOp x (s.accept .swrite))) :=
  command_ready hs _ _

/-- An SWRITE whose body stops with a fault, before any change, leaves the block stopped in SWRITE. -/
theorem exec_swrite_of_stuck {x : List Byte} {t : Fault}
    (h : swriteOp x (s.accept .swrite) = .stuck t (s.accept .swrite)) :
    exec (.swrite x) s = .next (stuckState s .swrite t) := by
  rw [exec_swrite_of_ready hs, h]
  rfl

end

/-- Settles O33: the new sender is written over whatever `snd` held. -/
theorem sopenOpensASender : Obligations.SopenOpensASender := fun _ total hs =>
  ⟨⟨total, 0, [], 0, .active⟩, rfl, rfl, rfl, rfl, exec_sopen_of_ready hs total⟩

/-! ### The faults of SWRITE (43_frame_sender.md R313, R315) -/

section
variable {s : State} {y : Sender} (x : List Byte)

theorem swriteOp_of_noSender (hsnd : s.snd = none) : swriteOp x s = .stuck .senderNotOpen s := by
  rw [swriteOp, hsnd]

theorem swriteOp_of_failed (hsnd : s.snd = some y) (hy : y.status = .failed) :
    swriteOp x s = .stuck .programmingError s := by
  rw [swriteOp, hsnd]
  exact if_pos hy

/-- The overrun counts the bytes SWRITE would consume, not all it is given. -/
theorem swriteOp_of_overrun (hsnd : s.snd = some y) (hy : y.status ≠ .failed)
    (hover : y.total < y.written + y.room x) : swriteOp x s = .stuck .programmingError s := by
  rw [swriteOp, hsnd]
  exact (if_neg hy).trans (if_pos hover)

end

/-- Settles O39: each of the three checks stops the body of SWRITE before it changes anything. -/
theorem swriteFaults : Obligations.SwriteFaults := fun _ x hs =>
  ⟨fun hsnd => exec_swrite_of_stuck hs (swriteOp_of_noSender x hsnd),
    fun _ hsnd hy => exec_swrite_of_stuck hs (swriteOp_of_failed x hsnd hy),
    fun _ hsnd hy hover => exec_swrite_of_stuck hs (swriteOp_of_overrun x hsnd hy hover)⟩

end Sys2Proof.Machine
end

section
/-! PROOFS. Refusals (60_exceptions.md R348): a command code the decoder does not know (30_encoding.md R140, R141), and
everything under the sticky fault. -/

namespace Sys2Proof.Machine

/-! ### The command codes -/

/-- The command codes of 30_encoding.md R140. -/
def commandCodes : List Byte :=
  [0x01#8, 0x02#8, 0x03#8, 0x10#8, 0x11#8, 0x12#8, 0x13#8, 0x14#8, 0x20#8, 0x21#8, 0x22#8]

/-- The decoder matches on the code as a number: it is unknown exactly where that number is no listed code's. -/
theorem decodeCommand_eq_unknown_iff {c : Command} :
    decodeCommand c = .error (.unknownCommand c.code) ↔ c.code ∉ commandCodes := by
  rw [← List.mem_map_of_injective (BitVec.toNat_injective (n := 8))]
  unfold decodeCommand
  split
  case h_12 => exact iff_of_true rfl (by simp_all [commandCodes])
  all_goals
    next hcode =>
      refine iff_of_false ?_ (not_not.2 (hcode ▸ by decide))
      split <;> nofun

/-- A command whose code is unknown is refused where an idle block would fetch it. -/
theorem step_of_unknownCommand {s : State} (hs : s.Ready) {c : Command} {rest : List Command}
    (hport : s.port = c :: rest) (hd : decodeCommand c = .error (.unknownCommand c.code)) :
    step s = .refused (.unknownCommand c.code) := by
  obtain ⟨hidle, hfault⟩ := hs
  simp only [step, fetch, hfault, hidle, fetchCommand, hport, hd, refusalOf]

/-! ### The sticky fault -/

section
variable {s : State} {t : Fault} (hf : s.fault = some t)
include hf

theorem step_of_fault : step s = .refused (.stickyFault t) := by
  simp only [step, fetch, hf]

theorem command_of_fault (op : Op) (body : State → Ran Value) : command op body s = .refused (.stickyFault t) := by
  simp only [command, hf]

theorem frameArrives_of_fault (p : Pcb) (d : List Byte) : frameArrives p d s = .refused (.stickyFault t) := by
  simp only [frameArrives, hf]

/-- Commands and frames are the only instructions, and each reads the fault register first. -/
theorem exec_of_fault (i : Instr) : exec i s = .refused (.stickyFault t) := by
  rcases exec_cases i s with ⟨p, d, -, hexec⟩ | ⟨op, body, hexec⟩
  · exact hexec.trans (frameArrives_of_fault hf p d)
  · exact hexec.trans (command_of_fault hf op body)

end

/-- Settles O9: the decoder knows the listed codes only, and the fault register is read before anything else. -/
theorem refusedCommandsHaveNoStep : Obligations.RefusedCommandsHaveNoStep :=
  ⟨fun _ _ _ hs hport hcode => step_of_unknownCommand hs hport (decodeCommand_eq_unknown_iff.2 hcode),
    fun _ _ hf => ⟨step_of_fault hf, exec_of_fault hf⟩⟩

end Sys2Proof.Machine
end

section
/-! PROOFS. Construction and the sender SOPEN opens (70_reset_and_hazards.md R381). -/

namespace Sys2Proof.Machine

/-- SOPEN runs on a ready block only, so wherever it has a next state its sender is the new one. -/
theorem exec_sopen_next_snd {s t : State} {total : Nat} (h : exec (.sopen total) s = .next t) :
    t.snd = some ⟨total, 0, [], 0, .active⟩ := by
  have hs : s.Ready := (command_next h).1
  cases (exec_sopen_of_ready hs total).symm.trans h
  rfl

/-- Settles O49: construction writes each register, and the new sender's chunk lists no byte. -/
theorem resetValues : Obligations.ResetValues :=
  ⟨fun _ => ⟨rfl, rfl, rfl, rfl, rfl, rfl, rfl, rfl⟩, rfl,
    fun _ _ _ h => ⟨_, exec_sopen_next_snd h, fun _ => rfl⟩⟩

end Sys2Proof.Machine
end

section
/-! PROOFS. Decoding and encoding (30_encoding.md sections 1, 2, 5): the frame of a PCB value and its data is read back,
what the decoder accepts is laid out as the encoder lays it out, and no change of one byte leaves the CRC as it was. -/

namespace Sys2Proof

/-! ### The PCB byte, under the adopted masks -/

/-- Of the parameters the PCB decoder reads the two masks alone. -/
theorem decodePcbByte_adopted {P : Params} (hP : P.AdoptedMasks) (b : Byte) :
    decodePcbByte P b = decodePcbByte Config.params b := by
  rw [decodePcbByte, hP.1, hP.2]
  rfl

/-- The encoder gives a decoded byte back, but for the five low bits of an I-block, which the decoder ignores. -/
theorem encodePcbByte_of_decodePcbByte {P : Params} (hP : P.AdoptedMasks) {b : Byte} {p : Pcb}
    (h : decodePcbByte P b = some p) (hlow : 0x80 ≤ b.toNat ∨ b &&& 0x1F = 0) : encodePcbByte p = b := by
  have hbytes : ∀ b : Byte, 0x80 ≤ b.toNat ∨ b &&& 0x1F = 0 →
      (decodePcbByte Config.params b).all (encodePcbByte · == b) = true := by decide +kernel
  have hb := hbytes b hlow
  rw [← decodePcbByte_adopted hP, h] at hb
  simpa using hb

/-- Settles O2: the table is the codes with their bytes, and each byte is the encoding of its code. -/
theorem supervisoryBytesFollowTable : Obligations.SupervisoryBytesFollowTable := by
  intro P hP
  change ∀ e ∈ SCode.all.map fun code => (code, code.byte), _
  exact List.forall_mem_map.2 fun code _ => ⟨rfl, pcbRoundTrip P (.s code) hP⟩

/-- Settles O5: the decoder under the adopted masks, held against the list byte by byte. -/
theorem illegalPcbBytes : Obligations.IllegalPcbBytes := by
  intro P b hP
  rw [decodePcbByte_adopted hP]
  revert b
  decide +kernel

/-! ### Frames -/

/-- The instruction of a frame is encoded as that frame. -/
theorem encode_ofFrame (P : Params) (p : Pcb) (d : List Byte) :
    encode P (Instr.ofFrame p d) = .frame (frameBytes P.nadC2H p d) := by
  cases p with
  | i seq more => rfl
  | r seq err => cases err <;> rfl
  | s code => cases code <;> rfl

/-- A frame's instruction is well-formed where its data fit (30_encoding.md R110). -/
theorem wellFormed_ofFrame (p : Pcb) (d : List Byte) : (Instr.ofFrame p d).wellFormed = dataFits d := by
  cases p with
  | i seq more => rfl
  | r seq err => cases err <;> rfl
  | s code => cases code <;> rfl

theorem dataFits_iff {d : List Byte} : dataFits d = true ↔ d.length ≤ 254 := decide_eq_true_iff

theorem checkFrame_ok {P : Params} {pcb len lo hi : Byte} {d : List Byte} {p : Pcb}
    (hcrc : crc16X25 ([P.nadC2H, pcb, len] ++ d) = fromLe16 lo hi) (hpcb : decodePcbByte P pcb = some p) :
    checkFrame P P.nadC2H pcb len d lo hi = .ok (p, d) := by
  have hok : crcOk P.nadC2H pcb len d lo hi = true := by rw [crcOk, hcrc]; exact beq_self_eq_true _
  simp only [checkFrame, hok, hpcb, ne_eq, not_true, if_false, Bool.true_eq_false]

/-- The frame of a PCB value and at most 254 data bytes decodes to them. -/
theorem decodeFrame_frameBytes {P : Params} (hP : P.AdoptedMasks) (p : Pcb) {d : List Byte} (hd : d.length ≤ 254) :
    decodeFrame P (frameBytes P.nadC2H p d) = .ok (p, d) := by
  have hlen : (BitVec.ofNat 8 d.length).toNat = d.length := by
    rw [BitVec.toNat_ofNat]; omega
  rw [frameBytes, List.append_assoc]
  exact (Machine.decodeFrame_eq_checkFrame P _ _ _ _ hlen.symm (hlen.trans_le hd)).trans
    (checkFrame_ok (fromLe16_le16 _).symm (pcbRoundTrip P p hP))

/-- What the frame decoder accepts: the chip's address, a PCB byte that decodes, a length of at most 254, that many data
bytes, and their CRC in its wire form. -/
theorem decodeFrame_eq_ok {P : Params} {bytes d : List Byte} {p : Pcb} (h : decodeFrame P bytes = .ok (p, d)) :
    ∃ pcb : Byte, decodePcbByte P pcb = some p ∧ d.length ≤ 254 ∧
      bytes = [P.nadC2H, pcb, BitVec.ofNat 8 d.length] ++ d ++
        le16 (crc16X25 ([P.nadC2H, pcb, BitVec.ofNat 8 d.length] ++ d)) := by
  unfold decodeFrame at h
  split at h
  case h_2 => cases h
  next nad pcb len body =>
  split at h
  case isTrue => cases h
  next hlen =>
  split at h
  case h_2 => cases h
  next lo hi hdrop =>
  unfold checkFrame at h
  split at h
  case isTrue => cases h
  next hnad =>
  split at h
  case isTrue => cases h
  next hcrc =>
  split at h
  case h_1 => cases h
  next q hpcb =>
  cases h
  have hbody : body = body.take len.toNat ++ [lo, hi] := by rw [← hdrop, List.take_append_drop]
  have htake : (body.take len.toNat).length = len.toNat := by
    have h2 : (body.drop len.toNat).length = 2 := by rw [hdrop]; rfl
    rw [List.length_drop] at h2
    rw [List.length_take]; omega
  have hnad' : nad = P.nadC2H := not_not.1 hnad
  have hlen' : BitVec.ofNat 8 (body.take len.toNat).length = len := by
    rw [htake, BitVec.ofNat_toNat, BitVec.setWidth_eq]
  have hwire : le16 (crc16X25 ([nad, pcb, len] ++ body.take len.toNat)) = [lo, hi] := by
    have hvalue : crc16X25 ([nad, pcb, len] ++ body.take len.toNat) = fromLe16 lo hi := by
      simpa [crcOk] using hcrc
    have hlo : (hi ++ lo).extractLsb' 0 8 = lo := BitVec.extractLsb'_append_eq_right
    have hhi : (hi ++ lo).extractLsb' 8 8 = hi := BitVec.extractLsb'_append_eq_left
    rw [hvalue, le16, fromLe16, hlo, hhi]
  refine ⟨pcb, hpcb, by rw [htake]; exact Nat.not_lt.1 hlen, ?_⟩
  rw [hlen', ← hnad', hwire]
  simp [← hbody]

/-! ### Instructions -/

/-- The encoding spaces: an instruction is a frame's, or it has a command, which decodes to it. -/
theorem Instr.frame_or_command (i : Instr) :
    (∃ p d, i = Instr.ofFrame p d) ∨ ∃ c, decodeCommand c = .ok i ∧ ∀ P, encode P i = .command c := by
  cases i with
  | iBlock seq more d => exact .inl ⟨.i seq more, d, rfl⟩
  | rNone seq d => exact .inl ⟨.r seq .none, d, rfl⟩
  | rChecksum seq d => exact .inl ⟨.r seq .checksum, d, rfl⟩
  | rOther seq d => exact .inl ⟨.r seq .other, d, rfl⟩
  | sResyncRequest d => exact .inl ⟨.s .resyncRequest, d, rfl⟩
  | sIfsRequest d => exact .inl ⟨.s .ifsRequest, d, rfl⟩
  | sAbortRequest d => exact .inl ⟨.s .abortRequest, d, rfl⟩
  | sWtxRequest d => exact .inl ⟨.s .wtxRequest, d, rfl⟩
  | sEndSessionRequest d => exact .inl ⟨.s .endSessionRequest, d, rfl⟩
  | sChipResetRequest d => exact .inl ⟨.s .chipResetRequest, d, rfl⟩
  | sGetAtrRequest d => exact .inl ⟨.s .getAtrRequest, d, rfl⟩
  | sInterfaceSoftResetRequest d => exact .inl ⟨.s .interfaceSoftResetRequest, d, rfl⟩
  | sResyncResponse d => exact .inl ⟨.s .resyncResponse, d, rfl⟩
  | sIfsResponse d => exact .inl ⟨.s .ifsResponse, d, rfl⟩
  | sAbortResponse d => exact .inl ⟨.s .abortResponse, d, rfl⟩
  | sWtxResponse d => exact .inl ⟨.s .wtxResponse, d, rfl⟩
  | sEndSessionResponse d => exact .inl ⟨.s .endSessionResponse, d, rfl⟩
  | sChipResetResponse d => exact .inl ⟨.s .chipResetResponse, d, rfl⟩
  | sGetAtrResponse d => exact .inl ⟨.s .getAtrResponse, d, rfl⟩
  | sInterfaceSoftResetResponse d => exact .inl ⟨.s .interfaceSoftResetResponse, d, rfl⟩
  | _ => exact .inr ⟨_, rfl, fun _ => rfl⟩

/-- Settles O47: a command decodes by its code, and a frame is read back byte by byte. -/
theorem decodeInvertsEncode : Obligations.DecodeInvertsEncode := by
  intro P i hP hwf
  rcases i.frame_or_command with ⟨p, d, rfl⟩ | ⟨c, hc, henc⟩
  · have hd : d.length ≤ 254 := dataFits_iff.1 ((wellFormed_ofFrame p d).symm.trans hwf)
    rw [encode_ofFrame, decode, decodeFrame_frameBytes hP p hd]
    rfl
  · rw [henc, decode, hc]

/-- A command is the encoding of the instruction it decodes to, which is well-formed. -/
theorem encode_of_decodeCommand {c : Command} {i : Instr} (h : decodeCommand c = .ok i) (P : Params) :
    i.wellFormed = true ∧ encode P i = .command c := by
  obtain ⟨code, ops⟩ := c
  unfold decodeCommand at h
  split at h
  case h_12 => cases h
  all_goals
    next hcode =>
      have hbyte : BitVec.ofNat 8 code.toNat = code := (BitVec.ofNat_toNat 8 code).trans (BitVec.setWidth_eq code)
      rw [hcode] at hbyte
      split at h
      · next hops =>
        cases h
        cases hops
        cases hbyte
        exact ⟨rfl, rfl⟩
      · cases h

/-- Settles O48: the accepted bytes are those of the encoder once the PCB byte is, which the last premise gives. -/
theorem decodeGivesWellFormed : Obligations.DecodeGivesWellFormed := by
  intro P e i hP h
  cases e with
  | command c =>
    obtain ⟨hwf, henc⟩ := encode_of_decodeCommand h P
    exact ⟨hwf, fun _ hc => henc.trans (by rw [hc]), nofun⟩
  | frame bytes =>
    rw [decode] at h
    cases hd : decodeFrame P bytes with
    | error e => rw [hd] at h; cases h
    | ok f =>
      rw [hd] at h
      cases h
      obtain ⟨pcb, hpcb, hlen, hbytes⟩ := decodeFrame_eq_ok hd
      refine ⟨(wellFormed_ofFrame _ _).trans (dataFits_iff.2 hlen), nofun, ?_⟩
      rintro _ ⟨⟩ hlow
      have hpcb' : bytes.getD 1 0 = pcb := by rw [hbytes]; rfl
      rw [hpcb'] at hlow
      rw [encode_ofFrame, frameBytes, encodePcbByte_of_decodePcbByte hP hpcb hlow, ← hbytes]

/-- Settles O46: each word is the encoding of its instruction. -/
theorem writtenOutWordsDecode : Obligations.WrittenOutWordsDecode := by
  intro P hP hnad
  have hframe {bytes d : List Byte} {p : Pcb} (hd : d.length ≤ 254) (h : frameBytes 0xA5 p d = bytes) :
      decode P (.frame bytes) = .ok (Instr.ofFrame p d) := by
    rw [decode, ← h, ← hnad, decodeFrame_frameBytes hP p hd]
    rfl
  exact ⟨hframe (p := .i false true) (by decide) (by decide +kernel),
    hframe (p := .r true .none) (by decide) (by decide +kernel),
    hframe (p := .s .wtxRequest) (by decide) (by decide +kernel),
    hframe (p := .s .resyncResponse) (by decide) (by decide +kernel), rfl, rfl, rfl⟩

/-! ### The CRC register -/

/-- A shift moves bit 0 to bit 15, and the other bits down, each complemented or not by what bit 0 was. -/
theorem crcShift_getLsbD (c : Half) :
    (crcShift c).getLsbD 15 = c.getLsbD 0 ∧
    ∀ k, c.getLsbD (k + 1) = ((crcShift c).getLsbD k ^^ (c.getLsbD 0 && (0x8408#16).getLsbD k)) := by
  unfold crcShift
  cases h : c.getLsbD 0
  · simp [BitVec.getLsbD_ushiftRight, Nat.add_comm]
  · simp [BitVec.getLsbD_ushiftRight, Nat.add_comm]

theorem crcShift_injective : Function.Injective crcShift := by
  intro a b h
  obtain ⟨ha0, ha⟩ := crcShift_getLsbD a
  obtain ⟨hb0, hb⟩ := crcShift_getLsbD b
  have hbit0 : a.getLsbD 0 = b.getLsbD 0 := by rw [← ha0, ← hb0, h]
  refine BitVec.eq_of_getLsbD_eq fun k _ => ?_
  cases k with
  | zero => exact hbit0
  | succ k => rw [ha, hb, h, hbit0]

/-- For a fixed byte, the register before it can be told from the register after it. -/
theorem crcByte_injective_register (x : Byte) : Function.Injective (crcByte · x) := fun a b h => by
  simp only [crcByte_eq_iterate] at h
  exact BitVec.xor_left_inj _ |>.1 (crcShift_injective.iterate 8 h)

/-- For a fixed register, the byte can be told from the register after it. -/
theorem crcByte_injective_byte (crc : Half) : Function.Injective (crcByte crc) := fun x y h => by
  simp only [crcByte_eq_iterate] at h
  have hxy := BitVec.xor_right_inj _ |>.1 (crcShift_injective.iterate 8 h)
  have hback := congrArg (BitVec.setWidth 8) hxy
  simpa using hback

theorem foldl_crcByte_injective (xs : List Byte) : Function.Injective (xs.foldl crcByte) := by
  induction xs with
  | nil => exact fun _ _ h => h
  | cons x xs ih => exact fun a b h => crcByte_injective_register x (ih h)

/-- Settles O7: the register differs after the changed byte, and every later byte keeps two registers apart. -/
theorem crcDetectsEveryByteChange : Obligations.CrcDetectsEveryByteChange := by
  intro xs ys a b hab h
  rw [crc16X25_append, crc16X25_append, BitVec.xor_left_inj] at h
  exact hab (crcByte_injective_byte _ (foldl_crcByte_injective ys h))

end Sys2Proof
end

section
/-! PROOFS. What a step can be, for the rules of the whole machine: the body of each command, one iteration of a
reception, or the read of an acknowledgment; and the steps of an idle and of a busy block (10_state.md section 6). -/

namespace Sys2Proof.Machine

/-! ### The state an operation leaves -/

@[simp] theorem finish_param (r : Ran Value) : (finish r).param = r.state.param := by cases r <;> rfl
@[simp] theorem finish_txSeq (r : Ran Value) : (finish r).txSeq = r.state.txSeq := by cases r <;> rfl
@[simp] theorem finish_rxSeq (r : Ran Value) : (finish r).rxSeq = r.state.rxSeq := by cases r <;> rfl
@[simp] theorem finish_atr (r : Ran Value) : (finish r).atr = r.state.atr := by cases r <;> rfl
@[simp] theorem finish_snd (r : Ran Value) : (finish r).snd = r.state.snd := by cases r <;> rfl
@[simp] theorem finish_trace (r : Ran Value) : (finish r).trace = r.state.trace := by cases r <;> rfl
@[simp] theorem finish_mem (r : Ran Value) : (finish r).mem = r.state.mem := by cases r <;> rfl
@[simp] theorem finish_port (r : Ran Value) : (finish r).port = r.state.port := by cases r <;> rfl

/-! ### The body of each command -/

/-- `CommandRan s i r`: the body of command `i`, run in `s`, gives `r`. -/
inductive CommandRan (s : State) : Instr → Ran Value → Prop where
  | encodePcb (p : Pcb) : CommandRan s (.encodePcb p) (.ok (.byte (encodePcbByte p)) s)
  | decodePcb (b : Byte) : CommandRan s (.decodePcb b) (decodePcbOp b s)
  | checksum (h d : List Byte) : CommandRan s (.checksum h d) (.ok (checksumValue h d) s)
  | waitGuard : CommandRan s .waitGuard (.ok .unit s.guardWait)
  | waitPoll : CommandRan s .waitPoll (.ok .unit s.pollWait)
  | sopen (total : Nat) : CommandRan s (.sopen total) (sopenOp total s)
  | swrite (x : List Byte) : CommandRan s (.swrite x) (swriteOp x s)
  | sflush : CommandRan s .sflush (sflushOp s)
  | resync : CommandRan s .resync (resyncOp s)
  | resetNegotiate (buf : Buffer) : CommandRan s (.resetNegotiate buf) (resetNegotiateOp buf s)
  | receive (buf : Buffer) : CommandRan s (.receive buf) (beginReception .receive buf s)

/-- Every instruction of the port is accepted and refused alike, and runs its body. -/
theorem exec_of_decodeCommand {c : Command} {i : Instr} (h : decodeCommand c = .ok i) :
    ∃ op body, (∀ s, exec i s = command op body s) ∧ ∀ s, CommandRan s i (body s) := by
  have henc := (encode_of_decodeCommand h Config.params).2
  cases i with
  | encodePcb p => exact ⟨_, _, fun _ => rfl, fun _ => .encodePcb p⟩
  | decodePcb b => exact ⟨_, _, fun _ => rfl, fun _ => .decodePcb b⟩
  | checksum x d => exact ⟨_, _, fun _ => rfl, fun _ => .checksum x d⟩
  | waitGuard => exact ⟨.waitGuard, fun s => .ok .unit s.guardWait, fun _ => rfl, fun _ => .waitGuard⟩
  | waitPoll => exact ⟨.waitPoll, fun s => .ok .unit s.pollWait, fun _ => rfl, fun _ => .waitPoll⟩
  | sopen total => exact ⟨_, _, fun _ => rfl, fun _ => .sopen total⟩
  | swrite x => exact ⟨_, _, fun _ => rfl, fun _ => .swrite x⟩
  | sflush => exact ⟨_, _, fun _ => rfl, fun _ => .sflush⟩
  | resync => exact ⟨_, _, fun _ => rfl, fun _ => .resync⟩
  | resetNegotiate buf => exact ⟨_, _, fun _ => rfl, fun _ => .resetNegotiate buf⟩
  | receive buf => exact ⟨_, _, fun _ => rfl, fun _ => .receive buf⟩
  | _ => cases henc

/-- A command that answers a next state found the block ready, and leaves it where its body ends. -/
theorem exec_next_commandRan {c : Command} {i : Instr} {s t : State} (hd : decodeCommand c = .ok i)
    (h : exec i s = .next t) : s.Ready ∧ ∃ op r, CommandRan (s.accept op) i r ∧ t = finish r := by
  obtain ⟨op, body, hexec, hran⟩ := exec_of_decodeCommand hd
  obtain ⟨hs, ht⟩ := command_next ((hexec s).symm.trans h)
  exact ⟨hs, op, _, hran _, ht⟩

/-! ### The step, operation by operation -/

/-- A step of an acknowledgment wait is its read. -/
theorem step_readAck {s : State} {op : Op} {v : Value} (hf : s.fault = none) (hp : s.phase = .busy op)
    (he : s.engine = .awaitingAck v) : step s = .next (finish (readAck v s)) := by
  rw [step_awaiting hf hp he]
  have hx := (fetchAck_cases s).1
  unfold readAck
  cases h : fetchAck s with
  | notReady t => rfl
  | raised e t => rfl
  | frame p d t =>
    rw [h] at hx
    obtain ⟨-, -, -, -, -, -, hfault, hengine, -⟩ := hx.fields
    simp only [exec_ofFrame]
    exact frameArrives_awaiting (hfault.trans hf) (hengine.trans he) p d

/-- All a step that answers a next state can be: the idle wait, a command's body, an iteration of a reception, or the
read of an acknowledgment. -/
theorem step_next_cases {s t : State} (h : step s = .next t) :
    s.fault = none ∧
    ((s.phase = .idle ∧ t = s) ∨
     (∃ rest op i r, s.phase = .idle ∧ CommandRan (State.accept { s with port := rest } op) i r ∧ t = finish r) ∨
     (∃ op rx, s.phase = .busy op ∧ s.engine = .receiving rx ∧ t = finish (receiveOnce rx s)) ∨
     (∃ op v, s.phase = .busy op ∧ s.engine = .awaitingAck v ∧ t = finish (readAck v s))) := by
  obtain ⟨hf, ⟨hp, -, rfl⟩ | ⟨c, rest, i, hp, -, hd, hexec⟩ | ⟨op, rx, hp, he, -⟩ | ⟨op, v, hp, he, -⟩⟩ :=
    step_cases h
  · exact ⟨hf, .inl ⟨hp, rfl⟩⟩
  · obtain ⟨-, op, r, hran, ht⟩ := exec_next_commandRan hd hexec
    exact ⟨hf, .inr (.inl ⟨rest, op, i, r, hp, hran, ht⟩)⟩
  · rw [step_receiveOnce hf hp he] at h
    exact ⟨hf, .inr (.inr (.inl ⟨op, rx, hp, he, by cases h; rfl⟩))⟩
  · rw [step_readAck hf hp he] at h
    exact ⟨hf, .inr (.inr (.inr ⟨op, v, hp, he, by cases h; rfl⟩))⟩

/-! ### Single steps -/

/-- Settles O11: an idle block fetches from its port alone, and a quiet engine awaits no frame. -/
theorem idleWaitsAndUnawaitedFrameIsRefused : Obligations.IdleWaitsAndUnawaitedFrameIsRefused := by
  constructor
  · rintro s ⟨hidle, hfault⟩ hport
    simp only [step, fetch, hfault, hidle, fetchCommand, hport]
  · intro s p d hfault hengine
    rw [exec_ofFrame]
    simp only [frameArrives, hfault, hengine]

/-- Settles O43: the fetch of an idle block is its port's next command. -/
theorem stepRunsTheNextCommand : Obligations.StepRunsTheNextCommand := by
  rintro s c rest i ⟨hidle, hfault⟩ hport hd
  have hd' : decodeCommand c = .ok i := hd
  simp only [step, fetch, hfault, hidle, fetchCommand, hport, hd']

/-- What decodes as a frame is the instruction of its PCB value and its data. -/
theorem decodeFrame_of_decode {P : Params} {bytes : List Byte} {i : Instr} (h : decode P (.frame bytes) = .ok i) :
    ∃ p d, decodeFrame P bytes = .ok (p, d) ∧ i = Instr.ofFrame p d := by
  rw [decode] at h
  cases hd : decodeFrame P bytes with
  | error e => rw [hd] at h; cases h
  | ok f => rw [hd] at h; cases h; exact ⟨_, _, rfl, rfl⟩

/-- Settles O44: the fetch of a reception is the frame of its two reads. -/
theorem stepRunsTheReceivedFrame : Obligations.StepRunsTheReceivedFrame := by
  intro s op rx h t i rest hf hp he hb hh hlen hcap ht hc hd
  obtain ⟨p, d, hframe, rfl⟩ := decodeFrame_of_decode hd
  rw [step_receiving hf hp he, fetchFrame_at hb hh ((rx.fits_iff _).2 ⟨hlen, hcap⟩) ht hframe hc]
  rfl

/-- The acknowledgment awaited, at hand as the chip sends it, is read and accepted. -/
theorem fetchAck_frameBytes {s : State} {rest : List BusAnswer} (hP : s.param.AdoptedMasks)
    (hc : s.chip = .ok (frameBytes s.param.nadC2H (.r s.txSeq .none) []) :: rest) :
    fetchAck s = .frame (.r s.txSeq .none) []
      (guardedRead 5 (.ok (frameBytes s.param.nadC2H (.r s.txSeq .none) [])) rest s) :=
  fetchAck_accepted (pcbRoundTrip s.param _ hP) (fromLe16_le16 _).symm hc

/-- Settles O45: the fetch of a flush that waits is the acknowledgment it accepts. -/
theorem stepRunsTheAcknowledgment : Obligations.StepRunsTheAcknowledgment := by
  intro s op v rest hf hp he hP hc
  rw [step_awaiting hf hp he, fetchAck_frameBytes hP hc]
  rfl

/-- Settles O41: the flush accepts the empty R-block with the current `tx_seq`, and `receiveAck` fails on the rest. -/
theorem onlyTheAcknowledgmentIsAccepted : Obligations.OnlyTheAcknowledgmentIsAccepted := by
  intro s v hf he
  refine ⟨exec_acknowledgment_of_awaiting hf he, fun p d hne => ?_⟩
  have hrefused : ¬ (p = .r s.txSeq .none ∧ d = []) := fun h => hne (by rw [h.1, h.2])
  rw [exec_ofFrame, frameArrives_awaiting hf he, receiveAck, if_neg hrefused]
  rfl

end Sys2Proof.Machine
end

section
/-! PROOFS. The invariant (10_state.md sections 5 and 6; 20_memory.md sections 3 and 5): it holds at construction, what
an operation keeps while it runs is enough for it wherever the operation ends or waits, and so every step keeps it. -/

namespace Sys2Proof.Machine

/-! ### Construction -/

theorem inv_construct (P : Params) : (State.construct P).Inv where
  memSorted := rfl
  scratchSorted := rfl
  senderOk := nofun
  senderRoom := nofun
  rxFits := nofun
  idleQuiet _ := ⟨rfl, rfl⟩
  busyAwaits := nofun
  traceOk := nofun

/-- Settles O50: construction leaves no sender, no locals and no events. -/
theorem invHoldsAtReset : Obligations.InvHoldsAtReset := ⟨inv_construct, inv_construct _⟩

/-! ### What a running operation keeps -/

/-- An open sender that has not failed has room in its chunk (10_state.md R51). -/
def State.Room (s : State) : Prop := ∀ y, s.snd = some y → y.status ≠ .failed → y.chunkLen < Config.maxData

/-- The part of the invariant that speaks of the fields an operation works on, inside an operation that has not
faulted. -/
structure State.Running (s : State) : Prop where
  busy          : s.phase ≠ .idle
  unfaulted     : s.fault = none
  memSorted     : Memory.wf s.mem = true
  scratchSorted : Memory.wf s.scratch = true
  senderOk      : ∀ y, s.snd = some y → y.Ok
  traceOk       : ∀ e ∈ s.trace, Event.ok s.param.i2cAddr e = true

theorem State.Inv.running_accept {s : State} (h : s.Inv) (hf : s.fault = none) (op : Op) (rest : List Command) :
    (State.accept { s with port := rest } op).Running :=
  ⟨nofun, hf, h.memSorted, h.scratchSorted, h.senderOk, h.traceOk⟩

theorem State.Inv.running {s : State} (h : s.Inv) (hf : s.fault = none) {op : Op} (hp : s.phase = .busy op) :
    s.Running :=
  ⟨by simp [hp], hf, h.memSorted, h.scratchSorted, h.senderOk, h.traceOk⟩

theorem traceOk_append {a : BusAddr} {es fs : List Event} (he : ∀ e ∈ es, Event.ok a e = true)
    (hf : ∀ e ∈ fs, Event.ok a e = true) : ∀ e ∈ es ++ fs, Event.ok a e = true :=
  fun e h => (List.mem_append.1 h).elim (he e) (hf e)

theorem Received.running {rx : Rx} {s t : State} (h : Received rx s t) (hs : s.Running) : t.Running where
  busy := by rw [h.phase]; exact hs.busy
  unfaulted := h.fault.trans hs.unfaulted
  memSorted := h.memWf hs.memSorted
  scratchSorted := h.scrWf hs.scratchSorted
  senderOk := by rw [h.snd]; exact hs.senderOk
  traceOk := by
    obtain ⟨evs, htrace, hevs⟩ := h.trace
    rw [htrace, h.param]
    exact traceOk_append hs.traceOk hevs

theorem Sent.running {s t : State} (h : Sent s t) (hs : s.Running) : t.Running where
  busy := by rw [h.phase]; exact hs.busy
  unfaulted := h.fault.trans hs.unfaulted
  memSorted := by rw [h.mem]; exact hs.memSorted
  scratchSorted := by rw [h.scratch]; exact hs.scratchSorted
  senderOk := by
    obtain ⟨f, hf, hsnd⟩ := h.snd
    intro z hz
    rw [hsnd] at hz
    obtain ⟨y, hy, rfl⟩ := Option.map_eq_some_iff.1 hz
    exact hf.keeps_ok (hs.senderOk y hy)
  traceOk := by
    obtain ⟨evs, htrace, hevs⟩ := h.trace
    rw [htrace, h.param]
    exact traceOk_append hs.traceOk hevs

/-! ### Where an operation ends or waits -/

/-- An operation has ended, or waits, so that the block it leaves meets the invariant. -/
inductive Settles : Ran Value → Prop where
  | ok (v : Value) {t : State} (h : t.Running) (hr : t.Room) : Settles (.ok v t)
  | raised (e : Err) {t : State} (h : t.Running) (hr : t.Room) : Settles (.raised e t)
  | stuck (f : Fault) {t : State} (h : t.Running) : Settles (.stuck f t)
  | receiving {t : State} {rx : Rx} (h : t.Running) (hr : t.Room) (he : t.engine = .receiving rx)
      (hw : rx.written ≤ rx.buf.capacity) : Settles (.waiting t)
  | awaitingAck {t : State} {v : Value} (h : t.Running) (he : t.engine = .awaitingAck v) : Settles (.waiting t)

theorem inv_complete {s : State} (h : s.Running) (hr : s.Room) (r : Result) : (s.complete r).Inv where
  memSorted := h.memSorted
  scratchSorted := rfl
  senderOk := h.senderOk
  senderRoom _ _ := hr
  rxFits := nofun
  idleQuiet _ := ⟨rfl, h.unfaulted⟩
  busyAwaits := nofun
  traceOk := h.traceOk

theorem inv_stick {s : State} (h : s.Running) (t : Fault) : (s.stick t).Inv where
  memSorted := h.memSorted
  scratchSorted := h.scratchSorted
  senderOk := h.senderOk
  senderRoom := nofun
  rxFits := nofun
  idleQuiet hp := absurd hp h.busy
  busyAwaits := nofun
  traceOk := h.traceOk

theorem inv_receiving {s : State} (h : s.Running) (hr : s.Room) {rx : Rx} (he : s.engine = .receiving rx)
    (hw : rx.written ≤ rx.buf.capacity) : s.Inv where
  memSorted := h.memSorted
  scratchSorted := h.scratchSorted
  senderOk := h.senderOk
  senderRoom _ _ := hr
  rxFits _ rx' he' := by cases he.symm.trans he'; exact hw
  idleQuiet hp := absurd hp h.busy
  busyAwaits _ _ _ := by simp [he]
  traceOk := h.traceOk

theorem inv_awaitingAck {s : State} (h : s.Running) {v : Value} (he : s.engine = .awaitingAck v) : s.Inv where
  memSorted := h.memSorted
  scratchSorted := h.scratchSorted
  senderOk := h.senderOk
  senderRoom _ hn := absurd he (hn v)
  rxFits _ _ he' := nomatch he.symm.trans he'
  idleQuiet hp := absurd hp h.busy
  busyAwaits _ _ _ := by simp [he]
  traceOk := h.traceOk

theorem Settles.inv_finish {r : Ran Value} (h : Settles r) : (finish r).Inv := by
  cases h with
  | ok v h hr => exact inv_complete h hr _
  | raised e h hr => exact inv_complete h hr _
  | stuck f h => exact inv_stick h f
  | receiving h hr he hw => exact inv_receiving h hr he hw
  | awaitingAck h he => exact inv_awaitingAck h he

/-! ### Receptions -/

/-- A reception leaves the sender alone, and waits within its capacity. -/
theorem RxResult.settles {rx : Rx} {s : State} {r : Ran Value} (h : RxResult rx s r) (hs : s.Running)
    (hroom : s.Room) : Settles r := by
  obtain ⟨hrec, hwait⟩ := h
  have hrun := hrec.running hs
  have hroom' : r.state.Room := by rw [State.Room, hrec.snd]; exact hroom
  cases r with
  | ok v t => exact .ok v hrun hroom'
  | raised e t => exact .raised e hrun hroom'
  | stuck f t => exact .stuck f hrun
  | waiting t =>
    obtain ⟨rx', he, hsame, hw⟩ := hwait t rfl
    exact .receiving hrun hroom' he (by rw [hsame.2]; exact hw)

/-- The request of a link operation is bus activity before the reception of its answer. -/
theorem exchange_result (request : SCode) (client : Client) (buf : Buffer) (s : State) :
    RxResult ⟨client, buf, 0, 0, 0⟩ s (exchange request client buf s) := by
  have hx := writeFrame_ext (.s request) [] s
  unfold exchange
  split
  · next heq =>
    rw [heq] at hx
    exact .of_received (.of_ext hx.1) (beginReception_result client buf _)
  · next heq => rw [heq] at hx; exact ⟨.of_ext hx.1, fun _ h => by cases h⟩
  · next heq => rw [heq] at hx; exact ⟨.of_ext hx.1, fun _ h => by cases h⟩
  · next heq => exact absurd heq (hx.2 _)

/-- RESYNC empties its own buffer first. -/
theorem resyncOp_result (s : State) :
    RxResult ⟨.resync, ⟨0, s.param.scratchCap⟩, 0, 0, 0⟩ s (resyncOp s) :=
  .of_received
    (t := { s with scratch := [] })
    ⟨rfl, rfl, rfl, rfl, rfl, rfl, fun _ => rfl, fun _ => rfl, fun _ _ => rfl, fun _ => rfl, id, fun _ => rfl,
      [], by simp, by simp⟩
    (exchange_result _ _ _ _)

theorem resetNegotiateOp_result (buf : Buffer) (s : State) :
    RxResult ⟨.resetNegotiate, buf, 0, 0, 0⟩ s (resetNegotiateOp buf s) :=
  exchange_result _ _ _ _

/-! ### The sender -/

/-- A flush, or the end of one, leaves a sender with room, or waits for an acknowledgment. -/
theorem Sent.settles {s : State} {v : Value} {r : Ran Value} (h : Sent s r.state) (hempty : Empties r)
    (hwait : ∀ t, r = .waiting t → t.engine = .awaitingAck v) (hs : s.Running) : Settles r := by
  have hrun := h.running hs
  have hroom : (∀ t, r ≠ .waiting t) → (∀ f t, r ≠ .stuck f t) → r.state.Room := by
    intro hnw hns z hz hstatus
    have hz' := (hempty.resolve_left fun ⟨t, e⟩ => hnw t e).resolve_left (fun ⟨f, t, e⟩ => hns f t e) z hz
    rw [hz'.resolve_left hstatus]
    decide
  cases r with
  | ok w t => exact .ok w hrun (hroom (by simp) (by simp))
  | raised e t => exact .raised e hrun (hroom (by simp) (by simp))
  | stuck f t => exact .stuck f hrun
  | waiting t => exact .awaitingAck hrun (hwait t rfl)

theorem flush_settles (y : Sender) (v : Value) {s : State} (hs : s.Running) : Settles (flush y v s) := by
  obtain ⟨hsent, -, hwait⟩ := flush_result y v s
  exact hsent.settles (flush_empties y v s) hwait hs

theorem readAck_settles (v : Value) {s : State} (hs : s.Running) : Settles (readAck v s) := by
  obtain ⟨hsent, -, hwait⟩ := readAck_result v s
  exact hsent.settles (readAck_empties v s) hwait hs

theorem State.Running.withSender {s : State} (hs : s.Running) {y : Sender} (hy : y.Ok) :
    State.Running { s with snd := some y } :=
  ⟨hs.busy, hs.unfaulted, hs.memSorted, hs.scratchSorted, fun z hz => by cases hz; exact hy, hs.traceOk⟩

theorem sopenOp_settles (total : Nat) {s : State} (hs : s.Running) : Settles (sopenOp total s) := by
  have hok : Sender.Ok ⟨total, 0, [], 0, .active⟩ :=
    ⟨Nat.zero_le _, Nat.zero_le _, Nat.zero_le _, rfl, nofun, nofun⟩
  refine .ok _ (hs.withSender hok) fun y hy _ => ?_
  cases hy
  exact (by decide : 0 < Config.maxData)

/-- All SWRITE can do (43_frame_sender.md R313): it faults before any change, or the sender takes the bytes in and is
flushed where that is due. -/
theorem swriteOp_cases (x : List Byte) (s : State) :
    (∃ f, swriteOp x s = .stuck f s) ∨
    ∃ y, s.snd = some y ∧ y.status ≠ .failed ∧ y.written + y.room x ≤ y.total ∧
      (((y.take x (y.room x)).due (y.room x) = false ∧
          swriteOp x s = .ok (.consumed (y.room x)) { s with snd := some (y.take x (y.room x)) }) ∨
       ((y.take x (y.room x)).due (y.room x) = true ∧
          swriteOp x s = flush (y.take x (y.room x)) (.consumed (y.room x))
            { s with snd := some (y.take x (y.room x)) })) := by
  unfold swriteOp
  split
  · exact .inl ⟨_, rfl⟩
  · next y hy =>
    split
    · exact .inl ⟨_, rfl⟩
    · next hstatus =>
      split
      · exact .inl ⟨_, rfl⟩
      · next hover =>
        refine .inr ⟨y, hy, hstatus, Nat.not_lt.1 hover, ?_⟩
        cases hdue : (y.take x (y.room x)).due (y.room x)
        · exact .inl ⟨rfl, if_neg (by simp [hdue])⟩
        · exact .inr ⟨rfl, if_pos hdue⟩

/-- All SFLUSH can do (43_frame_sender.md R318). -/
theorem sflushOp_cases (s : State) :
    (∃ f, sflushOp s = .stuck f s) ∨ sflushOp s = .ok .unit s ∨
    ∃ y, s.snd = some y ∧ y.status = .active ∧ y.total ≤ y.written ∧ sflushOp s = flush y .unit s := by
  unfold sflushOp
  split
  · exact .inl ⟨_, rfl⟩
  · next y hy =>
    split
    · exact .inl ⟨_, rfl⟩
    · exact .inr (.inl rfl)
    · next hactive =>
      split
      · exact .inl ⟨_, rfl⟩
      · next howed => exact .inr (.inr ⟨y, hy, hactive, Nat.not_lt.1 howed, rfl⟩)

theorem swriteOp_settles (x : List Byte) {s : State} (hs : s.Running) (hroom : s.Room) :
    Settles (swriteOp x s) := by
  rcases swriteOp_cases x s with ⟨f, h⟩ | ⟨y, hy, hstatus, hover, hcase⟩
  · rw [h]; exact .stuck f hs
  · have hrun := hs.withSender (Sender.take_ok (hs.senderOk y hy) x hover)
    rcases hcase with ⟨hdue, h⟩ | ⟨-, h⟩ <;> rw [h]
    · refine .ok _ hrun fun z hz _ => ?_
      cases hz
      exact Sender.take_room (hroom y hy hstatus) x hdue
    · exact flush_settles _ _ hrun

theorem sflushOp_settles {s : State} (hs : s.Running) (hroom : s.Room) : Settles (sflushOp s) := by
  rcases sflushOp_cases s with ⟨f, h⟩ | h | ⟨y, -, -, -, h⟩ <;> rw [h]
  · exact .stuck f hs
  · exact .ok _ hs hroom
  · exact flush_settles _ _ hs

/-! ### Every command and every step -/

theorem decodePcbOp_cases (b : Byte) (s : State) :
    (∃ p, decodePcbOp b s = .ok (.pcb p) s) ∨ decodePcbOp b s = .raised .badPcb s := by
  unfold decodePcbOp
  split
  · exact .inl ⟨_, rfl⟩
  · exact .inr rfl

theorem State.Running.delay {s : State} (hs : s.Running) (us : Nat) : (s.delay us).Running :=
  ⟨hs.busy, hs.unfaulted, hs.memSorted, hs.scratchSorted, hs.senderOk,
    traceOk_append hs.traceOk (by simp [Event.ok])⟩

theorem CommandRan.settles {s : State} {i : Instr} {r : Ran Value} (h : CommandRan s i r) (hs : s.Running)
    (hroom : s.Room) : Settles r := by
  cases h with
  | encodePcb p => exact .ok _ hs hroom
  | decodePcb b =>
    rcases decodePcbOp_cases b s with ⟨p, h⟩ | h <;> rw [h]
    · exact .ok _ hs hroom
    · exact .raised _ hs hroom
  | checksum h d => exact .ok _ hs hroom
  | waitGuard => exact .ok _ (hs.delay _) hroom
  | waitPoll => exact .ok _ (hs.delay _) hroom
  | sopen total => exact sopenOp_settles total hs
  | swrite x => exact swriteOp_settles x hs hroom
  | sflush => exact sflushOp_settles hs hroom
  | resync => exact (resyncOp_result s).settles hs hroom
  | resetNegotiate buf => exact (resetNegotiateOp_result buf s).settles hs hroom
  | receive buf => exact (beginReception_result .receive buf s).settles hs hroom

/-- Settles O51: where a step begins, the invariant gives what the operation needs, and where the operation ends or
waits, it gives the invariant. -/
theorem stepKeepsInv : Obligations.StepKeepsInv := by
  intro s t hinv h
  obtain ⟨hf, ⟨-, rfl⟩ | ⟨rest, op, i, r, hp, hran, rfl⟩ | ⟨op, rx, hp, he, rfl⟩ | ⟨op, v, hp, he, rfl⟩⟩ :=
    step_next_cases h
  · exact hinv
  · obtain ⟨hquiet, -⟩ := hinv.idleQuiet hp
    exact (hran.settles (hinv.running_accept hf op rest) (hinv.senderRoom hf (by simp [hquiet]))).inv_finish
  · exact ((receiveOnce_result (hinv.rxFits hf rx he) s).settles (hinv.running hf hp)
      (hinv.senderRoom hf (by simp [he]))).inv_finish
  · exact (readAck_settles v (hinv.running hf hp)).inv_finish

end Sys2Proof.Machine
end

section
/-! PROOFS. How an operation goes on and ends (42_receive.md section 1): all but its end is progress, which keeps the
link parameters and reads only behind guard waits; and the rules of every step that follow from it. -/

namespace Sys2Proof.Machine

/-! ### Guarded events -/

theorem guarded_of_guarded_false {us : Nat} {es : List Event} (h : guarded us false es = true) (now : Bool) :
    guarded us now es = true := by
  cases es with
  | nil => rfl
  | cons e es => cases e with
    | busRead a n r => cases h
    | busWrite a x r => exact h
    | delay t => exact h
    | seqMismatch x g => exact h

/-- A guarded list may follow a guarded list. -/
theorem guarded_append {us : Nat} {es fs : List Event} (hf : guarded us false fs = true) :
    ∀ {now : Bool}, guarded us now es = true → guarded us now (es ++ fs) = true := by
  induction es with
  | nil => exact fun {now} _ => guarded_of_guarded_false hf now
  | cons e es ih =>
    intro now he
    cases e with
    | busRead a n r =>
      obtain ⟨hnow, hes⟩ : now = true ∧ guarded us false es = true := by simpa [guarded] using he
      simpa [guarded] using ⟨hnow, ih hes⟩
    | busWrite a x r => exact ih (now := false) he
    | delay t => exact ih (now := t == us) he
    | seqMismatch x g => exact ih (now := false) he

/-- Events without a read are guarded. -/
theorem guarded_of_noRead {us : Nat} {es : List Event} (h : ∀ e ∈ es, ∀ a n r, e ≠ .busRead a n r) :
    ∀ now, guarded us now es = true := by
  induction es with
  | nil => exact fun _ => rfl
  | cons e es ih =>
    obtain ⟨he, hes⟩ := List.forall_mem_cons.1 h
    intro now
    cases e with
    | busRead a n r => exact absurd rfl (he a n r)
    | busWrite a x r => exact ih hes false
    | delay t => exact ih hes (t == us)
    | seqMismatch x g => exact ih hes false

/-- The trace of `t` is that of `s` with events in which every read directly follows a guard wait. -/
def GuardedTrace (s t : State) : Prop := ∃ evs, t.trace = s.trace ++ evs ∧ guarded s.guardUs false evs = true

/-! ### Progress -/

/-- What an operation does before its end: bus activity behind guard waits, new locals, data placed, the expected bit
or the sender changed. -/
structure Progress (s u : State) : Prop where
  param  : u.param = s.param
  txSeq  : u.txSeq = s.txSeq
  atr    : u.atr = s.atr
  phase  : u.phase = s.phase
  fault  : u.fault = s.fault
  result : u.result = s.result
  port   : u.port = s.port
  trace  : GuardedTrace s u

/-- Where the trace and what a reception may not touch is as before, there is progress. -/
theorem Progress.of_trace_eq {s u : State} (hparam : u.param = s.param) (htx : u.txSeq = s.txSeq)
    (hatr : u.atr = s.atr) (hphase : u.phase = s.phase) (hfault : u.fault = s.fault) (hresult : u.result = s.result)
    (hport : u.port = s.port) (htrace : u.trace = s.trace) : Progress s u :=
  ⟨hparam, htx, hatr, hphase, hfault, hresult, hport, [], by simp [htrace], rfl⟩

theorem Progress.refl (s : State) : Progress s s := .of_trace_eq rfl rfl rfl rfl rfl rfl rfl rfl

theorem Progress.guardUs {s u : State} (h : Progress s u) : u.guardUs = s.guardUs :=
  (State.intervals_congr h.atr h.param).2.2

theorem Progress.trans {s t u : State} (h : Progress s t) (k : Progress t u) : Progress s u where
  param := k.param.trans h.param
  txSeq := k.txSeq.trans h.txSeq
  atr := k.atr.trans h.atr
  phase := k.phase.trans h.phase
  fault := k.fault.trans h.fault
  result := k.result.trans h.result
  port := k.port.trans h.port
  trace := by
    obtain ⟨es, hes, hgs⟩ := h.trace
    obtain ⟨fs, hfs, hgf⟩ := k.trace
    rw [h.guardUs] at hgf
    exact ⟨es ++ fs, by rw [hfs, hes, List.append_assoc], guarded_append hgf hgs⟩

theorem Progress.engine (s : State) (e : Engine) : Progress s { s with engine := e } :=
  .of_trace_eq rfl rfl rfl rfl rfl rfl rfl rfl

theorem Progress.placeData (rx : Rx) (d : List Byte) (s : State) : Progress s (placeData rx d s) :=
  .of_trace_eq (by simp) (by simp) (by simp) (by simp) (by simp) (by simp) (by simp) (by simp)

theorem Progress.forgetRest (rx : Rx) (s : State) : Progress s (forgetRest rx s) :=
  .of_trace_eq (by simp) (by simp) (by simp) (by simp) (by simp) (by simp) (by simp) (by simp)

theorem Progress.withSender (s : State) (y : Option Sender) : Progress s { s with snd := y } :=
  .of_trace_eq rfl rfl rfl rfl rfl rfl rfl rfl

theorem Progress.mapSnd (s : State) (f : Sender → Sender) : Progress s (s.mapSnd f) :=
  .of_trace_eq rfl rfl rfl rfl rfl rfl rfl rfl

/-- Bus activity without a read. -/
theorem Progress.of_ext {Q : Event → Prop} {s t : State} (h : Ext Q s t)
    (hQ : ∀ e, Q e → ∀ a n r, e ≠ .busRead a n r) : Progress s t := by
  obtain ⟨es, c, f, rfl, he⟩ := h
  exact ⟨rfl, rfl, rfl, rfl, rfl, rfl, rfl, es, rfl, guarded_of_noRead (fun e h => hQ e (he e h)) false⟩

theorem Progress.delay (s : State) (us : Nat) : Progress s (s.delay us) :=
  .of_ext (Ext.emit (Q := (· = .delay us)) s rfl) (by rintro _ rfl; simp)

theorem Progress.acceptSeq (seq : Bool) (s : State) : Progress s (acceptSeq seq s) := by
  refine ⟨rfl, rfl, rfl, rfl, rfl, rfl, rfl, mismatchEvents s.rxSeq seq, rfl, guarded_of_noRead ?_ false⟩
  intro e he
  unfold mismatchEvents at he
  split at he
  · rw [List.mem_singleton.1 he]; simp
  · cases he

/-- A read behind its guard wait (20_memory.md R96). -/
theorem Progress.guardedRead {n : Nat} {s t : State} {r : ReadResult} (h : busRead n s.guardWait = (r, t)) :
    Progress s t := by
  obtain rfl : (busRead n s.guardWait).2 = t := congrArg Prod.snd h
  refine ⟨rfl, rfl, rfl, rfl, rfl, rfl, rfl,
    [.delay s.guardUs, .busRead s.param.i2cAddr n (busRead n s.guardWait).1], ?_, by simp [guarded]⟩
  simp [busRead, State.guardWait, State.answered, State.emit, State.delay, State.answer]

/-- A frame write reads nothing. -/
theorem Progress.writeFrame (p : Pcb) (d : List Byte) (s : State) : Progress s (writeFrame p d s).state := by
  have hnoRead {f : List Byte} : ∀ e, WriteEvent s f e → ∀ a n r, e ≠ .busRead a n r := by
    rintro _ (⟨r, rfl⟩ | rfl) <;> simp
  rcases writeFrame_cases p d s with ⟨-, h⟩ | ⟨-, ⟨t, h, hx⟩ | ⟨t, h, hx⟩ | ⟨e, t, -, h, hx⟩⟩ <;> rw [h]
  · exact .refl s
  all_goals exact .of_ext hx hnoRead

/-- The reads of one iteration. -/
theorem fetchFrame_progress (rx : Rx) (s : State) : Progress s (fetchFrame rx s).state := by
  have hcount := Progress.engine s (.receiving rx.counted)
  unfold fetchFrame
  split
  · exact .refl s
  · split
    · next h => exact (hcount.trans (.guardedRead h)).trans (.delay _ _)
    · next h => exact hcount.trans (.guardedRead h)
    · next h =>
      have hheader := hcount.trans (.guardedRead h)
      dsimp only
      split
      · exact hheader
      · split
        · next h' => exact hheader.trans (.guardedRead h')
        · next h' =>
          have hbody := hheader.trans (.guardedRead h')
          split <;> exact hbody

/-! ### How a reception ends -/

/-- A reception of `client` from `s` makes progress, and then waits, raises an error, faults, or concludes. -/
inductive Ending (client : Client) (s : State) : Ran Value → Prop where
  | waits {u : State} {rx : Rx} (h : Progress s u) (he : u.engine = .receiving rx) (hc : rx.client = client) :
      Ending client s (.waiting u)
  | raises (e : Err) {u : State} (h : Progress s u) : Ending client s (.raised e u)
  | faults (f : Fault) {u : State} (h : Progress s u) : Ending client s (.stuck f u)
  | concludes {rx : Rx} (out : Value) {u : State} (h : Progress s u) (hc : rx.client = client) :
      Ending client s (conclude rx out u)

theorem Ending.fails {client : Client} {s u : State} (e : Err) (rx : Rx) (h : Progress s u) :
    Ending client s (failReception e rx u) :=
  .raises e (h.trans (.forgetRest rx u))

/-- What the outcome check can do with an outcome. -/
theorem conclude_cases (rx : Rx) (out : Value) (s : State) :
    conclude rx out s = failReception .badPcb rx s ∨
    (rx.client = .receive ∧ conclude rx out s = .ok out s) ∨
    (rx.client = .resync ∧ conclude rx out s = .ok .unit s.seqReset) ∨
    (rx.client = .resetNegotiate ∧ ∃ a, conclude rx out s = .ok (.atr a) (State.seqReset { s with atr := a })) := by
  unfold conclude
  split
  · next hc => exact .inr (.inl ⟨hc, rfl⟩)
  · next hc =>
    split
    · exact .inr (.inr (.inl ⟨hc, rfl⟩))
    · exact .inl rfl
  · next hc =>
    split
    · exact .inr (.inr (.inr ⟨hc, _, rfl⟩))
    · exact .inl rfl

/-- A reception that waits has only made progress. -/
theorem Ending.of_waiting {client : Client} {s u : State} (h : Ending client s (.waiting u)) :
    Progress s u ∧ ∃ rx, u.engine = .receiving rx ∧ rx.client = client := by
  generalize hr : Ran.waiting u = r at h
  cases h with
  | waits h he hc => cases hr; exact ⟨h, _, he, hc⟩
  | raises e h => cases hr
  | faults f h => cases hr
  | @concludes rx out u h hc =>
    rcases conclude_cases rx out u with hout | ⟨-, hout⟩ | ⟨-, hout⟩ | ⟨-, a, hout⟩ <;> cases hr.trans hout

theorem Ending.of_progress {client : Client} {s t : State} {r : Ran Value} (h : Progress s t)
    (k : Ending client t r) : Ending client s r := by
  cases k with
  | waits k he hc => exact .waits (h.trans k) he hc
  | raises e k => exact .raises e (h.trans k)
  | faults f k => exact .faults f (h.trans k)
  | concludes out k hc => exact .concludes out (h.trans k) hc

theorem receiveWtx_ending (rx : Rx) (d : List Byte) (s : State) : Ending rx.client s (receiveWtx rx d s) := by
  unfold receiveWtx
  split
  · next m =>
    have hwrite := Progress.writeFrame (.s .wtxResponse) [m] s
    split
    · next h =>
      rw [h] at hwrite
      split
      · exact .waits (hwrite.trans (.engine _ _)) rfl rfl
      · exact .faults _ hwrite
    · next h => rw [h] at hwrite; exact .fails _ rx hwrite
    · next h => rw [h] at hwrite; exact .faults _ hwrite
    · next h => exact absurd h ((writeFrame_ext _ _ s).2 _)
  · exact .fails _ rx (.refl s)

theorem receiveI_ending (rx : Rx) (seq more : Bool) (d : List Byte) (s : State) :
    Ending rx.client s (receiveI rx seq more d s) := by
  refine .of_progress (.acceptSeq seq s) ?_
  have hwrite := Progress.writeFrame (.r (acceptSeq seq s).rxSeq .none) [] (acceptSeq seq s)
  unfold receiveI
  split
  · exact .concludes _ (.refl _) rfl
  · dsimp only
    split
    · next h =>
      rw [h] at hwrite
      exact .waits (hwrite.trans (.engine _ _)) rfl (Rx.chained_same _ _).1.1
    · next h => rw [h] at hwrite; exact .fails _ _ hwrite
    · next h => rw [h] at hwrite; exact .faults _ hwrite
    · next h => exact absurd h ((writeFrame_ext _ _ _).2 _)

theorem receiveFrame_ending (rx : Rx) (p : Pcb) (d : List Byte) (s : State) :
    Ending rx.client s (receiveFrame rx p d s) := by
  unfold receiveFrame
  split
  · exact .fails _ rx (.refl s)
  · refine .of_progress (.placeData rx d s) ?_
    split
    · exact receiveWtx_ending rx d _
    · exact .concludes _ (.refl _) rfl
    · exact .fails _ rx (.refl _)
    · exact receiveI_ending rx _ _ d _

theorem receiveOnce_ending (rx : Rx) (s : State) : Ending rx.client s (receiveOnce rx s) := by
  have hfetch := fetchFrame_progress rx s
  unfold receiveOnce
  split
  · next u h =>
    rcases fetchFrame_cases rx s with ⟨-, h'⟩ | ⟨-, hx, -⟩
    · cases h'.symm.trans h
    · rw [h] at hfetch hx
      obtain ⟨-, -, -, -, -, -, -, hengine, -⟩ := hx.fields
      exact .waits hfetch hengine rfl
  · next h => rw [h] at hfetch; exact .fails _ rx hfetch
  · next h => rw [h] at hfetch; exact .of_progress hfetch (receiveFrame_ending rx.counted _ _ _)

theorem driveReception_ending (k : Nat) {rx : Rx} {s : State} (he : s.engine = .receiving rx) :
    Ending rx.client s (driveReception k s) := by
  induction k generalizing rx s with
  | zero =>
    simp only [driveReception, he]
    split
    · exact receiveOnce_ending rx s
    · exact .waits (.refl s) he rfl
  | succ k ih =>
    simp only [driveReception, he]
    split
    · exact receiveOnce_ending rx s
    · split
      · exact .waits (.refl s) he rfl
      · have honce := receiveOnce_ending rx s
        split
        · next u h =>
          obtain ⟨hu, rx', heu, hc⟩ := (h ▸ honce).of_waiting
          exact .of_progress hu (hc ▸ ih heu)
        · exact honce

theorem beginReception_ending (client : Client) (buf : Buffer) (s : State) :
    Ending client s (beginReception client buf s) := by
  unfold beginReception
  split
  · exact .faults _ (.refl s)
  · next b _ =>
    exact .of_progress (.engine s _) (driveReception_ending (rx := ⟨client, buf, 0, 0, b⟩) _ rfl)

theorem exchange_ending (request : SCode) (client : Client) (buf : Buffer) (s : State) :
    Ending client s (exchange request client buf s) := by
  have hwrite := Progress.writeFrame (.s request) [] s
  unfold exchange
  split
  · next h => rw [h] at hwrite; exact .of_progress hwrite (beginReception_ending client buf _)
  · next h => rw [h] at hwrite; exact .raises _ hwrite
  · next h => rw [h] at hwrite; exact .faults _ hwrite
  · next h => exact absurd h ((writeFrame_ext _ _ _).2 _)

theorem resyncOp_ending (s : State) : Ending .resync s (resyncOp s) :=
  .of_progress (t := { s with scratch := [] }) (.of_trace_eq rfl rfl rfl rfl rfl rfl rfl rfl)
    (exchange_ending _ _ _ _)

theorem resetNegotiateOp_ending (buf : Buffer) (s : State) :
    Ending .resetNegotiate s (resetNegotiateOp buf s) :=
  exchange_ending _ _ _ _

/-- A reception keeps `tx_seq` and `atr`, and ends well only for RECEIVE, or it is one of the two link operations that
ends well and resets the counters (41_link_control.md R220, R227). -/
theorem Ending.link_cases {client : Client} {s : State} {r : Ran Value} (h : Ending client s r) :
    (r.state.txSeq = s.txSeq ∧ r.state.atr = s.atr ∧ (client ≠ .receive → ∀ v t, r ≠ .ok v t)) ∨
    (∃ v t, r = .ok v t ∧ t.txSeq = false ∧ t.rxSeq = false ∧ t.fault = s.fault ∧
      (t.atr = s.atr ∨ v = .atr t.atr)) := by
  cases h with
  | waits h he hc => exact .inl ⟨h.txSeq, h.atr, fun _ _ _ h => by cases h⟩
  | raises e h => exact .inl ⟨h.txSeq, h.atr, fun _ _ _ h => by cases h⟩
  | faults f h => exact .inl ⟨h.txSeq, h.atr, fun _ _ _ h => by cases h⟩
  | @concludes rx out u h hc =>
    rcases conclude_cases rx out u with hout | ⟨hrx, hout⟩ | ⟨-, hout⟩ | ⟨-, a, hout⟩ <;> rw [hout]
    · have hfail := h.trans (.forgetRest rx u)
      exact .inl ⟨hfail.txSeq, hfail.atr, fun _ _ _ h => by cases h⟩
    · exact .inl ⟨h.txSeq, h.atr, fun hne => absurd (hc.symm.trans hrx) hne⟩
    · exact .inr ⟨_, _, rfl, rfl, rfl, h.fault, .inl h.atr⟩
    · exact .inr ⟨_, _, rfl, rfl, rfl, h.fault, .inr rfl⟩

/-! ### What every operation carries -/

/-- What the body of every operation keeps, and its trace. -/
structure Carries (s t : State) : Prop where
  param  : t.param = s.param
  result : t.result = s.result
  port   : t.port = s.port
  trace  : GuardedTrace s t

theorem Progress.carries {s u : State} (h : Progress s u) : Carries s u := ⟨h.param, h.result, h.port, h.trace⟩

theorem Ending.carries {client : Client} {s : State} {r : Ran Value} (h : Ending client s r) :
    Carries s r.state := by
  cases h with
  | waits h he hc => exact h.carries
  | raises e h => exact h.carries
  | faults f h => exact h.carries
  | @concludes rx out u h hc =>
    rcases conclude_cases rx out u with hout | ⟨-, hout⟩ | ⟨-, hout⟩ | ⟨-, a, hout⟩ <;> rw [hout]
    · exact (h.trans (.forgetRest rx u)).carries
    all_goals exact ⟨h.param, h.result, h.port, h.trace⟩

theorem fetchAck_progress (s : State) : Progress s (fetchAck s).state := by
  unfold fetchAck
  split
  · next h => exact .guardedRead h
  · next h => split <;> exact .guardedRead h

theorem readAck_progress (v : Value) (s : State) : Progress s (readAck v s).state := by
  have hfetch := fetchAck_progress s
  unfold readAck
  split
  · next h => rw [h] at hfetch; exact hfetch
  · next h => rw [h] at hfetch; exact hfetch.trans (.mapSnd _ _)
  · next p d u h =>
    rw [h] at hfetch
    rcases receiveAck_cases v p d u with ⟨-, -, hr⟩ | ⟨-, hr⟩ <;> rw [hr] <;> exact hfetch.trans (.mapSnd _ _)

theorem awaitAck_progress (v : Value) (s : State) : Progress s (awaitAck v s).state := by
  have hwait := Progress.engine s (.awaitingAck v)
  unfold awaitAck
  split
  · exact hwait
  · exact hwait.trans (readAck_progress v _)

/-- A flush is progress once `tx_seq` is complemented. -/
theorem flush_progress (y : Sender) (v : Value) (s : State) :
    Progress { s with txSeq := !s.txSeq } (flush y v s).state := by
  have hwrite := Progress.writeFrame (.i s.txSeq y.more) (chunkBytes y s) { s with txSeq := !s.txSeq }
  unfold flush
  split
  · next h =>
    rw [h] at hwrite
    split
    · exact hwrite.trans (awaitAck_progress v _)
    · exact hwrite.trans (.mapSnd _ _)
  · next h => rw [h] at hwrite; exact hwrite.trans (.mapSnd _ _)
  · next h => rw [h] at hwrite; exact hwrite
  · next h => exact absurd h ((writeFrame_ext _ _ _).2 _)

theorem flush_carries (y : Sender) (v : Value) (s : State) : Carries s (flush y v s).state :=
  let h := flush_progress y v s
  ⟨h.param, h.result, h.port, h.trace⟩

theorem swriteOp_carries (x : List Byte) (s : State) : Carries s (swriteOp x s).state := by
  rcases swriteOp_cases x s with ⟨f, h⟩ | ⟨y, -, -, -, ⟨-, h⟩ | ⟨-, h⟩⟩ <;> rw [h]
  · exact (Progress.refl s).carries
  · exact (Progress.withSender s _).carries
  · obtain ⟨hparam, hresult, hport, htrace⟩ := flush_carries (y.take x (y.room x)) (.consumed (y.room x))
      { s with snd := some (y.take x (y.room x)) }
    exact ⟨hparam, hresult, hport, htrace⟩

theorem sflushOp_carries (s : State) : Carries s (sflushOp s).state := by
  rcases sflushOp_cases s with ⟨f, h⟩ | h | ⟨y, -, -, -, h⟩ <;> rw [h]
  · exact (Progress.refl s).carries
  · exact (Progress.refl s).carries
  · exact flush_carries _ _ s

theorem CommandRan.carries {s : State} {i : Instr} {r : Ran Value} (h : CommandRan s i r) : Carries s r.state := by
  cases h with
  | encodePcb p => exact (Progress.refl s).carries
  | decodePcb b => rcases decodePcbOp_cases b s with ⟨p, h⟩ | h <;> rw [h] <;> exact (Progress.refl s).carries
  | checksum x d => exact (Progress.refl s).carries
  | waitGuard => exact (Progress.delay s _).carries
  | waitPoll => exact (Progress.delay s _).carries
  | sopen total => exact (Progress.withSender s _).carries
  | swrite x => exact swriteOp_carries x s
  | sflush => exact sflushOp_carries s
  | resync => exact (resyncOp_ending s).carries
  | resetNegotiate buf => exact (resetNegotiateOp_ending buf s).carries
  | receive buf => exact (beginReception_ending .receive buf s).carries

/-! ### The rules of every step -/

/-- A step keeps the parameters and, inside an operation, the port; it appends guarded events. -/
theorem step_carries {s t : State} (h : step s = .next t) :
    t.param = s.param ∧ (s.phase ≠ .idle → t.port = s.port) ∧ GuardedTrace s t := by
  have hfinish {r : Ran Value} (hr : Carries s r.state) :
      (finish r).param = s.param ∧ (s.phase ≠ .idle → (finish r).port = s.port) ∧ GuardedTrace s (finish r) :=
    ⟨(finish_param r).trans hr.param, fun _ => (finish_port r).trans hr.port,
      by rw [GuardedTrace, finish_trace]; exact hr.trace⟩
  obtain ⟨-, ⟨-, rfl⟩ | ⟨rest, op, i, r, hp, hran, rfl⟩ | ⟨op, rx, -, -, rfl⟩ | ⟨op, v, -, -, rfl⟩⟩ :=
    step_next_cases h
  · exact ⟨rfl, fun _ => rfl, (Progress.refl _).trace⟩
  · obtain ⟨hparam, -, -, htrace⟩ := hran.carries
    exact ⟨(finish_param r).trans hparam, fun hbusy => absurd hp hbusy,
      by rw [GuardedTrace, finish_trace]; exact htrace⟩
  · exact hfinish (receiveOnce_ending rx s).carries
  · exact hfinish (readAck_progress v s).carries

/-- Settles O10: the phase is read before a command's body is, and no step inside an operation touches the port. -/
theorem busyBlockAcceptsNoCommand : Obligations.BusyBlockAcceptsNoCommand := by
  intro s op hp hf
  constructor
  · intro c i hd
    obtain ⟨op', body, hexec, -⟩ := exec_of_decodeCommand hd
    rw [hexec]
    simp only [command, hf, hp]
  · intro t h
    exact (step_carries h).2.1 (by simp [hp])

/-- Settles O52: the appended events are those that `step_carries` describes. -/
theorem traceIsAppendOnly : Obligations.TraceIsAppendOnly := by
  intro s t h
  obtain ⟨-, -, evs, htrace, -⟩ := step_carries h
  exact ⟨evs, htrace⟩

/-- Settles O53: no operation's body writes the parameters. -/
theorem parametersAreNeverWritten : Obligations.ParametersAreNeverWritten := fun _ _ h => (step_carries h).1

/-- Settles O57: the events are determined by the two traces, and those of `step_carries` are guarded. -/
theorem guardWaitBeforeEveryRead : Obligations.GuardWaitBeforeEveryRead := by
  intro s t evs h htrace
  obtain ⟨-, -, evs', htrace', hguarded⟩ := step_carries h
  rwa [List.append_cancel_left (htrace.symm.trans htrace')]

/-! ### The link parameters (41_link_control.md R222, R229) -/

/-- An operation keeps `atr`, or it ends well with the new record as its value and the counters reset. -/
def AtrKept (s : State) (r : Ran Value) : Prop :=
  r.state.atr = s.atr ∨ ∃ t, r = .ok (.atr t.atr) t ∧ t.txSeq = false ∧ t.rxSeq = false ∧ t.fault = s.fault

theorem Ending.atrKept {client : Client} {s : State} {r : Ran Value} (h : Ending client s r) : AtrKept s r := by
  rcases h.link_cases with ⟨-, hatr, -⟩ | ⟨v, t, rfl, htx, hrx, hfault, hatr | rfl⟩
  · exact .inl hatr
  · exact .inl hatr
  · exact .inr ⟨t, rfl, htx, hrx, hfault⟩

/-- What the sender never touches: the receive side, the link parameters and the caller's memory (10_state.md R45). -/
def ReceiveSideKept (s t : State) : Prop := t.rxSeq = s.rxSeq ∧ t.atr = s.atr ∧ t.mem = s.mem

theorem flush_receiveSide (y : Sender) (v : Value) (s : State) : ReceiveSideKept s (flush y v s).state :=
  let h := (flush_result y v s).1
  ⟨h.rxSeq, h.atr, h.mem⟩

theorem swriteOp_receiveSide (x : List Byte) (s : State) : ReceiveSideKept s (swriteOp x s).state := by
  rcases swriteOp_cases x s with ⟨f, h⟩ | ⟨y, -, -, -, ⟨-, h⟩ | ⟨-, h⟩⟩ <;> rw [h]
  · exact ⟨rfl, rfl, rfl⟩
  · exact ⟨rfl, rfl, rfl⟩
  · exact flush_receiveSide _ _ _

theorem sflushOp_receiveSide (s : State) : ReceiveSideKept s (sflushOp s).state := by
  rcases sflushOp_cases s with ⟨f, h⟩ | h | ⟨y, -, -, -, h⟩ <;> rw [h]
  · exact ⟨rfl, rfl, rfl⟩
  · exact ⟨rfl, rfl, rfl⟩
  · exact flush_receiveSide _ _ _

theorem CommandRan.atrKept {s : State} {i : Instr} {r : Ran Value} (h : CommandRan s i r) : AtrKept s r := by
  cases h with
  | encodePcb p => exact .inl rfl
  | decodePcb b => rcases decodePcbOp_cases b s with ⟨p, h⟩ | h <;> rw [h] <;> exact .inl rfl
  | checksum x d => exact .inl rfl
  | waitGuard => exact .inl rfl
  | waitPoll => exact .inl rfl
  | sopen total => exact .inl rfl
  | swrite x => exact .inl (swriteOp_receiveSide x s).2.1
  | sflush => exact .inl (sflushOp_receiveSide s).2.1
  | resync => exact (resyncOp_ending s).atrKept
  | resetNegotiate buf => exact (resetNegotiateOp_ending buf s).atrKept
  | receive buf => exact (beginReception_ending .receive buf s).atrKept

theorem AtrKept.finish {s : State} {r : Ran Value} (h : AtrKept s r) (hf : s.fault = none)
    (hne : (finish r).atr ≠ s.atr) :
    (finish r).phase = .idle ∧ (finish r).fault = none ∧ (finish r).result = some (.ok (.atr (finish r).atr)) ∧
    (finish r).txSeq = false ∧ (finish r).rxSeq = false := by
  rw [finish_atr] at hne
  obtain ⟨t, rfl, htx, hrx, hfault⟩ := h.resolve_left hne
  exact ⟨rfl, hfault.trans hf, rfl, htx, hrx⟩

/-- A link operation that ends in error keeps `tx_seq` and `atr`; one that ends well resets the counters. -/
theorem Ending.finish_link {client : Client} {s : State} {r : Ran Value} (h : Ending client s r)
    (hclient : client ≠ .receive) (hresult : s.result = none) :
    (∀ e, (finish r).result = some (.err e) → (finish r).txSeq = s.txSeq ∧ (finish r).atr = s.atr) ∧
    (∀ v, (finish r).result = some (.ok v) → (finish r).txSeq = false ∧ (finish r).rxSeq = false) := by
  have hr := h.carries.result.trans hresult
  rcases h.link_cases with ⟨htx, hatr, hok⟩ | ⟨v, t, rfl, htx, hrx, -, -⟩
  · refine ⟨fun e _ => ⟨(finish_txSeq r).trans htx, (finish_atr r).trans hatr⟩, fun v hv => ?_⟩
    cases r with
    | ok w t => exact absurd rfl (hok hclient w t)
    | raised e t => cases hv
    | stuck f t => cases hr.symm.trans hv
    | waiting t => cases hr.symm.trans hv
  · exact ⟨nofun, fun _ _ => ⟨htx, hrx⟩⟩

/-- Settles O56: `atr` is written where a RESET_NEGOTIATE concludes well, and the counters where either link operation
does. -/
theorem linkParametersChangeOnlyOnSuccess : Obligations.LinkParametersChangeOnlyOnSuccess := by
  constructor
  · intro s t h hne
    obtain ⟨hf, ⟨-, rfl⟩ | ⟨rest, op, i, r, -, hran, rfl⟩ | ⟨op, rx, -, -, rfl⟩ | ⟨op, v, -, -, rfl⟩⟩ :=
      step_next_cases h
    · exact absurd rfl hne
    · exact hran.atrKept.finish hf hne
    · exact (receiveOnce_ending rx s).atrKept.finish hf hne
    · exact absurd ((finish_atr _).trans (readAck_progress v s).atr) hne
  · rintro s t buf i (rfl | rfl) h
    · obtain ⟨-, rfl⟩ := command_next h
      exact (resyncOp_ending _).finish_link nofun rfl
    · obtain ⟨-, rfl⟩ := command_next h
      exact (resetNegotiateOp_ending buf _).finish_link nofun rfl

/-! ### A reception inside its command and frame by frame (log 9) -/

theorem run_succ {s t : State} (h : step s = .next t) (n : Nat) :
    Sys2Proof.core.run (n + 1) s = Sys2Proof.core.run n t := by
  have hcore : Sys2Proof.core.step s = .next t := h
  simp only [Host.Core.run, hcore]

/-- The loop of a reception is a run of the machine: each iteration is one step. -/
theorem driveReception_run (k : Nat) {s : State} {op : Op} {rx : Rx} (hf : s.fault = none)
    (hp : s.phase = .busy op) (he : s.engine = .receiving rx) :
    ∃ n, Sys2Proof.core.run n s = .next (finish (driveReception k s)) := by
  have honce : Sys2Proof.core.run 1 s = .next (finish (receiveOnce rx s)) := run_succ (step_receiveOnce hf hp he) 0
  have hstay : Sys2Proof.core.run 0 s = .next (finish (.waiting s)) := rfl
  induction k generalizing s rx with
  | zero =>
    simp only [driveReception, he]
    split
    · exact ⟨1, honce⟩
    · exact ⟨0, hstay⟩
  | succ k ih =>
    simp only [driveReception, he]
    split
    · exact ⟨1, honce⟩
    · split
      · exact ⟨0, hstay⟩
      · split
        · next u h =>
          obtain ⟨hu, rx', heu, -⟩ := (h ▸ receiveOnce_ending rx s : Ending rx.client s (.waiting u)).of_waiting
          have hfu := hu.fault.trans hf
          have hpu := hu.phase.trans hp
          obtain ⟨n, hn⟩ := ih hfu hpu heu (run_succ (step_receiveOnce hfu hpu heu) 0) rfl
          exact ⟨n + 1, (run_succ ((step_receiveOnce hf hp he).trans (by rw [h]; rfl)) n).trans hn⟩
        · exact ⟨1, honce⟩

/-- The block in operation `op` once its request is on the bus: the answers `rest` are left. -/
def requested (op : Op) (used rest : List BusAnswer) (evs : List Event) (s : State) : State :=
  State.accept { s with chip := rest, fresh := s.fresh + used.length, trace := s.trace ++ evs } op

section
variable {s : State} (hs : s.Ready) {used rest : List BusAnswer} {evs : List Event} (hc : s.chip = used ++ rest)
include hs hc

theorem exec_resync_requested (hw : WriteRun s (.s .resyncRequest) [] used none evs) :
    exec .resync s = .next (finish (beginReception .resync ⟨0, s.param.scratchCap⟩
      (requested .resync used rest evs { s with scratch := [] }))) := by
  have hw' : WriteRun { s.accept .resync with scratch := [] } (.s .resyncRequest) [] used none evs :=
    hw.congr rfl rfl
  rw [exec_resync_of_ready hs, resyncOp, exchange_of_writeRun hw' hc]
  rfl

theorem exec_resetNegotiate_requested (hw : WriteRun s (.s .interfaceSoftResetRequest) [] used none evs)
    (buf : Buffer) :
    exec (.resetNegotiate buf) s = .next (finish (beginReception .resetNegotiate buf
      (requested .resetNegotiate used rest evs s))) := by
  have hw' : WriteRun (s.accept .resetNegotiate) (.s .interfaceSoftResetRequest) [] used none evs :=
    hw.congr rfl rfl
  rw [exec_resetNegotiate_of_ready hs, resetNegotiateOp, exchange_of_writeRun hw' hc]
  rfl

end

/-- From its start, with its budget computed, an operation's reception is a run of the machine. -/
theorem beginReception_run {op : Op} {client : Client} {buf : Buffer} {s : State} (hf : s.fault = none)
    (hp : s.pollUs ≠ 0) :
    ∃ n, Sys2Proof.core.run n (beganReception op client buf s) =
      .next (finish (beginReception client buf (s.accept op))) := by
  have hp' : (s.accept op).pollUs ≠ 0 := hp
  rw [beginReception_at hp']
  exact driveReception_run (s := beganReception op client buf s) _ hf rfl rfl

/-- Settles O32: each iteration of the loop is a step, and the three commands enter the loop where their reception
begins. -/
theorem receptionIsItsFrameSteps : Obligations.ReceptionIsItsFrameSteps := by
  refine ⟨fun s op rx hf hp he => driveReception_run _ hf hp he, fun s hs hp buf => ⟨?receive, ?link⟩⟩
  case receive =>
    obtain ⟨n, hn⟩ := beginReception_run (op := .receive) (client := .receive) (buf := buf) hs.2 hp
    exact ⟨n, (exec_receive_of_ready hs buf).trans hn.symm⟩
  case link =>
    intro used rest evs hc
    constructor
    · intro hw
      obtain ⟨n, hn⟩ := beginReception_run (op := .resync) (client := .resync) (buf := ⟨0, s.param.scratchCap⟩)
        (s := { s with scratch := [], chip := rest, fresh := s.fresh + used.length, trace := s.trace ++ evs }) hs.2 hp
      exact ⟨n, (exec_resync_requested hs hc hw).trans hn.symm⟩
    · intro hw
      obtain ⟨n, hn⟩ := beginReception_run (op := .resetNegotiate) (client := .resetNegotiate) (buf := buf)
        (s := { s with chip := rest, fresh := s.fresh + used.length, trace := s.trace ++ evs }) hs.2 hp
      exact ⟨n, (exec_resetNegotiate_requested hs hc hw buf).trans hn.symm⟩

end Sys2Proof.Machine
end

section
/-! PROOFS. What each operation leaves alone (10_state.md section 3; 20_memory.md section 3) and the errors it can raise
(60_exceptions.md section 1). -/

namespace Sys2Proof.Machine

/-! ### The caller's memory -/

/-- A command without a caller's buffer leaves the caller's memory as it was. -/
theorem CommandRan.mem {s : State} {i : Instr} {r : Ran Value} (h : CommandRan s i r)
    (hbuf : ∀ buf, i ≠ .receive buf ∧ i ≠ .resetNegotiate buf) : r.state.mem = s.mem := by
  cases h with
  | encodePcb p => rfl
  | decodePcb b => rcases decodePcbOp_cases b s with ⟨p, h⟩ | h <;> rw [h] <;> rfl
  | checksum x d => rfl
  | waitGuard => rfl
  | waitPoll => rfl
  | sopen total => rfl
  | swrite x => exact (swriteOp_receiveSide x s).2.2
  | sflush => exact (sflushOp_receiveSide s).2.2
  | resync => exact (resyncOp_result s).1.mem rfl
  | resetNegotiate buf => exact absurd rfl (hbuf buf).2
  | receive buf => exact absurd rfl (hbuf buf).1

/-- Settles O54: a reception changes its buffer alone, and no other operation has one. -/
theorem blockWritesOnlyInsideTheBuffer : Obligations.BlockWritesOnlyInsideTheBuffer := by
  refine ⟨fun s t buf a ha => ⟨fun h => ?receive, fun h => ?resetNegotiate⟩, ?step, ?others⟩
  case receive =>
    obtain ⟨-, rfl⟩ := command_next h
    rw [finish_mem]
    exact (beginReception_result .receive buf _).1.outside a ha
  case resetNegotiate =>
    obtain ⟨-, rfl⟩ := command_next h
    rw [finish_mem]
    exact (resetNegotiateOp_result buf _).1.outside a ha
  case step =>
    intro s t op rx a hinv hp he ha h
    obtain ⟨hf, -⟩ := step_cases h
    rw [step_receiveOnce hf hp he] at h
    cases h
    have hrec := (receiveOnce_result (hinv.rxFits hf rx he) s).1
    rw [finish_mem]
    rcases ha with hresync | ha
    · rw [hrec.mem hresync]
    · exact hrec.outside a ha
  case others =>
    intro s t c i hd hbuf h
    obtain ⟨-, op, r, hran, rfl⟩ := exec_next_commandRan hd h
    rw [finish_mem]
    exact hran.mem hbuf

theorem exec_waitGuard_next {s t : State} (h : exec .waitGuard s = .next t) :
    t = finish (.ok .unit (s.accept .waitGuard).guardWait) :=
  (command_next (body := fun u => .ok .unit u.guardWait) h).2

theorem exec_waitPoll_next {s t : State} (h : exec .waitPoll s = .next t) :
    t = finish (.ok .unit (s.accept .waitPoll).pollWait) :=
  (command_next (body := fun u => .ok .unit u.pollWait) h).2

/-! ### The send side and the receive side -/

/-- What the codec and the waits leave alone: the trace is all they may change. -/
theorem exec_local_keeps {s t : State} {i : Instr}
    (hi : i = .waitGuard ∨ i = .waitPoll ∨ (∃ p, i = .encodePcb p) ∨ (∃ b, i = .decodePcb b) ∨
      ∃ x d, i = .checksum x d) (h : exec i s = .next t) :
    t.txSeq = s.txSeq ∧ t.rxSeq = s.rxSeq ∧ t.snd = s.snd ∧ t.atr = s.atr ∧ t.mem = s.mem := by
  rcases hi with rfl | rfl | ⟨p, rfl⟩ | ⟨b, rfl⟩ | ⟨x, d, rfl⟩
  · rw [exec_waitGuard_next h]; exact ⟨rfl, rfl, rfl, rfl, rfl⟩
  · rw [exec_waitPoll_next h]; exact ⟨rfl, rfl, rfl, rfl, rfl⟩
  · obtain ⟨-, rfl⟩ := command_next h
    exact ⟨rfl, rfl, rfl, rfl, rfl⟩
  · obtain ⟨-, rfl⟩ := command_next h
    rcases decodePcbOp_cases b (s.accept .decodePcb) with ⟨p, h⟩ | h <;> rw [h] <;> exact ⟨rfl, rfl, rfl, rfl, rfl⟩
  · obtain ⟨-, rfl⟩ := command_next h
    exact ⟨rfl, rfl, rfl, rfl, rfl⟩

theorem exec_sender_keeps {s t : State} {i : Instr} (hi : i = .sflush ∨ (∃ n, i = .sopen n) ∨ ∃ x, i = .swrite x)
    (h : exec i s = .next t) : ReceiveSideKept s t := by
  have hfinish {r : Ran Value} (hr : ReceiveSideKept s r.state) : ReceiveSideKept s (finish r) := by
    simpa [ReceiveSideKept] using hr
  rcases hi with rfl | ⟨n, rfl⟩ | ⟨x, rfl⟩ <;> obtain ⟨-, rfl⟩ := command_next h
  · exact hfinish (sflushOp_receiveSide (s.accept .sflush))
  · exact ⟨rfl, rfl, rfl⟩
  · exact hfinish (swriteOp_receiveSide x (s.accept .swrite))

/-- Settles O55: what a reception changes, and what the sender's operations change, have no field of the other side. -/
theorem directionsAreIndependent : Obligations.DirectionsAreIndependent := by
  refine fun s t => ⟨fun buf h => ?receive, fun i hi h => exec_sender_keeps hi h,
    fun i hi h => exec_local_keeps hi h, fun i hi h => ?link⟩
  case receive =>
    obtain ⟨-, rfl⟩ := command_next h
    have hrec := (beginReception_result .receive buf (s.accept .receive)).1
    exact ⟨(finish_txSeq _).trans (hrec.txSeq rfl), (finish_snd _).trans hrec.snd,
      (finish_atr _).trans (hrec.atr nofun)⟩
  case link =>
    rcases hi with rfl | ⟨buf, rfl⟩ <;> obtain ⟨-, rfl⟩ := command_next h
    · exact (finish_snd _).trans (resyncOp_result (s.accept .resync)).1.snd
    · exact (finish_snd _).trans (resetNegotiateOp_result buf (s.accept .resetNegotiate)).1.snd

/-! ### Errors (60_exceptions.md R344) -/

/-- The error an operation leaves is the one it raised, if it began without a result. -/
theorem raised_of_finish_result {r : Ran Value} {e : Err} (h : (finish r).result = some (.err e))
    (hr : r.state.result = none) : ∃ t, r = .raised e t := by
  cases r with
  | ok v t => cases h
  | raised e' t => cases h; exact ⟨t, rfl⟩
  | stuck f t => cases hr.symm.trans h
  | waiting t => cases hr.symm.trans h

theorem checkAck_ne_receptionBuffer (P : Params) (expected : Pcb) (nad pcb len lo hi : Byte) :
    checkAck P expected nad pcb len lo hi ≠ some .receptionBuffer := by
  unfold checkAck
  split
  · simp
  · split
    · simp
    · split
      · simp
      · split
        · simp
        · split <;> simp

theorem fetchAck_ne_receptionBuffer (s t : State) : fetchAck s ≠ .raised .receptionBuffer t := by
  unfold fetchAck
  split
  · simp
  · split
    · next e h =>
      intro hraised
      cases hraised
      exact checkAck_ne_receptionBuffer _ _ _ _ _ _ _ h
    · simp

theorem readAck_ne_receptionBuffer (v : Value) (s t : State) : readAck v s ≠ .raised .receptionBuffer t := by
  unfold readAck
  split
  · simp
  · next e u h =>
    intro hraised
    cases hraised
    exact fetchAck_ne_receptionBuffer s u h
  · next p d u _ => rcases receiveAck_cases v p d u with ⟨-, -, hr⟩ | ⟨-, hr⟩ <;> simp [hr, failFlush]

theorem awaitAck_ne_receptionBuffer (v : Value) (s t : State) : awaitAck v s ≠ .raised .receptionBuffer t := by
  unfold awaitAck
  split
  · simp
  · exact readAck_ne_receptionBuffer v _ t

theorem writeFrame_ne_receptionBuffer (p : Pcb) (d : List Byte) (s t : State) :
    writeFrame p d s ≠ .raised .receptionBuffer t := by
  rcases writeFrame_cases p d s with ⟨-, h⟩ | ⟨-, ⟨u, h, -⟩ | ⟨u, h, -⟩ | ⟨e, u, -, h, -⟩⟩ <;> simp [h]

/-- A flush raises errors of the write, of the read, and of the acknowledgment's checks alone. -/
theorem flush_ne_receptionBuffer (y : Sender) (v : Value) (s t : State) : flush y v s ≠ .raised .receptionBuffer t := by
  unfold flush
  split
  · split
    · exact awaitAck_ne_receptionBuffer v _ t
    · simp
  · next e u h =>
    intro hraised
    cases hraised
    exact writeFrame_ne_receptionBuffer _ _ _ u h
  · simp
  · simp

theorem swriteOp_ne_receptionBuffer (x : List Byte) (s t : State) : swriteOp x s ≠ .raised .receptionBuffer t := by
  rcases swriteOp_cases x s with ⟨f, h⟩ | ⟨y, -, -, -, ⟨-, h⟩ | ⟨-, h⟩⟩ <;> rw [h]
  · simp
  · simp
  · exact flush_ne_receptionBuffer _ _ _ t

theorem sflushOp_ne_receptionBuffer (s t : State) : sflushOp s ≠ .raised .receptionBuffer t := by
  rcases sflushOp_cases s with ⟨f, h⟩ | h | ⟨y, -, -, -, h⟩ <;> rw [h]
  · simp
  · simp
  · exact flush_ne_receptionBuffer _ _ _ t

/-- Settles O42: five commands end well or not at all, DECODE_PCB raises one error, and a flush never
ReceptionBuffer. -/
theorem errorsOfEachOperation : Obligations.ErrorsOfEachOperation := by
  intro s t e hresult
  refine ⟨fun p h => ?_, fun x d h => ?_, fun h => ?waitGuard, fun h => ?waitPoll, fun n h => ?_, fun b h => ?decodePcb,
    fun x h => ?swrite, fun h => ?sflush⟩
  case waitGuard => rw [exec_waitGuard_next h] at hresult; cases hresult
  case waitPoll => rw [exec_waitPoll_next h] at hresult; cases hresult
  case decodePcb =>
    obtain ⟨-, rfl⟩ := command_next h
    rcases decodePcbOp_cases b (s.accept .decodePcb) with ⟨p, h⟩ | h <;> rw [h] at hresult <;> cases hresult
    rfl
  case swrite =>
    obtain ⟨-, rfl⟩ := command_next h
    obtain ⟨u, hu⟩ := raised_of_finish_result hresult (swriteOp_carries x (s.accept .swrite)).result
    rintro rfl
    exact swriteOp_ne_receptionBuffer x _ u hu
  case sflush =>
    obtain ⟨-, rfl⟩ := command_next h
    obtain ⟨u, hu⟩ := raised_of_finish_result hresult (sflushOp_carries (s.accept .sflush)).result
    rintro rfl
    exact sflushOp_ne_receptionBuffer _ u hu
  all_goals
    obtain ⟨-, rfl⟩ := command_next h
    cases hresult

end Sys2Proof.Machine
end

section
/-! PROOFS. The outcome checks of RESYNC and RESET_NEGOTIATE (41_link_control.md sections 3 and 5), and the commands
whose reception is one frame at hand. -/

namespace Sys2Proof.Machine

/-! ### The outcome check -/

section
variable {rx : Rx} (hc : rx.client = .resync)
include hc

theorem conclude_resync_response (w : Nat) (s : State) :
    conclude rx (.sBlock .resyncResponse w 0) s = .ok .unit s.seqReset := by
  simp [conclude, hc]

/-- RESYNC rejects every other outcome (41_link_control.md R220). -/
theorem conclude_resync_rejected {out : Value} (hout : ∀ w, out ≠ .sBlock .resyncResponse w 0) (s : State) :
    conclude rx out s = failReception .badPcb rx s := by
  simp only [conclude, hc]

/-- A frame that RESYNC rejects leaves no trace of its data: the buffer is RESYNC's own. -/
theorem finish_failReception_resync {d : List Byte} (hfit : rx.fits d.length = true) (e : Err) (s : State) :
    finish (failReception e rx (placeData rx d s)) = endState s (.err e) := by
  obtain ⟨m, hm, hend⟩ := finish_failReception_placed hfit e s
  simp only [Rx.Failed, hc] at hm
  rw [hend, hm]

theorem placeData_resync (d : List Byte) (s : State) :
    placeData rx d s = { s with scratch := Memory.writeBytes s.scratch rx.written d } := by
  simp only [placeData, hc]

end

section
variable {rx : Rx} (hc : rx.client = .resetNegotiate)
include hc

/-- RESET_NEGOTIATE parses the bytes where the response's data lie (41_link_control.md R228). -/
theorem conclude_resetNegotiate_response {d : List Byte} {w : Nat} {s : State}
    (hd : ∀ k, (h : k < d.length) → Memory.read s.mem (rx.buf.base + w + k) = some d[k]) :
    conclude rx (.sBlock .interfaceSoftResetResponse w d.length) s =
      .ok (.atr ((parseAtr d).getD s.param.atrDefault))
        (State.seqReset { s with atr := (parseAtr d).getD s.param.atrDefault }) := by
  simp only [conclude, hc, Memory.readBytes_eq_of_reads _ _ _ _ hd]

/-- RESET_NEGOTIATE rejects every other outcome (41_link_control.md R227). -/
theorem conclude_resetNegotiate_rejected {out : Value} (hout : ∀ w n, out ≠ .sBlock .interfaceSoftResetResponse w n)
    (s : State) : conclude rx out s = failReception .badPcb rx s := by
  simp only [conclude, hc]

end

/-- A final I-block, which both link operations reject after it is taken in (41_link_control.md R220, R227). -/
theorem finish_receiveI_rejected {rx : Rx} (hc : rx.client ≠ .receive) (seq : Bool) (d : List Byte) (s : State) :
    ∃ m, Rx.Failed { rx with written := rx.written + d.length } s.mem m ∧
      finish (receiveI rx seq false d s) = endState
        { s with mem := m, rxSeq := !s.rxSeq, trace := s.trace ++ mismatchEvent s.rxSeq seq } (.err .badPcb) := by
  have hrun : receiveI rx seq false d s =
      failReception .badPcb { rx with written := rx.written + d.length } (acceptSeq seq s) := by
    simp only [receiveI, conclude, if_true]
    cases h : rx.client
    · exact absurd h hc
    · rfl
    · rfl
  obtain ⟨m, hm, hend⟩ := finish_failReception { rx with written := rx.written + d.length } (acceptSeq seq s)
  refine ⟨m, hm, ?_⟩
  rw [hrun, hend, acceptSeq, mismatchEvents_eq]

/-- The response of RESET_NEGOTIATE, taken in by its reception. -/
theorem receiveFrame_reset_response {rx : Rx} (hc : rx.client = .resetNegotiate) {d : List Byte}
    (hfit : rx.fits d.length = true) (s : State) :
    ∃ m, Stored s.mem m (rx.buf.base + rx.written) d ∧
      receiveFrame rx (.s .interfaceSoftResetResponse) d s = .ok (.atr ((parseAtr d).getD s.param.atrDefault))
        (State.seqReset { s with mem := m, atr := (parseAtr d).getD s.param.atrDefault }) := by
  obtain ⟨m, hm, hplace⟩ := placeData_mem (rx := rx) (by simp [hc]) d s
  refine ⟨m, hm, ?_⟩
  rw [receiveFrame_of_supervisory hfit (by decide), hplace,
    conclude_resetNegotiate_response (s := { s with mem := m }) hc hm.1]

/-- Settles O16: the outcome check accepts the empty response alone, and an error leaves the caller's memory alone. -/
theorem resyncAcceptsOnlyEmptyResponse : Obligations.ResyncAcceptsOnlyEmptyResponse := by
  intro s rx d hf he hc hlen hcap
  have hfit : rx.fits d.length = true := (rx.fits_iff _).2 ⟨hlen, hcap⟩
  have hfit0 : rx.fits ([] : List Byte).length = true :=
    (rx.fits_iff _).2 ⟨Nat.zero_le _, Nat.le_trans (Nat.add_le_add_left (Nat.zero_le _) _) hcap⟩
  have hrejected {code : SCode} (hwtx : code ≠ .wtxRequest)
      (hout : ∀ w, Value.sBlock code rx.written d.length ≠ .sBlock .resyncResponse w 0) :
      exec (Instr.ofFrame (.s code) d) s = .next (endState s (.err .badPcb)) := by
    rw [exec_ofFrame_receiving hf he, receiveFrame_of_supervisory hfit hwtx, conclude_resync_rejected hc hout,
      finish_failReception_resync hc hfit]
  refine ⟨?response, fun hd => hrejected (code := .resyncResponse) (by decide) fun w h => ?data,
    fun code hcode hwtx => hrejected hwtx fun w h => ?code, fun seq => ?iBlock⟩
  case response =>
    have hexec : exec (.sResyncResponse []) s = .next (finish (receiveFrame rx (.s .resyncResponse) [] s)) :=
      exec_ofFrame_receiving hf he (.s .resyncResponse) []
    rw [hexec, receiveFrame_of_supervisory hfit0 (by decide), List.length_nil, conclude_resync_response hc,
      placeData_resync hc]
    rfl
  case data =>
    injection h with _ _ hlength
    exact hd (List.eq_nil_of_length_eq_zero hlength)
  case code =>
    injection h with h
    exact hcode h
  case iBlock =>
    have hexec : exec (.iBlock seq false d) s = .next (finish (receiveFrame rx (.i seq false) d s)) :=
      exec_ofFrame_receiving hf he (.i seq false) d
    obtain ⟨m, hm, hend⟩ := finish_receiveI_rejected (rx := rx) (by simp [hc]) seq d (placeData rx d s)
    have hmem : m = s.mem := by simpa only [Rx.Failed, hc, placeData_resync hc] using hm
    rw [hexec, receiveFrame_of_iBlock hfit, hend, hmem, placeData_resync hc]
    rfl

/-- Settles O18: the outcome check reads back the response's data, and an error forgets the buffer from the offset its
frame left on. -/
theorem resetNegotiateAcceptsOnlyItsResponse : Obligations.ResetNegotiateAcceptsOnlyItsResponse := by
  intro s rx d hf he hc hlen hcap
  have hfit : rx.fits d.length = true := (rx.fits_iff _).2 ⟨hlen, hcap⟩
  refine ⟨?response, fun code hcode hwtx => ?other, fun seq => ?iBlock⟩
  case response =>
    obtain ⟨m, hm, hrun⟩ := receiveFrame_reset_response hc hfit s
    refine ⟨m, hm, (exec_ofFrame_receiving hf he (.s .interfaceSoftResetResponse) d).trans ?_⟩
    rw [hrun]
    rfl
  case other =>
    obtain ⟨m, hm, hend⟩ := finish_failReception_placed hfit .badPcb s
    refine ⟨m, by simpa only [Rx.Failed, hc] using hm, ?_⟩
    have hout (w n : Nat) : Value.sBlock code rx.written d.length ≠ .sBlock .interfaceSoftResetResponse w n :=
      fun h => hcode (by injection h)
    rw [exec_ofFrame_receiving hf he, receiveFrame_of_supervisory hfit hwtx,
      conclude_resetNegotiate_rejected hc hout, hend]
  case iBlock =>
    obtain ⟨m, hm, hplace⟩ := placeData_mem (rx := rx) (by simp [hc]) d s
    obtain ⟨m', hm', hend⟩ := finish_receiveI_rejected (rx := rx) (by simp [hc]) seq d { s with mem := m }
    refine ⟨m, hm, m', by simpa only [Rx.Failed, hc, Nat.add_assoc] using hm', ?_⟩
    have hexec : exec (.iBlock seq false d) s = .next (finish (receiveFrame rx (.i seq false) d s)) :=
      exec_ofFrame_receiving hf he (.i seq false) d
    rw [hexec, receiveFrame_of_iBlock hfit, hplace, hend]

/-! ### A frame at hand -/

/-- The two reads of a frame: its header, and its data with the checksum. -/
theorem ReadsFrame.split {P : Params} {p : Pcb} {d h t : List Byte} (hr : ReadsFrame P p d h t) :
    h = [P.nadC2H, encodePcbByte p, BitVec.ofNat 8 d.length] ∧
    t = d ++ le16 (crc16X25 ([P.nadC2H, encodePcbByte p, BitVec.ofNat 8 d.length] ++ d)) := by
  obtain ⟨hh, hbytes⟩ := hr
  rw [frameBytes, List.append_assoc] at hbytes
  exact List.append_inj hbytes hh

/-- The block once reception `rx` has read the frame `h`, `t`. -/
def frameFetched (rx : Rx) (h t : List Byte) (rest : List BusAnswer) (s : State) : State :=
  { s with engine := .receiving rx.counted, chip := rest, fresh := s.fresh + 2,
           trace := s.trace ++ frameReadEvents s h t }

/-- An iteration whose frame is at hand and fits runs that frame. -/
theorem receiveOnce_frame {s : State} {rx : Rx} {p : Pcb} {d h t : List Byte} {rest : List BusAnswer}
    (hP : s.param.AdoptedMasks) (hr : ReadsFrame s.param p d h t) (hb : rx.i < rx.budget)
    (hfit : rx.fits d.length = true) (hc : s.chip = .ok h :: .ok t :: rest) :
    receiveOnce rx s = receiveFrame rx.counted p d (frameFetched rx h t rest s) := by
  have hd : d.length ≤ 254 := ((rx.fits_iff _).1 hfit).1
  have hdecode : decodeFrame s.param (h ++ t) = .ok (p, d) := by
    rw [hr.2, decodeFrame_frameBytes hP p hd]
  obtain ⟨hh, ht⟩ := hr.split
  have hlen : (h.getD 2 0).toNat = d.length := by
    rw [hh, List.getD_cons_succ, List.getD_cons_succ, List.getD_cons_zero, BitVec.toNat_ofNat]
    omega
  have htlen : t.length = (h.getD 2 0).toNat + 2 := by
    rw [hlen, ht, List.length_append, le16_length]
  rw [receiveOnce, fetchFrame_at hb hr.1 (hlen ▸ hfit) htlen hdecode hc]
  rfl

/-- The locals at the start of a reception with budget `b`, and after `n` iterations. -/
def Rx.start (client : Client) (buf : Buffer) (b n : Nat) : Rx := ⟨client, buf, 0, n, b⟩

theorem Rx.start_fits {client : Client} {buf : Buffer} {b n k : Nat} (hk : k ≤ 254) (hcap : k ≤ buf.capacity) :
    (Rx.start client buf b n).fits k = true :=
  (Rx.fits_iff _ _).2 ⟨hk, (Nat.zero_add k).symm ▸ hcap⟩

/-- A reception whose first frame is at hand and ends it well. -/
theorem beginReception_frame {s u : State} {client : Client} {buf : Buffer} {p : Pcb} {d h t : List Byte}
    {rest : List BusAnswer} {v : Value} {b : Nat} (hP : s.param.AdoptedMasks) (hp : s.pollUs ≠ 0)
    (hb : s.bwtUs / s.pollUs + 1 = b) (hr : ReadsFrame s.param p d h t) (hd : d.length ≤ 254)
    (hcap : d.length ≤ buf.capacity) (hc : s.chip = .ok h :: .ok t :: rest)
    (hrun : receiveFrame (Rx.start client buf b 1) p d (frameFetched (Rx.start client buf b 0) h t rest s) = .ok v u) :
    beginReception client buf s = .ok v u := by
  have hlen : s.chip.length = (rest.length + 1) + 1 := by rw [hc]; rfl
  have hpos : 0 < b := hb ▸ Nat.succ_pos _
  have honce : receiveOnce (Rx.start client buf b 0) { s with engine := .receiving (Rx.start client buf b 0) } =
      .ok v u :=
    (receiveOnce_frame (s := { s with engine := .receiving (Rx.start client buf b 0) }) hP hr hpos
      (Rx.start_fits hd hcap) hc).trans hrun
  rw [beginReception_at hp, hlen, hb]
  exact driveReception_end rfl hpos (by simp [hc]) honce (by simp)

/-- A request whose write fails ends its operation before the reception begins. -/
theorem exchange_of_failed_writeRun {s : State} {request : SCode} {used rest : List BusAnswer} {e : Err}
    {evs : List Event} (h : WriteRun s (.s request) [] used (some e) evs) (hc : s.chip = used ++ rest)
    (client : Client) (buf : Buffer) :
    exchange request client buf s = .raised e
      { s with chip := rest, fresh := s.fresh + used.length, trace := s.trace ++ evs } := by
  rw [exchange, writeFrame_of_failed_writeRun h (Nat.zero_le _) hc]

/-- Settles O15: the request's write is followed by a reception of one frame, which the outcome check accepts. -/
theorem resyncSucceeds : Obligations.ResyncSucceeds := by
  intro s used rest evs hs hc
  refine ⟨fun h t left hP hp hw hr hrest => ?written, fun e hw => ?failed⟩
  case failed =>
    have hw' : WriteRun { s.accept .resync with scratch := [] } (.s .resyncRequest) [] used (some e) evs :=
      hw.congr rfl rfl
    rw [exec_resync_of_ready hs, resyncOp, exchange_of_failed_writeRun hw' hc]
    rfl
  case written =>
    have hrun (c b : Nat) (u : State) : receiveFrame (Rx.start .resync ⟨0, c⟩ b 1) (.s .resyncResponse) [] u =
        .ok .unit (placeData (Rx.start .resync ⟨0, c⟩ b 1) [] u).seqReset := by
      rw [receiveFrame_of_supervisory (Rx.start_fits (Nat.zero_le _) (Nat.zero_le _)) (by decide)]
      exact conclude_resync_response rfl _ _
    rw [exec_resync_requested hs hc hw,
      beginReception_frame (s := requested .resync used rest evs { s with scratch := [] }) hP hp rfl hr
        (Nat.zero_le _) (Nat.zero_le _) hrest (hrun _ _ _)]
    rfl

/-- Settles O17: the same with the response's data in the caller's buffer. -/
theorem resetNegotiateWritesAtr : Obligations.ResetNegotiateWritesAtr := by
  intro s buf used rest evs hs hc
  refine ⟨fun d h t left hP hp hd hcap hw hr hrest => ?written, fun e hw => ?failed⟩
  case failed =>
    have hw' : WriteRun (s.accept .resetNegotiate) (.s .interfaceSoftResetRequest) [] used (some e) evs :=
      hw.congr rfl rfl
    rw [exec_resetNegotiate_of_ready hs, resetNegotiateOp, exchange_of_failed_writeRun hw' hc]
    rfl
  case written =>
    obtain ⟨b, hb⟩ : ∃ b, s.bwtUs / s.pollUs + 1 = b := ⟨_, rfl⟩
    obtain ⟨m, hm, hrun⟩ := receiveFrame_reset_response (rx := Rx.start .resetNegotiate buf b 1) rfl
      (Rx.start_fits hd hcap)
      (frameFetched (Rx.start .resetNegotiate buf b 0) h t left (requested .resetNegotiate used rest evs s))
    refine ⟨m, hm, ?_⟩
    rw [exec_resetNegotiate_requested hs hc hw,
      beginReception_frame (s := requested .resetNegotiate used rest evs s) hP hp hb hr hd hcap hrest hrun]
    rfl

end Sys2Proof.Machine
end

section
/-! PROOFS. The frames after which a reception goes on (42_receive.md sections 4 and 6): a chained I-block with its
acknowledgment and a WTX request with its echo, each over any run of the block's own write. -/

namespace Sys2Proof.Machine

/-! ### The memory a reception writes -/

section
variable (rx : Rx) (m : Memory) (s : State)

@[simp] theorem Rx.withMemory_param : (rx.withMemory m s).param = s.param := by unfold withMemory; split <;> rfl
@[simp] theorem Rx.withMemory_atr : (rx.withMemory m s).atr = s.atr := by unfold withMemory; split <;> rfl
@[simp] theorem Rx.withMemory_rxSeq : (rx.withMemory m s).rxSeq = s.rxSeq := by unfold withMemory; split <;> rfl
@[simp] theorem Rx.withMemory_chip : (rx.withMemory m s).chip = s.chip := by unfold withMemory; split <;> rfl

end

/-! ### The chained I-block -/

/-- The locals after a chained I-block, as the statements write them (42_receive.md R264). -/
theorem Rx.chained_eq (rx : Rx) (P : Params) :
    rx.chained P = { rx with i := if P.chainResetsBudget then 0 else rx.i } := by
  unfold Rx.chained
  split <;> rfl

section
variable {rx : Rx} {s : State} {seq : Bool} {d : List Byte} {used rest : List BusAnswer} {evs : List Event}
  (hc : s.chip = used ++ rest)
include hc

/-- The acknowledgment is written with the new expected bit, and the reception goes on. -/
theorem receiveI_chained (hw : WriteRun s (.r (!s.rxSeq) .none) [] used none evs) :
    receiveI rx seq true d s = .waiting
      { s with rxSeq := !s.rxSeq, chip := rest, fresh := s.fresh + used.length,
               engine := .receiving
                 { rx with written := rx.written + d.length, i := if s.param.chainResetsBudget then 0 else rx.i },
               trace := s.trace ++ mismatchEvent s.rxSeq seq ++ evs } := by
  have hw' : WriteRun (acceptSeq seq s) (.r (!s.rxSeq) .none) [] used none evs := hw.congr rfl rfl
  have hwrite := writeFrame_of_writeRun (rest := rest) hw' (Nat.zero_le _) hc
  simp only [receiveI, Bool.true_eq_false, if_false, acceptSeq_rxSeq, hwrite, Rx.chained_eq]
  rw [acceptSeq, mismatchEvents_eq]

/-- The write of the acknowledgment fails, after the block was accepted (70_reset_and_hazards.md R392). -/
theorem receiveI_chained_failed {e : Err} (hw : WriteRun s (.r (!s.rxSeq) .none) [] used (some e) evs) :
    receiveI rx seq true d s = failReception e { rx with written := rx.written + d.length }
      { s with rxSeq := !s.rxSeq, chip := rest, fresh := s.fresh + used.length,
               trace := s.trace ++ mismatchEvent s.rxSeq seq ++ evs } := by
  have hw' : WriteRun (acceptSeq seq s) (.r (!s.rxSeq) .none) [] used (some e) evs := hw.congr rfl rfl
  have hwrite := writeFrame_of_failed_writeRun (rest := rest) hw' (Nat.zero_le _) hc
  simp only [receiveI, Bool.true_eq_false, if_false, acceptSeq_rxSeq, hwrite]
  rw [acceptSeq, mismatchEvents_eq]

end

/-- Settles O23: the data is placed and the bit accepted before the acknowledgment's write, whatever that meets. -/
theorem chainedBlockIsAcknowledged : Obligations.ChainedBlockIsAcknowledged := by
  intro s rx seq d used rest evs hf he hlen hcap hc
  obtain ⟨m, hm, hplace⟩ := placeData_stored rx d s
  have hexec : exec (.iBlock seq true d) s = .next (finish (receiveI rx seq true d (rx.withMemory m s))) := by
    rw [← hplace, ← receiveFrame_of_iBlock ((rx.fits_iff _).2 ⟨hlen, hcap⟩)]
    exact exec_ofFrame_receiving hf he (.i seq true) d
  have hrun {o : Option Err} (hw : WriteRun s (.r (!s.rxSeq) .none) [] used o evs) :
      WriteRun (rx.withMemory m s) (.r (!(rx.withMemory m s).rxSeq) .none) [] used o evs := by
    rw [rx.withMemory_rxSeq]
    exact hw.congr (rx.withMemory_param m s) (rx.withMemory_atr m s)
  have hc' : (rx.withMemory m s).chip = used ++ rest := (rx.withMemory_chip m s).trans hc
  refine ⟨fun hw => ⟨m, hm, ?sent⟩, fun e hw => ?failed⟩
  case sent =>
    rw [hexec, receiveI_chained hc' (hrun hw)]
    unfold Rx.withMemory
    cases rx.client <;> rfl
  case failed =>
    obtain ⟨m', hm', hend⟩ := finish_failReception { rx with written := rx.written + d.length }
      { rx.withMemory m s with
        rxSeq := !(rx.withMemory m s).rxSeq, chip := rest, fresh := (rx.withMemory m s).fresh + used.length,
        trace := (rx.withMemory m s).trace ++ mismatchEvent (rx.withMemory m s).rxSeq seq ++ evs }
    refine ⟨m, m', hm, hm', ?_⟩
    rw [hexec, receiveI_chained_failed hc' (hrun hw), hend]
    unfold Rx.withMemory
    cases rx.client <;> rfl

/-! ### The WTX request -/

theorem receiveFrame_of_wtx {rx : Rx} {d : List Byte} (hfit : rx.fits d.length = true) (s : State) :
    receiveFrame rx (.s .wtxRequest) d s = receiveWtx rx d (placeData rx d s) := by
  simp [receiveFrame, hfit]

/-- A request of another length than 1 is not echoed (42_receive.md R261). -/
theorem receiveWtx_badLength {d : List Byte} (hd : d.length ≠ 1) (rx : Rx) (s : State) :
    receiveWtx rx d s = failReception .badPcb rx s := by
  unfold receiveWtx
  split
  · exact absurd rfl hd
  · rfl

section
variable {rx : Rx} {s : State} {w : Byte} {used rest : List BusAnswer} {evs : List Event}
  (hc : s.chip = used ++ rest)
include hc

/-- The echo is written and the budget rescaled (42_receive.md R260). -/
theorem receiveWtx_echoed (hp : s.pollUs ≠ 0) (hw : WriteRun s (.s .wtxResponse) [w] used none evs) :
    receiveWtx rx [w] s = .waiting
      { s with chip := rest, fresh := s.fresh + used.length,
               engine := .receiving { rx with budget := s.bwtUs * w.toNat / s.pollUs + 1, i := 0 },
               trace := s.trace ++ evs } := by
  have hbudget : State.wtxBudget
      { s with chip := rest, fresh := s.fresh + used.length, trace := s.trace ++ evs } w =
      some (s.bwtUs * w.toNat / s.pollUs + 1) := if_neg hp
  simp only [receiveWtx, writeFrame_of_writeRun hw (Nat.le_of_ble_eq_true rfl) hc, hbudget]

theorem receiveWtx_failed {e : Err} (hw : WriteRun s (.s .wtxResponse) [w] used (some e) evs) :
    receiveWtx rx [w] s = failReception e rx
      { s with chip := rest, fresh := s.fresh + used.length, trace := s.trace ++ evs } := by
  simp only [receiveWtx, writeFrame_of_failed_writeRun hw (Nat.le_of_ble_eq_true rfl) hc]

end

/-- Settles O24: the multiplier is placed like any frame's data, and the echo's write decides how the handler ends. -/
theorem wtxRequestIsEchoed : Obligations.WtxRequestIsEchoed := by
  intro s rx hf he hp
  have hexec {d : List Byte} (hfit : rx.fits d.length = true) :
      exec (.sWtxRequest d) s = .next (finish (receiveWtx rx d (placeData rx d s))) := by
    rw [← receiveFrame_of_wtx hfit]
    exact exec_ofFrame_receiving hf he (.s .wtxRequest) d
  refine ⟨fun w used rest evs hcap hc => ⟨fun hw => ?echoed, fun e hw => ?failed⟩, fun d hlen hcap hd => ?badLength⟩
  case echoed =>
    have hfit : rx.fits [w].length = true := (rx.fits_iff _).2 ⟨Nat.le_of_ble_eq_true rfl, hcap⟩
    obtain ⟨m, hm, hplace⟩ := placeData_stored rx [w] s
    have hp' : (rx.withMemory m s).pollUs ≠ 0 := by
      rw [(State.intervals_congr (rx.withMemory_atr m s) (rx.withMemory_param m s)).2.1]; exact hp
    have hw' : WriteRun (rx.withMemory m s) (.s .wtxResponse) [w] used none evs :=
      hw.congr (rx.withMemory_param m s) (rx.withMemory_atr m s)
    refine ⟨m, hm, ?_⟩
    rw [hexec hfit, hplace, receiveWtx_echoed ((rx.withMemory_chip m s).trans hc) hp' hw']
    unfold Rx.withMemory
    cases rx.client <;> rfl
  case failed =>
    have hfit : rx.fits [w].length = true := (rx.fits_iff _).2 ⟨Nat.le_of_ble_eq_true rfl, hcap⟩
    have hc' : (placeData rx [w] s).chip = used ++ rest := (placeData_chip s rx [w]).trans hc
    have hw' : WriteRun (placeData rx [w] s) (.s .wtxResponse) [w] used (some e) evs :=
      hw.congr (placeData_param s rx [w]) (placeData_atr s rx [w])
    obtain ⟨m, hm, hforget⟩ := forgetRest_placed (d := [w]) hcap (s := s)
      (u := { placeData rx [w] s with
        chip := rest, fresh := (placeData rx [w] s).fresh + used.length,
        trace := (placeData rx [w] s).trace ++ evs }) rfl
    refine ⟨m, hm, ?_⟩
    rw [hexec hfit, receiveWtx_failed hc' hw', failReception, hforget, placeData_fields]
    rfl
  case badLength =>
    have hfit : rx.fits d.length = true := (rx.fits_iff _).2 ⟨hlen, hcap⟩
    obtain ⟨m, hm, hend⟩ := finish_failReception_placed hfit .badPcb s
    exact ⟨m, hm, by rw [hexec hfit, receiveWtx_badLength hd, hend]⟩

end Sys2Proof.Machine
end

section
/-! PROOFS. RECEIVE with every frame at hand (42_receive.md sections 1 and 7): one iteration for each kind of frame that
it meets, the loop over a chain of acknowledged blocks, and the loop around a WTX request. -/

namespace Sys2Proof.Machine

/-! ### One iteration of RECEIVE -/

section
variable {s : State} {rx : Rx} {d h t : List Byte} (hP : s.param.AdoptedMasks) (hcl : rx.client = .receive)
  (hb : rx.i < rx.budget) (hlen : d.length ≤ 254) (hcap : rx.written + d.length ≤ rx.buf.capacity)
include hP hcl hb hlen hcap

/-- The frame of an iteration, with its data placed, ready for the case of its PCB value. -/
theorem receiveOnce_placed {p : Pcb} {rest : List BusAnswer} (hr : ReadsFrame s.param p d h t)
    (hc : s.chip = .ok h :: .ok t :: rest) :
    rx.counted.fits d.length = true ∧ ∃ m, Stored s.mem m (rx.buf.base + rx.written) d ∧
      receiveOnce rx s = receiveFrame rx.counted p d (frameFetched rx h t rest s) ∧
      placeData rx.counted d (frameFetched rx h t rest s) = { frameFetched rx h t rest s with mem := m } := by
  obtain ⟨m, hm, hplace⟩ := placeData_mem (rx := rx.counted) (by simp [Rx.counted, hcl]) d
    (frameFetched rx h t rest s)
  have hfit : rx.fits d.length = true := (rx.fits_iff _).2 ⟨hlen, hcap⟩
  exact ⟨hfit, m, hm, receiveOnce_frame hP hr hb hfit hc, hplace⟩

/-- A final I-block ends RECEIVE with the total. -/
theorem receiveOnce_final {seq : Bool} {rest : List BusAnswer} (hr : ReadsFrame s.param (.i seq false) d h t)
    (hc : s.chip = .ok h :: .ok t :: rest) :
    ∃ m, Stored s.mem m (rx.buf.base + rx.written) d ∧
      receiveOnce rx s = .ok (.data (rx.written + d.length))
        { frameFetched rx h t rest s with
          rxSeq := !s.rxSeq, mem := m, trace := s.trace ++ frameReadEvents s h t ++ mismatchEvent s.rxSeq seq } := by
  obtain ⟨hfit, m, hm, honce, hplace⟩ := receiveOnce_placed hP hcl hb hlen hcap hr hc
  refine ⟨m, hm, ?_⟩
  rw [honce, receiveFrame_of_iBlock hfit, hplace, receiveI_final_of_receive (rx := rx.counted) hcl,
    acceptSeq, mismatchEvents_eq]
  rfl

/-- A chained I-block is acknowledged, and RECEIVE goes on. -/
theorem receiveOnce_chained {seq : Bool} {used rest : List BusAnswer} {evs : List Event}
    (hr : ReadsFrame s.param (.i seq true) d h t) (hw : WriteRun s (.r (!s.rxSeq) .none) [] used none evs)
    (hc : s.chip = .ok h :: .ok t :: (used ++ rest)) :
    ∃ m, Stored s.mem m (rx.buf.base + rx.written) d ∧
      receiveOnce rx s = .waiting
        { s with rxSeq := !s.rxSeq, mem := m, chip := rest, fresh := s.fresh + 2 + used.length,
                 engine := .receiving
                   { rx with written := rx.written + d.length
                             i := if s.param.chainResetsBudget then 0 else rx.i + 1 },
                 trace := s.trace ++ frameReadEvents s h t ++ mismatchEvent s.rxSeq seq ++ evs } := by
  obtain ⟨hfit, m, hm, honce, hplace⟩ := receiveOnce_placed hP hcl hb hlen hcap hr hc
  have hw' : WriteRun { frameFetched rx h t (used ++ rest) s with mem := m }
      (.r (!(frameFetched rx h t (used ++ rest) s).rxSeq) .none) [] used none evs := hw.congr rfl rfl
  refine ⟨m, hm, ?_⟩
  rw [honce, receiveFrame_of_iBlock hfit, hplace, receiveI_chained rfl hw']
  rfl

end

/-- A WTX request is echoed, and RECEIVE goes on with the budget rescaled. -/
theorem receiveOnce_wtx {s : State} {rx : Rx} {w : Byte} {h t : List Byte} {used rest : List BusAnswer}
    {evs : List Event} (hP : s.param.AdoptedMasks) (hcl : rx.client = .receive) (hb : rx.i < rx.budget)
    (hp : s.pollUs ≠ 0) (hcap : rx.written + 1 ≤ rx.buf.capacity) (hr : ReadsFrame s.param (.s .wtxRequest) [w] h t)
    (hw : WriteRun s (.s .wtxResponse) [w] used none evs) (hc : s.chip = .ok h :: .ok t :: (used ++ rest)) :
    ∃ m, Stored s.mem m (rx.buf.base + rx.written) [w] ∧
      receiveOnce rx s = .waiting
        { s with mem := m, chip := rest, fresh := s.fresh + 2 + used.length,
                 engine := .receiving { rx with budget := s.bwtUs * w.toNat / s.pollUs + 1, i := 0 },
                 trace := s.trace ++ frameReadEvents s h t ++ evs } := by
  have hlen : [w].length ≤ 254 := Nat.le_of_ble_eq_true rfl
  obtain ⟨hfit, m, hm, honce, hplace⟩ := receiveOnce_placed hP hcl hb hlen hcap hr hc
  have hw' : WriteRun { frameFetched rx h t (used ++ rest) s with mem := m } (.s .wtxResponse) [w] used none evs :=
    hw.congr rfl rfl
  refine ⟨m, hm, ?_⟩
  rw [honce, receiveFrame_of_wtx hfit, hplace,
    receiveWtx_echoed (s := { frameFetched rx h t (used ++ rest) s with mem := m }) rfl hp hw']
  rfl

/-- The loop whose next frame is a final I-block. -/
theorem driveReception_final {s : State} {rx : Rx} {seq : Bool} {d h t : List Byte} {rest : List BusAnswer} {k : Nat}
    (he : s.engine = .receiving rx) (hP : s.param.AdoptedMasks) (hcl : rx.client = .receive) (hb : rx.i < rx.budget)
    (hlen : d.length ≤ 254) (hcap : rx.written + d.length ≤ rx.buf.capacity)
    (hr : ReadsFrame s.param (.i seq false) d h t) (hc : s.chip = .ok h :: .ok t :: rest) :
    ∃ m, Stored s.mem m (rx.buf.base + rx.written) d ∧
      driveReception (k + 1) s = .ok (.data (rx.written + d.length))
        { frameFetched rx h t rest s with
          rxSeq := !s.rxSeq, mem := m, trace := s.trace ++ frameReadEvents s h t ++ mismatchEvent s.rxSeq seq } := by
  obtain ⟨m, hm, honce⟩ := receiveOnce_final hP hcl hb hlen hcap hr hc
  exact ⟨m, hm, driveReception_end he hb (by simp [hc]) honce (by simp)⟩

/-- RECEIVE on a ready block is its loop from the base budget on. -/
theorem exec_receive_drive {s : State} (hs : s.Ready) (hp : s.pollUs ≠ 0) (buf : Buffer) :
    exec (.receive buf) s =
      .next (finish (driveReception s.chip.length (beganReception .receive .receive buf s))) := by
  rw [exec_receive_of_ready hs, beginReception_at (s := s.accept .receive) hp]
  rfl

/-- Settles O20: the first iteration is the last. -/
theorem receiveReturnsAFinalBlock : Obligations.ReceiveReturnsAFinalBlock := by
  intro s buf seq d h t rest hs hP hp hd hcap hr hc
  have hlen : s.chip.length = (rest.length + 1) + 1 := by rw [hc]; rfl
  obtain ⟨m, hm, hdrive⟩ := driveReception_final (k := rest.length + 1) (s := beganReception .receive .receive buf s)
    rfl hP rfl (Nat.succ_pos _) hd ((Nat.zero_add d.length).symm ▸ hcap) hr hc
  refine ⟨m, hm, ?_⟩
  rw [exec_receive_drive hs hp, hlen, hdrive, Nat.zero_add]
  rfl

/-! ### A chain of acknowledged blocks (42_receive.md R269) -/

theorem Stored.append {m m1 m2 : Memory} {a : Nat} {d e : List Byte} (h : Stored m m1 a d)
    (h' : Stored m1 m2 (a + d.length) e) : Stored m m2 a (d ++ e) := by
  obtain ⟨hin, hout⟩ := h
  obtain ⟨hin', hout'⟩ := h'
  constructor
  · intro k hk
    rw [List.length_append] at hk
    by_cases hkd : k < d.length
    · rw [hout' _ (by omega), hin k hkd, List.getElem_append_left hkd]
    · have hread := hin' (k - d.length) (by omega)
      rw [show a + d.length + (k - d.length) = a + k by omega] at hread
      rw [hread, List.getElem_append_right (by omega)]
  · intro x hx
    rw [List.length_append] at hx
    rw [hout' x (by omega), hout x (by omega)]

/-- Nothing stored. -/
theorem Stored.nil (m : Memory) (a : Nat) : Stored m m a [] := ⟨nofun, fun _ _ => rfl⟩

/-- The block after the chain `xs`, with `rx'` as locals and `m` as memory. -/
def afterChain (rx' : Rx) (m : Memory) (xs : List ChipBlock) (rest : List BusAnswer) (s : State) : State :=
  { s with rxSeq := s.rxSeq ^^ decide (xs.length % 2 = 1), mem := m, chip := rest,
           fresh := s.fresh + (chainAnswers xs).length, engine := .receiving rx',
           trace := s.trace ++ chainEvents s s.rxSeq xs }

/-- The events of a chain depend on the parameters and the ATR alone. -/
theorem chainEvents_congr {s t : State} (hp : t.param = s.param) (ha : t.atr = s.atr) (r : Bool)
    (xs : List ChipBlock) : chainEvents t r xs = chainEvents s r xs := by
  induction xs generalizing r with
  | nil => rfl
  | cons x xs ih =>
    simp [chainEvents, ih, frameReadEvents, writeNackEvents, writeEvent, State.guardUs, State.pollUs, hp, ha]

/-- The expected bit after one block more. -/
theorem not_xor_odd (r : Bool) (n : Nat) : (!(r ^^ decide (n % 2 = 1))) = (r ^^ decide ((n + 1) % 2 = 1)) := by
  rcases Nat.mod_two_eq_zero_or_one n with h | h <;> cases r <;> simp [Nat.add_mod, h]

theorem chainAnswers_cons (x : ChipBlock) (xs : List ChipBlock) :
    chainAnswers (x :: xs) = chainAnswers [x] ++ chainAnswers xs := by
  simp [chainAnswers]

theorem chainEvents_cons (s : State) (r : Bool) (x : ChipBlock) (xs : List ChipBlock) :
    chainEvents s r (x :: xs) = chainEvents s r [x] ++ chainEvents s (!r) xs := by
  simp [chainEvents]

theorem afterChain_cons (rx rx' : Rx) (m m' : Memory) (x : ChipBlock) (xs : List ChipBlock)
    (left rest : List BusAnswer) (s : State) :
    afterChain rx' m' xs rest (afterChain rx m [x] left s) = afterChain rx' m' (x :: xs) rest s := by
  have hbit : (afterChain rx m [x] left s).rxSeq = !s.rxSeq := Bool.xor_true _
  have hevents := chainEvents_congr (s := s) (t := afterChain rx m [x] left s) rfl rfl (!s.rxSeq) xs
  rw [afterChain, hbit, hevents]
  simp only [afterChain, State.mk.injEq, true_and]
  refine ⟨?bit, ?trace, ?fresh⟩
  case bit => rw [Bool.not_xor, not_xor_odd, List.length_cons]
  case trace => rw [chainEvents_cons s s.rxSeq x xs, List.append_assoc]
  case fresh => rw [chainAnswers_cons x xs, List.length_append, Nat.add_assoc]

/-- One block of a chain, as an iteration of the loop. -/
theorem receiveOnce_chipBlock {s : State} {rx : Rx} {x : ChipBlock} {rest : List BusAnswer}
    (hP : s.param.AdoptedMasks) (hcl : rx.client = .receive) (hb : rx.i < rx.budget) (hx : x.Sent s.param)
    (hcap : rx.written + x.data.length ≤ rx.buf.capacity) (hc : s.chip = chainAnswers [x] ++ rest) :
    ∃ m, Stored s.mem m (rx.buf.base + rx.written) x.data ∧
      receiveOnce rx s = .waiting (afterChain
        { rx with written := rx.written + x.data.length, i := if s.param.chainResetsBudget then 0 else rx.i + 1 }
        m [x] rest s) := by
  obtain ⟨hlen, hr, hnacked⟩ := hx
  have hc' : s.chip = .ok x.header :: .ok x.body :: (nacks x.nacked ++ [.ok x.ack] ++ rest) := by
    simpa [chainAnswers] using hc
  obtain ⟨m, hm, honce⟩ := receiveOnce_chained hP hcl hb hlen hcap hr (.sent x.nacked x.ack hnacked) hc'
  refine ⟨m, hm, ?_⟩
  rw [honce, afterChain]
  simp [chainEvents, chainAnswers, nacks, Nat.add_assoc, Nat.add_comm 2]

/-- The loop over a chain: one iteration a block. Every block finds budget left, either because the counter is reset
or because the budget exceeds the chain (42_receive.md R264). -/
theorem driveReception_chain (xs : List ChipBlock) (k : Nat) {s : State} {rx : Rx} {rest : List BusAnswer}
    (hP : s.param.AdoptedMasks) (he : s.engine = .receiving rx) (hcl : rx.client = .receive) (hb : rx.i < rx.budget)
    (hbudget : s.param.chainResetsBudget = true ∨ rx.i + xs.length < rx.budget) (hxs : ∀ x ∈ xs, x.Sent s.param)
    (hcap : rx.written + (chainData xs).length ≤ rx.buf.capacity) (hc : s.chip = chainAnswers xs ++ rest) :
    ∃ m n, Stored s.mem m (rx.buf.base + rx.written) (chainData xs) ∧ n < rx.budget ∧
      driveReception (xs.length + k) s = driveReception k
        (afterChain { rx with written := rx.written + (chainData xs).length, i := n } m xs rest s) := by
  induction xs generalizing s rx with
  | nil =>
    have hrest : s.chip = rest := hc
    refine ⟨s.mem, rx.i, .nil _ _, hb, ?_⟩
    simp [afterChain, chainData, chainEvents, chainAnswers, ← hrest, ← he]
  | cons x xs ih =>
    obtain ⟨hx, hxs⟩ := List.forall_mem_cons.1 hxs
    have hdata : chainData (x :: xs) = x.data ++ chainData xs := rfl
    rw [hdata, List.length_append, ← Nat.add_assoc] at hcap
    rw [List.length_cons] at hbudget
    have hc' : s.chip = chainAnswers [x] ++ (chainAnswers xs ++ rest) := by
      rw [hc]; simp [chainAnswers]
    obtain ⟨m1, hm1, honce⟩ := receiveOnce_chipBlock hP hcl hb hx (by omega) hc'
    obtain ⟨j, hj⟩ : ∃ j, (if s.param.chainResetsBudget then 0 else rx.i + 1) = j := ⟨_, rfl⟩
    have hbj : j < rx.budget ∧ (s.param.chainResetsBudget = true ∨ j + xs.length < rx.budget) := by
      rw [← hj]
      rcases hbudget with hreset | hbudget
      · simp only [hreset, if_true, true_or, and_true]; omega
      · split <;> omega
    rw [hj] at honce
    obtain ⟨m, n, hm, hn, hdrive⟩ := ih (s := afterChain { rx with written := rx.written + x.data.length, i := j }
      m1 [x] (chainAnswers xs ++ rest) s) hP rfl hcl hbj.1 hbj.2 hxs hcap rfl
    refine ⟨m, n, ?_, hn, ?_⟩
    · rw [hdata]
      exact hm1.append (by rw [Nat.add_assoc]; exact hm)
    · rw [List.length_cons, Nat.add_right_comm, driveReception_wait he hb (by simp [hc', chainAnswers]) honce, hdrive,
        afterChain_cons, hdata, List.length_append, Nat.add_assoc]

theorem length_le_chainAnswers (xs : List ChipBlock) : xs.length ≤ (chainAnswers xs).length := by
  induction xs with
  | nil => exact Nat.le_refl _
  | cons x xs ih =>
    have hone : 1 ≤ (chainAnswers [x]).length := by simp [chainAnswers]
    rw [chainAnswers_cons, List.length_append, List.length_cons]
    omega

/-- Settles O30: the loop over the chain, then the iteration of the final block. -/
theorem chainReassembles : Obligations.ChainReassembles := by
  intro s buf xs seq d h t rest hs hP hp hbudget hxs hd hr hcap hc
  obtain ⟨k, hk⟩ := Nat.exists_eq_add_of_le (length_le_chainAnswers xs)
  have hlen : s.chip.length = xs.length + (k + rest.length + 1 + 1) := by
    rw [hc, List.length_append, hk]; simp; omega
  obtain ⟨m1, n, hm1, hn, hchain⟩ := driveReception_chain xs (k + rest.length + 1 + 1)
    (s := beganReception .receive .receive buf s) hP rfl rfl (Nat.succ_pos _)
    (hbudget.imp id fun h => by simpa using Nat.lt_succ_of_le h) hxs (by simp; omega) hc
  simp only [Nat.zero_add] at hchain
  obtain ⟨m, hm, hfinal⟩ := driveReception_final (k := k + rest.length + 1) (rx := ⟨.receive, buf, _, n, _⟩)
    (s := afterChain ⟨.receive, buf, (chainData xs).length, n, s.bwtUs / s.pollUs + 1⟩ m1 xs (.ok h :: .ok t :: rest)
      (beganReception .receive .receive buf s)) rfl hP rfl hn hd hcap hr rfl
  have hevents := chainEvents_congr (s := s) (t := beganReception .receive .receive buf s) rfl rfl s.rxSeq xs
  refine ⟨m, hm1.append hm, ?_⟩
  rw [exec_receive_drive hs hp, hlen, hchain, hfinal, ← not_xor_odd, ← Nat.add_assoc, ← hevents]
  rfl

/-! ### A WTX request between NACKs (42_receive.md R270) -/

/-- RECEIVE at the start of a rescaled budget `b`, with memory `m`, the answers `left` at hand, and the index and the
trace it has reached. -/
def rescaledReception (buf : Buffer) (b : Nat) (m : Memory) (left : List BusAnswer) (index : Nat) (before : List Event)
    (s : State) : State :=
  { beganReception .receive .receive buf s with
    mem := m, chip := left, fresh := index, trace := before, engine := .receiving ⟨.receive, buf, 0, 0, b⟩ }

/-- The loop up to the echo of the WTX request: `a` NACKs within the base budget, then the request. -/
theorem driveReception_rescaled {s : State} {buf : Buffer} {a : Nat} {w : Byte} {h t : List Byte}
    {used left : List BusAnswer} {evs : List Event} (hP : s.param.AdoptedMasks) (hp : s.pollUs ≠ 0)
    (hw : WriteRun s (.s .wtxResponse) [w] used none evs) (hcap : 1 ≤ buf.capacity) (ha : a ≤ s.bwtUs / s.pollUs)
    (hr : ReadsFrame s.param (.s .wtxRequest) [w] h t)
    (hc : s.chip = nacks a ++ .ok h :: .ok t :: (used ++ left)) :
    ∃ m, Stored s.mem m buf.base [w] ∧ ∀ k,
      driveReception (a + (k + 1)) (beganReception .receive .receive buf s) =
        driveReception k (rescaledReception buf (s.bwtUs * w.toNat / s.pollUs + 1) m left
          (s.fresh + a + 2 + used.length)
          (s.trace ++ (List.replicate a (headerNackEvents s)).flatten ++ frameReadEvents s h t ++ evs) s) := by
  obtain ⟨b, hb⟩ : ∃ b, s.bwtUs / s.pollUs + 1 = b := ⟨_, rfl⟩
  have hab : 0 + a < b := by omega
  have hw' : WriteRun (silentReads (Rx.plus ⟨.receive, buf, 0, 0, b⟩ a) a (.ok h :: .ok t :: (used ++ left))
      (beganReception .receive .receive buf s)) (.s .wtxResponse) [w] used none evs := hw.congr rfl rfl
  obtain ⟨m, hm, honce⟩ := receiveOnce_wtx (rx := Rx.plus ⟨.receive, buf, 0, 0, b⟩ a)
    (s := silentReads (Rx.plus ⟨.receive, buf, 0, 0, b⟩ a) a (.ok h :: .ok t :: (used ++ left))
      (beganReception .receive .receive buf s)) hP rfl hab hp ((Nat.zero_add 1).symm ▸ hcap) hr hw' rfl
  refine ⟨m, hm, fun k => ?_⟩
  have hnacks := driveReception_nacks a (k + 1) (beganReception .receive .receive buf s) ⟨.receive, buf, 0, 0, b⟩ _
    (by rw [← hb]; rfl) hab.le hc
  exact hnacks.trans (driveReception_wait rfl hab (by simp) honce)

/-- The loop whose next header reads meet `n` NACKs within the budget, before a final I-block. -/
theorem driveReception_nacks_final {u : State} {rx : Rx} {n : Nat} {seq : Bool} {d h t : List Byte}
    {rest : List BusAnswer} (he : u.engine = .receiving rx) (hP : u.param.AdoptedMasks) (hcl : rx.client = .receive)
    (hb : rx.i + n < rx.budget) (hlen : d.length ≤ 254) (hcap : rx.written + d.length ≤ rx.buf.capacity)
    (hr : ReadsFrame u.param (.i seq false) d h t) (hc : u.chip = nacks n ++ .ok h :: .ok t :: rest) :
    ∃ m, Stored u.mem m (rx.buf.base + rx.written) d ∧ ∀ k,
      driveReception (n + (k + 1)) u = .ok (.data (rx.written + d.length))
        { u with rxSeq := !u.rxSeq, mem := m, engine := .receiving (rx.plus n).counted, chip := rest,
                 fresh := u.fresh + n + 2,
                 trace := u.trace ++ (List.replicate n (headerNackEvents u)).flatten ++ frameReadEvents u h t ++
                   mismatchEvent u.rxSeq seq } := by
  obtain ⟨m, hm, honce⟩ := receiveOnce_final (rx := rx.plus n)
    (s := silentReads (rx.plus n) n (.ok h :: .ok t :: rest) u) hP hcl hb hlen hcap hr rfl
  refine ⟨m, hm, fun k => ?_⟩
  exact (driveReception_nacks n (k + 1) u rx _ he hb.le hc).trans
    (driveReception_end rfl hb (by simp) honce (by simp))

/-- Settles O31: from the rescaled budget on, the NACKs leave an iteration for the final block, or use the budget up. -/
theorem wtxRescalesTheBudget : Obligations.WtxRescalesTheBudget := by
  intro s buf a n w seq d h1 t1 h2 t2 used rest evs hs hP hp hw hcap1 hd hcap ha hr1 hr2 hc budget before
  obtain ⟨m1, hm1, hdrive⟩ := driveReception_rescaled hP hp hw hcap1 ha hr1 hc
  obtain ⟨b, hb⟩ : ∃ b, budget = b := ⟨_, rfl⟩
  have hlen : s.chip.length = a + ((n + (used.length + rest.length + 2 + 1)) + 1) := by
    rw [hc]; simp [nacks]; omega
  have hexec := exec_receive_drive hs hp buf
  rw [hlen, hdrive, show s.bwtUs * w.toNat / s.pollUs + 1 = b from hb] at hexec
  rw [hb]
  constructor
  case left =>
    intro hn
    obtain ⟨m, hm, hfinal⟩ := driveReception_nacks_final (rx := ⟨.receive, buf, 0, 0, b⟩)
      (u := rescaledReception buf b m1 (nacks n ++ .ok h2 :: .ok t2 :: rest) (s.fresh + a + 2 + used.length) before s)
      rfl hP rfl (by simp only; omega) hd ((Nat.zero_add d.length).symm ▸ hcap) hr2 rfl
    have hfresh : s.fresh + (a + used.length + n + 4) = s.fresh + a + 2 + used.length + n + 2 := by omega
    refine ⟨m1, m, hm1, hm, ?_⟩
    rw [hexec, hfinal, hfresh, Nat.zero_add]
    rfl
  case right =>
    intro hn
    obtain ⟨j, rfl⟩ := Nat.exists_eq_add_of_le hn
    have hanswers : nacks (b + j) ++ .ok h2 :: .ok t2 :: rest = nacks b ++ (nacks j ++ .ok h2 :: .ok t2 :: rest) := by
      rw [nacks, List.replicate_add, List.append_assoc]; rfl
    have htimeout := driveReception_timeout (rx := ⟨.receive, buf, 0, 0, b⟩)
      (s := rescaledReception buf b m1 (nacks (b + j) ++ .ok h2 :: .ok t2 :: rest) (s.fresh + a + 2 + used.length)
        before s) rfl (Nat.zero_add b) hanswers (j + (used.length + rest.length + 2 + 1))
    obtain ⟨m, hm, hend⟩ := finish_failReception (Rx.plus ⟨.receive, buf, 0, 0, b⟩ b)
      (silentReads (Rx.plus ⟨.receive, buf, 0, 0, b⟩ b) b (nacks j ++ .ok h2 :: .ok t2 :: rest)
        (rescaledReception buf b m1 (nacks (b + j) ++ .ok h2 :: .ok t2 :: rest) (s.fresh + a + 2 + used.length)
          before s))
    have hfresh : s.fresh + (a + used.length + b + 2) = s.fresh + a + 2 + used.length + b := by omega
    refine ⟨m, fun x hx => (hm.kept x (.inr hx)).trans (hm1.2 x ?_), ?_⟩
    · exact hx.imp id fun h => by rw [List.length_singleton]; omega
    · rw [hexec, Nat.add_assoc b j, htimeout, hend, Nat.add_sub_cancel_left, hfresh]
      rfl

end Sys2Proof.Machine
end

section
/-! PROOFS. The frame sender on a ready block (43_frame_sender.md sections 2 and 3): the flush over any run of its
write, the acknowledgment at hand, refused or absent, and SWRITE and SFLUSH that buffer or flush. -/

namespace Sys2Proof.Machine

/-! ### The flush (43_frame_sender.md R306) -/

/-- The block once a flush has complemented `tx_seq` and its write has used the answers `used`. -/
def flushed (used rest : List BusAnswer) (evs : List Event) (s : State) : State :=
  { s with txSeq := !s.txSeq, chip := rest, fresh := s.fresh + used.length, trace := s.trace ++ evs }

section
variable {y : Sender} {s : State} {held : List Byte} {used rest : List BusAnswer} {evs : List Event}
  (hheld : y.Holds held) (hlen : held.length ≤ Config.maxData) (hc : s.chip = used ++ rest)
include hheld hlen hc

/-- The final chunk is sent with M = 0 and awaits nothing (43_frame_sender.md R308). -/
theorem flush_final (hmore : y.more = false) (hw : WriteRun s (.i s.txSeq false) held used none evs) (v : Value) :
    flush y v s = .ok v (doneChunk (flushed used rest evs s)) := by
  have hw' : WriteRun { s with txSeq := !s.txSeq } (.i s.txSeq false) held used none evs := hw.congr rfl rfl
  rw [flush, hmore, hheld.chunkBytes, writeFrame_of_writeRun hw' hlen hc]
  rfl

/-- Any other chunk is sent with M = 1 and awaits its acknowledgment. -/
theorem flush_more (hmore : y.more = true) (hw : WriteRun s (.i s.txSeq true) held used none evs) (v : Value) :
    flush y v s = awaitAck v (flushed used rest evs s) := by
  have hw' : WriteRun { s with txSeq := !s.txSeq } (.i s.txSeq true) held used none evs := hw.congr rfl rfl
  rw [flush, hmore, hheld.chunkBytes, writeFrame_of_writeRun hw' hlen hc]
  rfl

/-- A write that fails fails the sender (43_frame_sender.md R320). -/
theorem flush_failed {e : Err} (hw : WriteRun s (.i s.txSeq y.more) held used (some e) evs) (v : Value) :
    flush y v s = failFlush e (flushed used rest evs s) := by
  have hw' : WriteRun { s with txSeq := !s.txSeq } (.i s.txSeq y.more) held used (some e) evs := hw.congr rfl rfl
  rw [flush, hheld.chunkBytes, writeFrame_of_failed_writeRun hw' hlen hc]
  rfl

end

/-! ### The acknowledgment wait (43_frame_sender.md R307) -/

theorem awaitAck_absent {s : State} (hc : s.chip = []) (v : Value) :
    awaitAck v s = .waiting { s with engine := .awaitingAck v } :=
  if_pos hc

theorem awaitAck_accepted {s : State} {rest : List BusAnswer} (hP : s.param.AdoptedMasks)
    (hc : s.chip = .ok (frameBytes s.param.nadC2H (.r s.txSeq .none) []) :: rest) (v : Value) :
    awaitAck v s = .ok v (emptyChunk
      (guardedRead 5 (.ok (frameBytes s.param.nadC2H (.r s.txSeq .none) [])) rest
        { s with engine := .awaitingAck v })) := by
  rw [awaitAck, if_neg (by simp [hc]), readAck, fetchAck_frameBytes (s := { s with engine := .awaitingAck v }) hP hc]
  exact if_pos ⟨rfl, rfl⟩

theorem awaitAck_refused {s : State} {a : BusAnswer} {e : Err} {rest : List BusAnswer}
    (hr : AckRefused s.param s.txSeq a e) (hc : s.chip = a :: rest) (v : Value) :
    awaitAck v s = failFlush e
      { s with engine := .awaitingAck v, chip := rest, fresh := s.fresh + 1,
               trace := s.trace ++ ackReadEvents s a } := by
  rw [awaitAck, if_neg (by simp [hc]), readAck, fetchAck_refused (s := { s with engine := .awaitingAck v }) hr hc]
  rfl

/-! ### SWRITE -/

theorem Sender.due_iff (y : Sender) (x : List Byte) (n : Nat) :
    (y.take x n).due n = true ↔ 0 < n ∧ (y.chunkLen + n = 254 ∨ y.written + n = y.total) := by
  simp [Sender.due, Sender.take, Config.maxData]

theorem Sender.Holds.room_eq {y : Sender} {held : List Byte} (h : y.Holds held) (x : List Byte) :
    y.room x = min x.length (254 - held.length) := by
  rw [Sender.room, h.1]
  rfl

/-- Every byte that is due for a flush fits a frame. -/
theorem take_length_le {held x : List Byte} {n : Nat} (hn : n ≤ 254 - held.length) (hpos : 0 < n) :
    (held ++ x.take n).length ≤ Config.maxData := by
  rw [List.length_append, List.length_take, Config.maxData]
  omega

/-- The block inside SWRITE, with `z` as its sender. -/
def inSwrite (z : Sender) (s : State) : State := { s.accept .swrite with snd := some z }

section
variable {s : State} {y : Sender} {x held : List Byte} {n : Nat} (hs : s.Ready) (hsnd : s.snd = some y)
  (hheld : y.Holds held) (hstatus : y.status ≠ .failed) (hn : min x.length (254 - held.length) = n)
  (hle : y.written + n ≤ y.total)
include hs hsnd hheld hstatus hn hle

/-- SWRITE takes the bytes in, and flushes where that is due (43_frame_sender.md R313). -/
theorem exec_swrite_take :
    exec (.swrite x) s = .next (finish (if (y.take x n).due n = true
      then flush (y.take x n) (.consumed n) (inSwrite (y.take x n) s)
      else .ok (.consumed n) (inSwrite (y.take x n) s))) := by
  have hroom : y.room x = n := (hheld.room_eq x).trans hn
  have hsnd' : (s.accept .swrite).snd = some y := hsnd
  have hover : ¬ y.total < y.written + n := Nat.not_lt.2 hle
  simp only [exec_swrite_of_ready hs, swriteOp, hsnd', hroom, if_neg hstatus, if_neg hover]
  rfl

theorem exec_swrite_flush (hpos : 0 < n) (hdue : held.length + n = 254 ∨ y.written + n = y.total) :
    exec (.swrite x) s =
      .next (finish (flush (y.take x n) (.consumed n) (inSwrite (y.take x n) s))) := by
  have hdue' : (y.take x n).due n = true := (y.due_iff x n).2 ⟨hpos, by rw [hheld.1]; exact hdue⟩
  rw [exec_swrite_take hs hsnd hheld hstatus hn hle, if_pos hdue']

end

/-- Settles O34: no flush is due, so the sender that took the bytes is all that changes. -/
theorem swriteBuffersWithoutBusActivity : Obligations.SwriteBuffersWithoutBusActivity := by
  intro s y x held hs hsnd hheld hstatus n hle hnot
  have hnx : n ≤ x.length := Nat.min_le_left _ _
  have hdue : ¬ (y.take x n).due n = true := by
    rw [y.due_iff, hheld.1]
    omega
  refine ⟨y.take x n, hheld.take x hnx, rfl, rfl, rfl, ?_⟩
  rw [exec_swrite_take (n := n) hs hsnd hheld hstatus rfl hle, if_neg hdue]
  rfl

/-- Settles O35: the message is complete, so the flush sends M = 0. -/
theorem swriteSendsTheFinalChunk : Obligations.SwriteSendsTheFinalChunk := by
  intro s y x held used rest evs hs hsnd hheld hstatus n hpos htotal hc hw
  have hmore : (y.take x n).more = false := decide_eq_false (by simp only [Sender.take]; omega)
  have hw' : WriteRun (inSwrite (y.take x n) s) (.i s.txSeq false) (held ++ x.take n) used none
    evs := hw.congr rfl rfl
  refine ⟨{ y.take x n with chunkLen := 0, status := .done }, rfl, htotal, rfl, rfl, ?_⟩
  rw [exec_swrite_flush (n := n) hs hsnd hheld hstatus rfl htotal.le hpos (.inr htotal),
    flush_final (s := inSwrite (y.take x n) s) (rest := rest) (hheld.take x (Nat.min_le_left _ _))
      (take_length_le (Nat.min_le_right _ _) hpos) hc hmore hw']
  rfl

/-- Settles O36: the chunk is full and the message is not, so the flush sends M = 1 and comes to its acknowledgment. -/
theorem swriteSendsAFullChunk : Obligations.SwriteSendsAFullChunk := by
  intro s y x held used evs hs hsnd hheld hstatus n hpos hfull howed hw
  have hmore : (y.take x n).more = true := decide_eq_true howed
  have hholds : (y.take x n).Holds (held ++ x.take n) := hheld.take x (Nat.min_le_left _ _)
  have hw' : WriteRun (inSwrite (y.take x n) s) (.i s.txSeq true) (held ++ x.take n) used none
    evs := hw.congr rfl rfl
  have hexec {rest : List BusAnswer} (hc : s.chip = used ++ rest) :
      exec (.swrite x) s = .next (finish (awaitAck (.consumed n)
        (flushed used rest evs (inSwrite (y.take x n) s)))) := by
    rw [exec_swrite_flush (n := n) hs hsnd hheld hstatus rfl howed.le hpos (.inl hfull),
      flush_more (s := inSwrite (y.take x n) s) (rest := rest) hholds
        (take_length_le (Nat.min_le_right _ _) hpos) hc hmore hw']
  refine ⟨fun ack rest hP hack hc => ?accepted, fun a e rest hr hc => ?refused, fun hc => ?absent⟩
  case accepted =>
    subst hack
    refine ⟨{ y.take x n with chunkLen := 0 }, rfl, rfl, rfl, rfl, ?_⟩
    rw [hexec hc, awaitAck_accepted (s := flushed used _ evs (inSwrite (y.take x n) s)) hP rfl]
    rfl
  case refused =>
    refine ⟨{ y.take x n with status := .failed }, hholds, rfl, rfl, rfl, ?_⟩
    rw [hexec hc, awaitAck_refused (s := flushed used _ evs (inSwrite (y.take x n) s)) hr rfl]
    rfl
  case absent =>
    refine ⟨y.take x n, hholds, rfl, rfl, rfl, ?_⟩
    rw [hexec (rest := []) (by rw [hc, List.append_nil]), awaitAck_absent rfl]
    rfl

/-! ### SFLUSH -/

section
variable {s : State} {y : Sender}

theorem exec_sflush_of_ready (hs : s.Ready) : exec .sflush s = .next (finish (sflushOp (s.accept .sflush))) :=
  command_ready hs _ _

/-- An SFLUSH whose body stops with a fault leaves the block stopped in SFLUSH. -/
theorem exec_sflush_of_stuck (hs : s.Ready) {t : Fault}
    (h : sflushOp (s.accept .sflush) = .stuck t (s.accept .sflush)) :
    exec .sflush s = .next (stuckState s .sflush t) := by
  rw [exec_sflush_of_ready hs, h]
  rfl

theorem sflushOp_of_noSender (hsnd : s.snd = none) : sflushOp s = .stuck .senderNotOpen s := by
  simp only [sflushOp, hsnd]

theorem sflushOp_of_failed (hsnd : s.snd = some y) (hy : y.status = .failed) :
    sflushOp s = .stuck .programmingError s := by
  simp only [sflushOp, hsnd, hy]

theorem sflushOp_of_done (hsnd : s.snd = some y) (hy : y.status = .done) : sflushOp s = .ok .unit s := by
  simp only [sflushOp, hsnd, hy]

theorem sflushOp_of_owed (hsnd : s.snd = some y) (hy : y.status = .active) (howed : y.written < y.total) :
    sflushOp s = .stuck .programmingError s := by
  simp only [sflushOp, hsnd, hy, if_pos howed]

theorem sflushOp_of_complete (hsnd : s.snd = some y) (hy : y.status = .active) (hall : y.total ≤ y.written) :
    sflushOp s = flush y .unit s := by
  simp only [sflushOp, hsnd, hy, if_neg (Nat.not_lt.2 hall)]

theorem exec_sflush_flush (hs : s.Ready) (hsnd : s.snd = some y) (hy : y.status = .active)
    (hall : y.total ≤ y.written) : exec .sflush s = .next (finish (flush y .unit (s.accept .sflush))) := by
  rw [exec_sflush_of_ready hs, sflushOp_of_complete (s := s.accept .sflush) hsnd hy hall]

end

/-- Settles O40: the sender's status and the bytes owed pick the case. -/
theorem sflushOutcomes : Obligations.SflushOutcomes := by
  intro s hs
  refine ⟨fun hsnd => exec_sflush_of_stuck hs (sflushOp_of_noSender hsnd),
    fun y hsnd hy => exec_sflush_of_stuck hs (sflushOp_of_failed hsnd hy), fun y hsnd hy => ?done,
    fun y hsnd hy howed => exec_sflush_of_stuck hs (sflushOp_of_owed hsnd hy howed),
    fun y held used rest evs hsnd hy hall hheld hlen hc hw => ?complete⟩
  case done =>
    rw [exec_sflush_of_ready hs, sflushOp_of_done (s := s.accept .sflush) hsnd hy]
    rfl
  case complete =>
    have hmore : y.more = false := decide_eq_false (Nat.not_lt.2 hall)
    have hw' : WriteRun (s.accept .sflush) (.i s.txSeq false) held used none evs := hw.congr rfl rfl
    rw [exec_sflush_flush hs hsnd hy hall, flush_final (s := s.accept .sflush) (rest := rest) hheld hlen hc hmore hw']
    simp only [finish, doneChunk, State.mapSnd, flushed, State.accept, hsnd]
    rfl

/-- Settles O38: the flush of either command fails with the error of its write. -/
theorem failedFlushFailsTheSender : Obligations.FailedFlushFailsTheSender := by
  intro s y held used rest e evs hs hsnd hheld hc
  constructor
  case left =>
    intro x n hstatus hpos hle hdue hw
    have hholds : (y.take x n).Holds (held ++ x.take n) := hheld.take x (Nat.min_le_left _ _)
    have hw' : WriteRun (inSwrite (y.take x n) s) (.i s.txSeq (y.take x n).more)
      (held ++ x.take n) used (some e) evs := hw.congr rfl rfl
    refine ⟨{ y.take x n with status := .failed }, hholds, rfl, rfl, rfl, ?_⟩
    rw [exec_swrite_flush (n := n) hs hsnd hheld hstatus rfl hle hpos hdue,
      flush_failed (s := inSwrite (y.take x n) s) (rest := rest) hholds
        (take_length_le (Nat.min_le_right _ _) hpos) hc hw']
    rfl
  case right =>
    intro hactive hall hlen hw
    have hmore : y.more = false := decide_eq_false (Nat.not_lt.2 hall)
    have hw' : WriteRun (s.accept .sflush) (.i s.txSeq y.more) held used (some e) evs := by
      rw [hmore]; exact hw.congr rfl rfl
    rw [exec_sflush_flush hs hsnd hactive hall, flush_failed (s := s.accept .sflush) (rest := rest) hheld hlen hc hw']
    simp only [finish, failFlush, State.mapSnd, flushed, State.accept, hsnd]
    rfl

end Sys2Proof.Machine
end
